-- ==== Sys2Proof/Word.lean ====
section
/-! DEFINITION. The word types of the core: an 8-bit data byte and a 16-bit word or address
(00_scope.md rules R6, R8). -/

namespace Sys2Proof

/-- A byte: 8 bits, bit 0 the least significant (rule R8). -/
abbrev Byte := BitVec 8

/-- A 16-bit word; every address and the program counter are one (rules R6, R24). -/
abbrev Addr := BitVec 16

end Sys2Proof
end

