-- ==== Sys2Proof/Syntax.lean ====
section
/-! DEFINITION. The instructions: the 56 operations and the `INVALID` marker (30_encoding.md rules R82, R87, R89),
the twelve addressing modes and the operand forms (30_encoding.md rules R80, R84). -/

namespace Sys2Proof

/-- The 56 operation identities (30_encoding.md rule R87), in the order of their rules. -/
inductive Op where
  | ADC | SBC | AND | ORA | EOR | BIT | LDA | LDX
  | LDY | STA | STX | STY | TAX | TAY | TXA | TYA
  | TSX | TXS | ASL | LSR | ROL | ROR | CMP | CPX
  | CPY | INC | DEC | INX | INY | DEX | DEY | BCC
  | BCS | BEQ | BNE | BMI | BPL | BVC | BVS | PHA
  | PLA | PHP | PLP | CLC | SEC | CLD | SED | CLI
  | SEI | CLV | JMP | JSR | RTS | RTI | BRK | NOP
  deriving DecidableEq, Repr

/-- The twelve addressing modes, by the tags of 30_encoding.md rule R84. -/
inductive Mode where
  | imp | imm | zp | zpx | zpy | rel | abs | abx | aby | ind | izx | izy
  deriving DecidableEq, Repr

/-- `WIDTH` by mode: the width in bytes of the format a mode uses (30_encoding.md rule R80). -/
def Mode.width : Mode → Nat
  | .imp => 1
  | .imm | .zp | .zpx | .zpy | .rel | .izx | .izy => 2
  | .abs | .abx | .aby | .ind => 3

/-- An operand of one of the eleven modes that have operand bytes: `b1` is the operand byte, `w` the
little-endian operand word (30_encoding.md rule R84). The mode `imp` has none: it is the absence of an operand. -/
inductive Operand where
  | imm (b1 : Byte)
  | zp (b1 : Byte)
  | zpx (b1 : Byte)
  | zpy (b1 : Byte)
  | rel (b1 : Byte)
  | abs (w : Addr)
  | abx (w : Addr)
  | aby (w : Addr)
  | ind (w : Addr)
  | izx (b1 : Byte)
  | izy (b1 : Byte)
  deriving DecidableEq, Repr

/-- The mode of an operand. -/
def Operand.mode : Operand → Mode
  | .imm _ => .imm
  | .zp _ => .zp
  | .zpx _ => .zpx
  | .zpy _ => .zpy
  | .rel _ => .rel
  | .abs _ => .abs
  | .abx _ => .abx
  | .aby _ => .aby
  | .ind _ => .ind
  | .izx _ => .izx
  | .izy _ => .izy

/-- The mode of an operand field that may be absent: `imp` when it is (30_encoding.md rule R84). -/
def modeOf : Option Operand → Mode
  | none => .imp
  | some o => o.mode

/-- The instructions: one constructor per operation of 30_encoding.md rule R87, its operand form an argument,
and one for the 105 bytes classified `INVALID` (rule R89). The operand of a shift or rotate is optional: `none` is
the accumulator form. -/
inductive Instr where
  /-- ADC, add memory and carry to the accumulator (rule R130). -/
  | adc (o : Operand)
  /-- SBC, subtract memory and borrow from the accumulator (rule R131). -/
  | sbc (o : Operand)
  /-- AND, bitwise and of memory into the accumulator (rule R140). -/
  | and (o : Operand)
  /-- ORA, bitwise or of memory into the accumulator (rule R141). -/
  | ora (o : Operand)
  /-- EOR, bitwise exclusive or of memory into the accumulator (rule R142). -/
  | eor (o : Operand)
  /-- BIT, test bits of memory against the accumulator (rule R143). -/
  | bit (o : Operand)
  /-- LDA, load the accumulator (rule R144). -/
  | lda (o : Operand)
  /-- LDX, load the X register (rule R145). -/
  | ldx (o : Operand)
  /-- LDY, load the Y register (rule R146). -/
  | ldy (o : Operand)
  /-- STA, store the accumulator (rule R147). -/
  | sta (o : Operand)
  /-- STX, store the X register (rule R148). -/
  | stx (o : Operand)
  /-- STY, store the Y register (rule R149). -/
  | sty (o : Operand)
  /-- TAX, transfer A to X (rule R150). -/
  | tax
  /-- TAY, transfer A to Y (rule R151). -/
  | tay
  /-- TXA, transfer X to A (rule R152). -/
  | txa
  /-- TYA, transfer Y to A (rule R153). -/
  | tya
  /-- TSX, transfer the stack pointer to X (rule R154). -/
  | tsx
  /-- TXS, transfer X to the stack pointer (rule R155). -/
  | txs
  /-- ASL, arithmetic shift left by one bit (rule R170). -/
  | asl (o : Option Operand)
  /-- LSR, logical shift right by one bit (rule R171). -/
  | lsr (o : Option Operand)
  /-- ROL, rotate left by one bit through the carry (rule R172). -/
  | rol (o : Option Operand)
  /-- ROR, rotate right by one bit through the carry (rule R173). -/
  | ror (o : Option Operand)
  /-- CMP, compare memory with the accumulator (rule R180). -/
  | cmp (o : Operand)
  /-- CPX, compare memory with X (rule R181). -/
  | cpx (o : Operand)
  /-- CPY, compare memory with Y (rule R182). -/
  | cpy (o : Operand)
  /-- INC, increment memory (rule R190). -/
  | inc (o : Operand)
  /-- DEC, decrement memory (rule R191). -/
  | dec (o : Operand)
  /-- INX, increment X (rule R192). -/
  | inx
  /-- INY, increment Y (rule R193). -/
  | iny
  /-- DEX, decrement X (rule R194). -/
  | dex
  /-- DEY, decrement Y (rule R195). -/
  | dey
  /-- BCC, branch if carry clear (rule R200). -/
  | bcc (o : Operand)
  /-- BCS, branch if carry set (rule R201). -/
  | bcs (o : Operand)
  /-- BEQ, branch if zero set (rule R202). -/
  | beq (o : Operand)
  /-- BNE, branch if zero clear (rule R203). -/
  | bne (o : Operand)
  /-- BMI, branch if negative set (rule R204). -/
  | bmi (o : Operand)
  /-- BPL, branch if negative clear (rule R205). -/
  | bpl (o : Operand)
  /-- BVC, branch if overflow clear (rule R206). -/
  | bvc (o : Operand)
  /-- BVS, branch if overflow set (rule R207). -/
  | bvs (o : Operand)
  /-- PHA, push the accumulator (rule R220). -/
  | pha
  /-- PLA, pull the accumulator (rule R221). -/
  | pla
  /-- PHP, push the status byte (rule R222). -/
  | php
  /-- PLP, pull the status byte (rule R223). -/
  | plp
  /-- CLC, clear carry (rule R224). -/
  | clc
  /-- SEC, set carry (rule R225). -/
  | sec
  /-- CLD, clear decimal (rule R226). -/
  | cld
  /-- SED, set decimal (rule R227). -/
  | sed
  /-- CLI, clear interrupt disable (rule R228). -/
  | cli
  /-- SEI, set interrupt disable (rule R229). -/
  | sei
  /-- CLV, clear overflow (rule R230). -/
  | clv
  /-- JMP, jump (rule R240). -/
  | jmp (o : Operand)
  /-- JSR, jump to subroutine (rule R241). -/
  | jsr (o : Operand)
  /-- RTS, return from subroutine (rule R242). -/
  | rts
  /-- RTI, return from interrupt (rule R243). -/
  | rti
  /-- BRK, software break: halt (rule R250). -/
  | brk
  /-- NOP, no operation (rule R251). -/
  | nop
  /-- `INVALID`: an opcode byte that is none of the 151 valid ones (rule R252). -/
  | invalid (op : Byte)
  deriving DecidableEq, Repr

/-- `OP` of an instruction: its operation identity, `none` for `INVALID` (30_encoding.md rule R82). -/
def Instr.op : Instr → Option Op
  | .adc _ => some .ADC
  | .sbc _ => some .SBC
  | .and _ => some .AND
  | .ora _ => some .ORA
  | .eor _ => some .EOR
  | .bit _ => some .BIT
  | .lda _ => some .LDA
  | .ldx _ => some .LDX
  | .ldy _ => some .LDY
  | .sta _ => some .STA
  | .stx _ => some .STX
  | .sty _ => some .STY
  | .tax => some .TAX
  | .tay => some .TAY
  | .txa => some .TXA
  | .tya => some .TYA
  | .tsx => some .TSX
  | .txs => some .TXS
  | .asl _ => some .ASL
  | .lsr _ => some .LSR
  | .rol _ => some .ROL
  | .ror _ => some .ROR
  | .cmp _ => some .CMP
  | .cpx _ => some .CPX
  | .cpy _ => some .CPY
  | .inc _ => some .INC
  | .dec _ => some .DEC
  | .inx => some .INX
  | .iny => some .INY
  | .dex => some .DEX
  | .dey => some .DEY
  | .bcc _ => some .BCC
  | .bcs _ => some .BCS
  | .beq _ => some .BEQ
  | .bne _ => some .BNE
  | .bmi _ => some .BMI
  | .bpl _ => some .BPL
  | .bvc _ => some .BVC
  | .bvs _ => some .BVS
  | .pha => some .PHA
  | .pla => some .PLA
  | .php => some .PHP
  | .plp => some .PLP
  | .clc => some .CLC
  | .sec => some .SEC
  | .cld => some .CLD
  | .sed => some .SED
  | .cli => some .CLI
  | .sei => some .SEI
  | .clv => some .CLV
  | .jmp _ => some .JMP
  | .jsr _ => some .JSR
  | .rts => some .RTS
  | .rti => some .RTI
  | .brk => some .BRK
  | .nop => some .NOP
  | .invalid _ => none

/-- The operand of an instruction, `none` where it has no operand byte. -/
def Instr.operand : Instr → Option Operand
  | .adc o => some o
  | .sbc o => some o
  | .and o => some o
  | .ora o => some o
  | .eor o => some o
  | .bit o => some o
  | .lda o => some o
  | .ldx o => some o
  | .ldy o => some o
  | .sta o => some o
  | .stx o => some o
  | .sty o => some o
  | .tax => none
  | .tay => none
  | .txa => none
  | .tya => none
  | .tsx => none
  | .txs => none
  | .asl o => o
  | .lsr o => o
  | .rol o => o
  | .ror o => o
  | .cmp o => some o
  | .cpx o => some o
  | .cpy o => some o
  | .inc o => some o
  | .dec o => some o
  | .inx => none
  | .iny => none
  | .dex => none
  | .dey => none
  | .bcc o => some o
  | .bcs o => some o
  | .beq o => some o
  | .bne o => some o
  | .bmi o => some o
  | .bpl o => some o
  | .bvc o => some o
  | .bvs o => some o
  | .pha => none
  | .pla => none
  | .php => none
  | .plp => none
  | .clc => none
  | .sec => none
  | .cld => none
  | .sed => none
  | .cli => none
  | .sei => none
  | .clv => none
  | .jmp o => some o
  | .jsr o => some o
  | .rts => none
  | .rti => none
  | .brk => none
  | .nop => none
  | .invalid _ => none

/-- The addressing mode of an instruction. -/
def Instr.mode (i : Instr) : Mode := modeOf i.operand

end Sys2Proof
end

