-- ==== Sys2Proof/Config.lean ====
section
/-! DEFINITION. The parameters a model takes, "a configuration value fixed for a whole run" (00_scope.md
rule R7), as plain data. The default values of the parameters stand in Machine/Defaults.lean. -/

namespace Sys2Proof

/-- `MEM_LAYOUT` (20_memory.md rule R55): which address decode stands behind the memory port. -/
inductive Layout where
  | flatMirrored
  | segmentedMap
  deriving DecidableEq, Repr

/-- `INVALID_POLICY` (49_system.md rule R252): what an opcode byte classified `INVALID` does. -/
inductive InvalidPolicy where
  | fatal
  | nop
  deriving DecidableEq, Repr

/-- The four decode tables, each indexed by the raw opcode byte, its entry at place n that of byte n (30_encoding.md
rule R82; log entry 6). -/
structure Tables where
  /-- `OP`: the operation of each byte; `none` is `INVALID`. -/
  ops : List (Option Op)
  /-- `MODE`. -/
  modes : List Mode
  /-- `WIDTH`, 0 for an `INVALID` byte. -/
  widths : List Nat
  /-- `CYCLES`: the base cost; the places of the `INVALID` bytes are not used (rule R88). -/
  costs : List Nat
  deriving DecidableEq, Repr

/-- The parameters of rule R7 that a run fixes. -/
structure Config where
  /-- `MEM_LAYOUT`. -/
  layout : Layout
  /-- `INVALID_POLICY`. -/
  invalidPolicy : InvalidPolicy
  /-- `INVALID_NOP_COST`, a positive integer: the cost an invalid byte loads under `nop`. -/
  invalidNopCost : Nat
  /-- `NMI_VECTOR` (60_exceptions.md rule R266). -/
  nmiVector : Addr
  /-- `IRQ_VECTOR` (60_exceptions.md rule R267). -/
  irqVector : Addr
  /-- `DirtyQualifies` (10_state.md rule R34) as data: an address qualifies when it lies in one of these
  closed ranges (first, last). Every predicate on 16-bit addresses is such a list (log entry 5). -/
  dirtyRanges : List (Addr × Addr)
  /-- `MODE`, `OP`, `WIDTH` and `CYCLES`. -/
  tables : Tables
  /-- `IZY_SIGNED` (40_step_and_addressing.md rule R116). -/
  izySigned : Bool
  /-- `TXS_SETS_NZ` (42_logic_load_store_transfer.md rule R155). -/
  txsSetsNZ : Bool
  deriving DecidableEq, Repr

end Sys2Proof
end

