-- ==== Sys2Proof/WellFormed.lean ====
section
/-! DEFINITION. Which terms of `Instr` are instructions under the standard matrix: the operation has the operand's mode
among those its rule lists under "Operands:" (files 41 to 49), and an `INVALID` byte is one of the 105 of
30_encoding.md rule R89. Operand bytes are never ill-formed (rule R90). -/

namespace Sys2Proof

/-- The eight operand modes of ADC, SBC, AND, ORA, EOR, LDA and CMP (rules R130, R131, R140 to R142, R144, R180). -/
def aluModes : List Mode := [.imm, .zp, .zpx, .abs, .abx, .aby, .izx, .izy]

/-- The modes the rule of an operation lists under "Operands:". -/
def Op.modes : Op → List Mode
  | .ADC => aluModes
  | .SBC => aluModes
  | .AND => aluModes
  | .ORA => aluModes
  | .EOR => aluModes
  | .BIT => [.zp, .abs]
  | .LDA => aluModes
  | .LDX => [.imm, .zp, .zpy, .abs, .aby]
  | .LDY => [.imm, .zp, .zpx, .abs, .abx]
  | .STA => [.zp, .zpx, .abs, .abx, .aby, .izx, .izy]
  | .STX => [.zp, .zpy, .abs]
  | .STY => [.zp, .zpx, .abs]
  | .TAX => [.imp]
  | .TAY => [.imp]
  | .TXA => [.imp]
  | .TYA => [.imp]
  | .TSX => [.imp]
  | .TXS => [.imp]
  | .ASL => [.imp, .zp, .zpx, .abs, .abx]
  | .LSR => [.imp, .zp, .zpx, .abs, .abx]
  | .ROL => [.imp, .zp, .zpx, .abs, .abx]
  | .ROR => [.imp, .zp, .zpx, .abs, .abx]
  | .CMP => aluModes
  | .CPX => [.imm, .zp, .abs]
  | .CPY => [.imm, .zp, .abs]
  | .INC => [.zp, .zpx, .abs, .abx]
  | .DEC => [.zp, .zpx, .abs, .abx]
  | .INX => [.imp]
  | .INY => [.imp]
  | .DEX => [.imp]
  | .DEY => [.imp]
  | .BCC => [.rel]
  | .BCS => [.rel]
  | .BEQ => [.rel]
  | .BNE => [.rel]
  | .BMI => [.rel]
  | .BPL => [.rel]
  | .BVC => [.rel]
  | .BVS => [.rel]
  | .PHA => [.imp]
  | .PLA => [.imp]
  | .PHP => [.imp]
  | .PLP => [.imp]
  | .CLC => [.imp]
  | .SEC => [.imp]
  | .CLD => [.imp]
  | .SED => [.imp]
  | .CLI => [.imp]
  | .SEI => [.imp]
  | .CLV => [.imp]
  | .JMP => [.abs, .ind]
  | .JSR => [.abs]
  | .RTS => [.imp]
  | .RTI => [.imp]
  | .BRK => [.imp]
  | .NOP => [.imp]

/-- The 105 opcode bytes that are `INVALID`, as 30_encoding.md rule R89 lists them. -/
def invalidOpcodes : List Byte :=
  [0x02, 0x03, 0x04, 0x07, 0x0B, 0x0C, 0x0F, 0x12, 0x13, 0x14, 0x17, 0x1A, 0x1B, 0x1C, 0x1F] ++
  [0x22, 0x23, 0x27, 0x2B, 0x2F, 0x32, 0x33, 0x34, 0x37, 0x3A, 0x3B, 0x3C, 0x3F, 0x42, 0x43] ++
  [0x44, 0x47, 0x4B, 0x4F, 0x52, 0x53, 0x54, 0x57, 0x5A, 0x5B, 0x5C, 0x5F, 0x62, 0x63, 0x64] ++
  [0x67, 0x6B, 0x6F, 0x72, 0x73, 0x74, 0x77, 0x7A, 0x7B, 0x7C, 0x7F, 0x80, 0x82, 0x83, 0x87] ++
  [0x89, 0x8B, 0x8F, 0x92, 0x93, 0x97, 0x9B, 0x9C, 0x9E, 0x9F, 0xA3, 0xA7, 0xAB, 0xAF, 0xB2] ++
  [0xB3, 0xB7, 0xBB, 0xBF, 0xC2, 0xC3, 0xC7, 0xCB, 0xCF, 0xD2, 0xD3, 0xD4, 0xD7, 0xDA, 0xDB] ++
  [0xDC, 0xDF, 0xE2, 0xE3, 0xE7, 0xEB, 0xEF, 0xF2, 0xF3, 0xF4, 0xF7, 0xFA, 0xFB, 0xFC, 0xFF]

/-- A well-formed instruction (rules R87, R89, R90). -/
def Instr.WellFormed (i : Instr) : Bool :=
  match i with
  | .invalid op => invalidOpcodes.contains op
  | .adc o => (Op.modes .ADC).contains o.mode
  | .sbc o => (Op.modes .SBC).contains o.mode
  | .and o => (Op.modes .AND).contains o.mode
  | .ora o => (Op.modes .ORA).contains o.mode
  | .eor o => (Op.modes .EOR).contains o.mode
  | .bit o => (Op.modes .BIT).contains o.mode
  | .lda o => (Op.modes .LDA).contains o.mode
  | .ldx o => (Op.modes .LDX).contains o.mode
  | .ldy o => (Op.modes .LDY).contains o.mode
  | .sta o => (Op.modes .STA).contains o.mode
  | .stx o => (Op.modes .STX).contains o.mode
  | .sty o => (Op.modes .STY).contains o.mode
  | .tax => true
  | .tay => true
  | .txa => true
  | .tya => true
  | .tsx => true
  | .txs => true
  | .asl o => (Op.modes .ASL).contains (modeOf o)
  | .lsr o => (Op.modes .LSR).contains (modeOf o)
  | .rol o => (Op.modes .ROL).contains (modeOf o)
  | .ror o => (Op.modes .ROR).contains (modeOf o)
  | .cmp o => (Op.modes .CMP).contains o.mode
  | .cpx o => (Op.modes .CPX).contains o.mode
  | .cpy o => (Op.modes .CPY).contains o.mode
  | .inc o => (Op.modes .INC).contains o.mode
  | .dec o => (Op.modes .DEC).contains o.mode
  | .inx => true
  | .iny => true
  | .dex => true
  | .dey => true
  | .bcc o => (Op.modes .BCC).contains o.mode
  | .bcs o => (Op.modes .BCS).contains o.mode
  | .beq o => (Op.modes .BEQ).contains o.mode
  | .bne o => (Op.modes .BNE).contains o.mode
  | .bmi o => (Op.modes .BMI).contains o.mode
  | .bpl o => (Op.modes .BPL).contains o.mode
  | .bvc o => (Op.modes .BVC).contains o.mode
  | .bvs o => (Op.modes .BVS).contains o.mode
  | .pha => true
  | .pla => true
  | .php => true
  | .plp => true
  | .clc => true
  | .sec => true
  | .cld => true
  | .sed => true
  | .cli => true
  | .sei => true
  | .clv => true
  | .jmp o => (Op.modes .JMP).contains o.mode
  | .jsr o => (Op.modes .JSR).contains o.mode
  | .rts => true
  | .rti => true
  | .brk => true
  | .nop => true

end Sys2Proof
end

