-- ==== Sys2Proof/Decode.lean ====
section
/-! DEFINITION. The decode tables and their default, the standard matrix; decoding, table-driven by the full opcode
byte (30_encoding.md rules R81 to R86); and after it the encoder of the standard matrix, written from the map by
operation (rule R87). -/

namespace Sys2Proof

/-! ### Byte order (20_memory.md rule R60) -/

/-- `{hi, lo}`: the word of two bytes, `hi` in the high bits (00_scope.md rule R8). -/
def word (hi lo : Byte) : Addr := hi ++ lo

/-- `w[7:0]`. -/
def lowByte (w : Addr) : Byte := w.extractLsb' 0 8

/-- `w[15:8]`. -/
def highByte (w : Addr) : Byte := w.extractLsb' 8 8

/-! ### The standard matrix (30_encoding.md rule R86), one list per row of the map -/

/-- Row 0x of rule R86: the cells of bytes 0x00 to 0x0F. -/
def opcodeRow0 : List (Option (Op × Mode)) :=
  [some (.BRK, .imp), some (.ORA, .izx), none, none,
   none, some (.ORA, .zp), some (.ASL, .zp), none,
   some (.PHP, .imp), some (.ORA, .imm), some (.ASL, .imp), none,
   none, some (.ORA, .abs), some (.ASL, .abs), none]

/-- Row 1x of rule R86: the cells of bytes 0x10 to 0x1F. -/
def opcodeRow1 : List (Option (Op × Mode)) :=
  [some (.BPL, .rel), some (.ORA, .izy), none, none,
   none, some (.ORA, .zpx), some (.ASL, .zpx), none,
   some (.CLC, .imp), some (.ORA, .aby), none, none,
   none, some (.ORA, .abx), some (.ASL, .abx), none]

/-- Row 2x of rule R86: the cells of bytes 0x20 to 0x2F. -/
def opcodeRow2 : List (Option (Op × Mode)) :=
  [some (.JSR, .abs), some (.AND, .izx), none, none,
   some (.BIT, .zp), some (.AND, .zp), some (.ROL, .zp), none,
   some (.PLP, .imp), some (.AND, .imm), some (.ROL, .imp), none,
   some (.BIT, .abs), some (.AND, .abs), some (.ROL, .abs), none]

/-- Row 3x of rule R86: the cells of bytes 0x30 to 0x3F. -/
def opcodeRow3 : List (Option (Op × Mode)) :=
  [some (.BMI, .rel), some (.AND, .izy), none, none,
   none, some (.AND, .zpx), some (.ROL, .zpx), none,
   some (.SEC, .imp), some (.AND, .aby), none, none,
   none, some (.AND, .abx), some (.ROL, .abx), none]

/-- Row 4x of rule R86: the cells of bytes 0x40 to 0x4F. -/
def opcodeRow4 : List (Option (Op × Mode)) :=
  [some (.RTI, .imp), some (.EOR, .izx), none, none,
   none, some (.EOR, .zp), some (.LSR, .zp), none,
   some (.PHA, .imp), some (.EOR, .imm), some (.LSR, .imp), none,
   some (.JMP, .abs), some (.EOR, .abs), some (.LSR, .abs), none]

/-- Row 5x of rule R86: the cells of bytes 0x50 to 0x5F. -/
def opcodeRow5 : List (Option (Op × Mode)) :=
  [some (.BVC, .rel), some (.EOR, .izy), none, none,
   none, some (.EOR, .zpx), some (.LSR, .zpx), none,
   some (.CLI, .imp), some (.EOR, .aby), none, none,
   none, some (.EOR, .abx), some (.LSR, .abx), none]

/-- Row 6x of rule R86: the cells of bytes 0x60 to 0x6F. -/
def opcodeRow6 : List (Option (Op × Mode)) :=
  [some (.RTS, .imp), some (.ADC, .izx), none, none,
   none, some (.ADC, .zp), some (.ROR, .zp), none,
   some (.PLA, .imp), some (.ADC, .imm), some (.ROR, .imp), none,
   some (.JMP, .ind), some (.ADC, .abs), some (.ROR, .abs), none]

/-- Row 7x of rule R86: the cells of bytes 0x70 to 0x7F. -/
def opcodeRow7 : List (Option (Op × Mode)) :=
  [some (.BVS, .rel), some (.ADC, .izy), none, none,
   none, some (.ADC, .zpx), some (.ROR, .zpx), none,
   some (.SEI, .imp), some (.ADC, .aby), none, none,
   none, some (.ADC, .abx), some (.ROR, .abx), none]

/-- Row 8x of rule R86: the cells of bytes 0x80 to 0x8F. -/
def opcodeRow8 : List (Option (Op × Mode)) :=
  [none, some (.STA, .izx), none, none,
   some (.STY, .zp), some (.STA, .zp), some (.STX, .zp), none,
   some (.DEY, .imp), none, some (.TXA, .imp), none,
   some (.STY, .abs), some (.STA, .abs), some (.STX, .abs), none]

/-- Row 9x of rule R86: the cells of bytes 0x90 to 0x9F. -/
def opcodeRow9 : List (Option (Op × Mode)) :=
  [some (.BCC, .rel), some (.STA, .izy), none, none,
   some (.STY, .zpx), some (.STA, .zpx), some (.STX, .zpy), none,
   some (.TYA, .imp), some (.STA, .aby), some (.TXS, .imp), none,
   none, some (.STA, .abx), none, none]

/-- Row Ax of rule R86: the cells of bytes 0xA0 to 0xAF. -/
def opcodeRowA : List (Option (Op × Mode)) :=
  [some (.LDY, .imm), some (.LDA, .izx), some (.LDX, .imm), none,
   some (.LDY, .zp), some (.LDA, .zp), some (.LDX, .zp), none,
   some (.TAY, .imp), some (.LDA, .imm), some (.TAX, .imp), none,
   some (.LDY, .abs), some (.LDA, .abs), some (.LDX, .abs), none]

/-- Row Bx of rule R86: the cells of bytes 0xB0 to 0xBF. -/
def opcodeRowB : List (Option (Op × Mode)) :=
  [some (.BCS, .rel), some (.LDA, .izy), none, none,
   some (.LDY, .zpx), some (.LDA, .zpx), some (.LDX, .zpy), none,
   some (.CLV, .imp), some (.LDA, .aby), some (.TSX, .imp), none,
   some (.LDY, .abx), some (.LDA, .abx), some (.LDX, .aby), none]

/-- Row Cx of rule R86: the cells of bytes 0xC0 to 0xCF. -/
def opcodeRowC : List (Option (Op × Mode)) :=
  [some (.CPY, .imm), some (.CMP, .izx), none, none,
   some (.CPY, .zp), some (.CMP, .zp), some (.DEC, .zp), none,
   some (.INY, .imp), some (.CMP, .imm), some (.DEX, .imp), none,
   some (.CPY, .abs), some (.CMP, .abs), some (.DEC, .abs), none]

/-- Row Dx of rule R86: the cells of bytes 0xD0 to 0xDF. -/
def opcodeRowD : List (Option (Op × Mode)) :=
  [some (.BNE, .rel), some (.CMP, .izy), none, none,
   none, some (.CMP, .zpx), some (.DEC, .zpx), none,
   some (.CLD, .imp), some (.CMP, .aby), none, none,
   none, some (.CMP, .abx), some (.DEC, .abx), none]

/-- Row Ex of rule R86: the cells of bytes 0xE0 to 0xEF. -/
def opcodeRowE : List (Option (Op × Mode)) :=
  [some (.CPX, .imm), some (.SBC, .izx), none, none,
   some (.CPX, .zp), some (.SBC, .zp), some (.INC, .zp), none,
   some (.INX, .imp), some (.SBC, .imm), some (.NOP, .imp), none,
   some (.CPX, .abs), some (.SBC, .abs), some (.INC, .abs), none]

/-- Row Fx of rule R86: the cells of bytes 0xF0 to 0xFF. -/
def opcodeRowF : List (Option (Op × Mode)) :=
  [some (.BEQ, .rel), some (.SBC, .izy), none, none,
   none, some (.SBC, .zpx), some (.INC, .zpx), none,
   some (.SED, .imp), some (.SBC, .aby), none, none,
   none, some (.SBC, .abx), some (.INC, .abx), none]

/-- The standard matrix as one list of 256 cells, indexed by the raw opcode byte (rules R81, R86); `none` is
`INVALID`. -/
def opcodeTable : List (Option (Op × Mode)) :=
  [opcodeRow0, opcodeRow1, opcodeRow2, opcodeRow3, opcodeRow4, opcodeRow5, opcodeRow6, opcodeRow7, opcodeRow8,
    opcodeRow9, opcodeRowA, opcodeRowB, opcodeRowC, opcodeRowD, opcodeRowE, opcodeRowF].flatten

/-- The standard matrix's cell of one opcode byte. -/
def opcodeCell (op : Byte) : Option (Op × Mode) := opcodeTable.getD op.toNat none

/-- The default of the `CYCLES` table: the cost column of rule R86, 0 marking the `INVALID` bytes (rule R88;
90_conflicts.md C11). -/
def standardCosts : List Nat :=
  [[7, 6, 0, 0, 0, 3, 5, 0, 3, 2, 2, 0, 0, 4, 6, 0],
   [2, 5, 0, 0, 0, 4, 6, 0, 2, 4, 0, 0, 0, 4, 7, 0],
   [6, 6, 0, 0, 3, 3, 5, 0, 4, 2, 2, 0, 4, 4, 6, 0],
   [2, 5, 0, 0, 0, 4, 6, 0, 2, 4, 0, 0, 0, 4, 7, 0],
   [6, 6, 0, 0, 0, 3, 5, 0, 3, 2, 2, 0, 3, 4, 6, 0],
   [2, 5, 0, 0, 0, 4, 6, 0, 2, 4, 0, 0, 0, 4, 7, 0],
   [6, 6, 0, 0, 0, 3, 5, 0, 4, 2, 2, 0, 5, 4, 6, 0],
   [2, 5, 0, 0, 0, 4, 6, 0, 2, 4, 0, 0, 0, 4, 7, 0],
   [0, 6, 0, 0, 3, 3, 3, 0, 2, 0, 2, 0, 4, 4, 4, 0],
   [2, 6, 0, 0, 4, 4, 4, 0, 2, 5, 2, 0, 0, 5, 0, 0],
   [2, 6, 2, 0, 3, 3, 3, 0, 2, 2, 2, 0, 4, 4, 4, 0],
   [2, 5, 0, 0, 4, 4, 4, 0, 2, 4, 2, 0, 4, 4, 4, 0],
   [2, 6, 0, 0, 3, 3, 5, 0, 2, 2, 2, 0, 4, 4, 6, 0],
   [2, 5, 0, 0, 0, 4, 6, 0, 2, 4, 0, 0, 0, 4, 7, 0],
   [2, 6, 0, 0, 3, 3, 5, 0, 2, 2, 2, 0, 4, 4, 6, 0],
   [2, 5, 0, 0, 0, 4, 6, 0, 2, 4, 0, 0, 0, 4, 7, 0]].flatten

/-- The default of the four tables (00_scope.md rule R7): the standard matrix. A width is that of the mode's format,
0 for an `INVALID` byte (rule R82), whose place in `MODE` is not used. -/
def Tables.standard : Tables where
  ops := opcodeTable.map (fun c => c.map Prod.fst)
  modes := opcodeTable.map (fun c => (c.map Prod.snd).getD .imp)
  widths := opcodeTable.map (fun c => (c.map (fun cell => cell.2.width)).getD 0)
  costs := standardCosts

/-! ### Looking a byte up (rule R81: by the full byte) -/

/-- `OP[b]`. -/
def Tables.opAt (t : Tables) (b : Byte) : Option Op := t.ops.getD b.toNat none

/-- `MODE[b]`. -/
def Tables.modeAt (t : Tables) (b : Byte) : Mode := t.modes.getD b.toNat .imp

/-- `WIDTH[b]`. -/
def Tables.widthAt (t : Tables) (b : Byte) : Nat := t.widths.getD b.toNat 0

/-- `CYCLES[b]`. -/
def Tables.costAt (t : Tables) (b : Byte) : Nat := t.costs.getD b.toNat 0

/-! ### Decoding -/

/-- The operand a mode assembles from the bytes after the opcode (rule R84); `imp` has none. -/
def operandOf : Mode → Byte → Byte → Option Operand
  | .imp, _, _ => none
  | .imm, b1, _ => some (.imm b1)
  | .zp, b1, _ => some (.zp b1)
  | .zpx, b1, _ => some (.zpx b1)
  | .zpy, b1, _ => some (.zpy b1)
  | .rel, b1, _ => some (.rel b1)
  | .abs, b1, b2 => some (.abs (word b2 b1))
  | .abx, b1, b2 => some (.abx (word b2 b1))
  | .aby, b1, b2 => some (.aby (word b2 b1))
  | .ind, b1, b2 => some (.ind (word b2 b1))
  | .izx, b1, _ => some (.izx b1)
  | .izy, b1, _ => some (.izy b1)

/-- The instruction of an operation and an operand; `none` where the operation needs an operand and has none (the
tables hold no such pair: 40_step_and_addressing.md rule R121). -/
def instrOf : Op → Option Operand → Option Instr
  | .ADC, o => o.map .adc
  | .SBC, o => o.map .sbc
  | .AND, o => o.map .and
  | .ORA, o => o.map .ora
  | .EOR, o => o.map .eor
  | .BIT, o => o.map .bit
  | .LDA, o => o.map .lda
  | .LDX, o => o.map .ldx
  | .LDY, o => o.map .ldy
  | .STA, o => o.map .sta
  | .STX, o => o.map .stx
  | .STY, o => o.map .sty
  | .TAX, _ => some .tax
  | .TAY, _ => some .tay
  | .TXA, _ => some .txa
  | .TYA, _ => some .tya
  | .TSX, _ => some .tsx
  | .TXS, _ => some .txs
  | .ASL, o => some (.asl o)
  | .LSR, o => some (.lsr o)
  | .ROL, o => some (.rol o)
  | .ROR, o => some (.ror o)
  | .CMP, o => o.map .cmp
  | .CPX, o => o.map .cpx
  | .CPY, o => o.map .cpy
  | .INC, o => o.map .inc
  | .DEC, o => o.map .dec
  | .INX, _ => some .inx
  | .INY, _ => some .iny
  | .DEX, _ => some .dex
  | .DEY, _ => some .dey
  | .BCC, o => o.map .bcc
  | .BCS, o => o.map .bcs
  | .BEQ, o => o.map .beq
  | .BNE, o => o.map .bne
  | .BMI, o => o.map .bmi
  | .BPL, o => o.map .bpl
  | .BVC, o => o.map .bvc
  | .BVS, o => o.map .bvs
  | .PHA, _ => some .pha
  | .PLA, _ => some .pla
  | .PHP, _ => some .php
  | .PLP, _ => some .plp
  | .CLC, _ => some .clc
  | .SEC, _ => some .sec
  | .CLD, _ => some .cld
  | .SED, _ => some .sed
  | .CLI, _ => some .cli
  | .SEI, _ => some .sei
  | .CLV, _ => some .clv
  | .JMP, o => o.map .jmp
  | .JSR, o => o.map .jsr
  | .RTS, _ => some .rts
  | .RTI, _ => some .rti
  | .BRK, _ => some .brk
  | .NOP, _ => some .nop

/-- The instruction whose opcode byte is `b0`, with the two bytes after it: total on any tables and any bytes. An
`INVALID` byte reads neither (rules R83, R89). Of the tables, a pair that leaves its operation without an operand it
needs is run as `INVALID` (log entry 10). -/
def decodeBytes (t : Tables) (b0 b1 b2 : Byte) : Instr :=
  match t.opAt b0 with
  | some op => (instrOf op (operandOf (t.modeAt b0) b1 b2)).getD (.invalid b0)
  | none => .invalid b0

/-- How many bytes the instruction an opcode byte begins has, known from that byte alone (rule R83): those of its mode's
format (rule R80), which `WIDTH` gives too (rule R82); an `INVALID` byte stands alone. -/
def lengthOf (t : Tables) (b : Byte) : Nat :=
  match t.opAt b with
  | some _ => (t.modeAt b).width
  | none => 1

/-- Why a list of bytes is no instruction: it is too short. Operand bytes are never invalid (rule R90) and an
`INVALID` opcode byte has its own instruction. -/
inductive DecodeReject where
  /-- There is no opcode byte. -/
  | noOpcode
  /-- The operation `op` has operand bytes the list does not hold. -/
  | truncated (op : Byte)
  deriving DecidableEq, Repr

/-- Decode by given tables the instruction at the head of a list of bytes, with the bytes after it. -/
def decodeWith (t : Tables) : List Byte → Except DecodeReject (Instr × List Byte)
  | [] => .error .noOpcode
  | b0 :: rest =>
    match rest, lengthOf t b0 with
    | rest, 1 => .ok (decodeBytes t b0 0 0, rest)
    | b1 :: rest, 2 => .ok (decodeBytes t b0 b1 0, rest)
    | b1 :: b2 :: rest, _ => .ok (decodeBytes t b0 b1 b2, rest)
    | _, _ => .error (.truncated b0)

/-- Decode by the standard matrix. -/
def decode (bytes : List Byte) : Except DecodeReject (Instr × List Byte) := decodeWith Tables.standard bytes

/-- The byte at place `k` of an instruction whose bits are numbered as spec/opcode_table.json numbers them: byte `k`
is bits `8k + 7` to `8k` (rule R80). Bits above `nbits` are 0. -/
def tableByte (nbits w k : Nat) : Byte := BitVec.ofNat 8 ((w % 2 ^ max nbits 8) / 2 ^ (8 * k))

/-- The instruction given tables read from a table word: its bytes in the order memory holds them. -/
def decodeTableWordWith (t : Tables) (nbits w : Nat) : Option Instr :=
  match decodeWith t [tableByte nbits w 0, tableByte nbits w 1, tableByte nbits w 2] with
  | .ok (i, _) => some i
  | .error _ => none

/-- The instruction the decoder reads from a table word, by the standard matrix. -/
def decodeTableWord (nbits w : Nat) : Option Instr := decodeTableWordWith Tables.standard nbits w

/-! ### Encoding -/

/-- The map of the valid opcodes by operation (rule R87). -/
def Op.encodings : Op → List (Byte × Mode)
  | .ADC => [(0x69, .imm), (0x65, .zp), (0x75, .zpx), (0x6D, .abs), (0x7D, .abx), (0x79, .aby), (0x61, .izx), (0x71, .izy)]
  | .AND => [(0x29, .imm), (0x25, .zp), (0x35, .zpx), (0x2D, .abs), (0x3D, .abx), (0x39, .aby), (0x21, .izx), (0x31, .izy)]
  | .ASL => [(0x0A, .imp), (0x06, .zp), (0x16, .zpx), (0x0E, .abs), (0x1E, .abx)]
  | .BCC => [(0x90, .rel)]
  | .BCS => [(0xB0, .rel)]
  | .BEQ => [(0xF0, .rel)]
  | .BIT => [(0x24, .zp), (0x2C, .abs)]
  | .BMI => [(0x30, .rel)]
  | .BNE => [(0xD0, .rel)]
  | .BPL => [(0x10, .rel)]
  | .BRK => [(0x00, .imp)]
  | .BVC => [(0x50, .rel)]
  | .BVS => [(0x70, .rel)]
  | .CLC => [(0x18, .imp)]
  | .CLD => [(0xD8, .imp)]
  | .CLI => [(0x58, .imp)]
  | .CLV => [(0xB8, .imp)]
  | .CMP => [(0xC9, .imm), (0xC5, .zp), (0xD5, .zpx), (0xCD, .abs), (0xDD, .abx), (0xD9, .aby), (0xC1, .izx), (0xD1, .izy)]
  | .CPX => [(0xE0, .imm), (0xE4, .zp), (0xEC, .abs)]
  | .CPY => [(0xC0, .imm), (0xC4, .zp), (0xCC, .abs)]
  | .DEC => [(0xC6, .zp), (0xD6, .zpx), (0xCE, .abs), (0xDE, .abx)]
  | .DEX => [(0xCA, .imp)]
  | .DEY => [(0x88, .imp)]
  | .EOR => [(0x49, .imm), (0x45, .zp), (0x55, .zpx), (0x4D, .abs), (0x5D, .abx), (0x59, .aby), (0x41, .izx), (0x51, .izy)]
  | .INC => [(0xE6, .zp), (0xF6, .zpx), (0xEE, .abs), (0xFE, .abx)]
  | .INX => [(0xE8, .imp)]
  | .INY => [(0xC8, .imp)]
  | .JMP => [(0x4C, .abs), (0x6C, .ind)]
  | .JSR => [(0x20, .abs)]
  | .LDA => [(0xA9, .imm), (0xA5, .zp), (0xB5, .zpx), (0xAD, .abs), (0xBD, .abx), (0xB9, .aby), (0xA1, .izx), (0xB1, .izy)]
  | .LDX => [(0xA2, .imm), (0xA6, .zp), (0xB6, .zpy), (0xAE, .abs), (0xBE, .aby)]
  | .LDY => [(0xA0, .imm), (0xA4, .zp), (0xB4, .zpx), (0xAC, .abs), (0xBC, .abx)]
  | .LSR => [(0x4A, .imp), (0x46, .zp), (0x56, .zpx), (0x4E, .abs), (0x5E, .abx)]
  | .NOP => [(0xEA, .imp)]
  | .ORA => [(0x09, .imm), (0x05, .zp), (0x15, .zpx), (0x0D, .abs), (0x1D, .abx), (0x19, .aby), (0x01, .izx), (0x11, .izy)]
  | .PHA => [(0x48, .imp)]
  | .PHP => [(0x08, .imp)]
  | .PLA => [(0x68, .imp)]
  | .PLP => [(0x28, .imp)]
  | .ROL => [(0x2A, .imp), (0x26, .zp), (0x36, .zpx), (0x2E, .abs), (0x3E, .abx)]
  | .ROR => [(0x6A, .imp), (0x66, .zp), (0x76, .zpx), (0x6E, .abs), (0x7E, .abx)]
  | .RTI => [(0x40, .imp)]
  | .RTS => [(0x60, .imp)]
  | .SBC => [(0xE9, .imm), (0xE5, .zp), (0xF5, .zpx), (0xED, .abs), (0xFD, .abx), (0xF9, .aby), (0xE1, .izx), (0xF1, .izy)]
  | .SEC => [(0x38, .imp)]
  | .SED => [(0xF8, .imp)]
  | .SEI => [(0x78, .imp)]
  | .STA => [(0x85, .zp), (0x95, .zpx), (0x8D, .abs), (0x9D, .abx), (0x99, .aby), (0x81, .izx), (0x91, .izy)]
  | .STX => [(0x86, .zp), (0x96, .zpy), (0x8E, .abs)]
  | .STY => [(0x84, .zp), (0x94, .zpx), (0x8C, .abs)]
  | .TAX => [(0xAA, .imp)]
  | .TAY => [(0xA8, .imp)]
  | .TSX => [(0xBA, .imp)]
  | .TXA => [(0x8A, .imp)]
  | .TXS => [(0x9A, .imp)]
  | .TYA => [(0x98, .imp)]

/-- The opcode byte of an operation in a mode; `none` where the operation does not have the mode. -/
def opcodeOf (op : Op) (m : Mode) : Option Byte := (op.encodings.find? (fun e => e.2 == m)).map (fun e => e.1)

/-- The operand bytes in the order memory holds them, the low byte of a word first (rules R80, R84). -/
def Operand.bytes : Operand → List Byte
  | .imm b1 | .zp b1 | .zpx b1 | .zpy b1 | .rel b1 | .izx b1 | .izy b1 => [b1]
  | .abs w | .abx w | .aby w | .ind w => [lowByte w, highByte w]

/-- The bytes of the operand of an instruction that may have none. -/
def operandBytes : Option Operand → List Byte
  | none => []
  | some o => o.bytes

/-- The opcode byte of a well-formed instruction; an `INVALID` byte is its own. -/
def Instr.opcode (i : Instr) : Option Byte :=
  match i with
  | .invalid b => some b
  | i => i.op.bind (fun op => opcodeOf op i.mode)

/-- The bytes of a well-formed instruction in the standard matrix (rule R80): opcode first, then its operand bytes. -/
def encode (i : Instr) : List Byte :=
  match i.opcode with
  | some b => b :: operandBytes i.operand
  | none => []

end Sys2Proof
end

