-- ==== Sys2Proof/Machine/Defaults.lean ====
section
/-! DEFINITION. The default values of the parameters (00_scope.md rule R7), the value a memory cell that nothing has
written holds, and the check of a configuration. -/

namespace Sys2Proof

/-- Every parameter at its default (rule R7). `DirtyQualifies` has no default: "never" is the value the vectors of
95_test_vectors.md use (log entry 5). -/
def Config.standard : Config where
  layout := .flatMirrored
  invalidPolicy := .fatal
  invalidNopCost := 2
  nmiVector := 0xFFFA
  irqVector := 0xFFFE
  dirtyRanges := []
  tables := Tables.standard
  izySigned := true
  txsSetsNZ := true

/-- What 30_encoding.md rule R82 requires of one byte's entries: width 0 if and only if it is `INVALID`; else the width
of its mode's format, and a positive cost; and (40_step_and_addressing.md rule R121) an operation that needs an address
has a mode that gives one. -/
def entryOk (op : Option Op) (m : Mode) (width cost : Nat) : Bool :=
  match op with
  | none => width == 0
  | some op => width == m.width && decide (0 < cost) && (instrOf op (operandOf m 0 0)).isSome

/-- `entryOk` of every byte's entries, and as many of each table. -/
def entriesOk : List (Option Op) → List Mode → List Nat → List Nat → Bool
  | op :: ops, m :: modes, width :: widths, cost :: costs =>
    entryOk op m width cost && entriesOk ops modes widths costs
  | [], [], [], [] => true
  | _, _, _, _ => false

/-- What rule R82 requires of the entries of the byte `b`. -/
def Tables.entryOk (t : Tables) (b : Byte) : Bool :=
  Sys2Proof.entryOk (t.opAt b) (t.modeAt b) (t.widthAt b) (t.costAt b)

/-- What rule R82 requires of the tables: 256 entries each, every byte's as required. -/
def Tables.wf (t : Tables) : Bool := t.ops.length == 256 && entriesOk t.ops t.modes t.widths t.costs

/-- What a configuration must satisfy: sound tables, and `INVALID_NOP_COST` positive (rule R7). -/
def Config.wf (cfg : Config) : Bool := cfg.tables.wf && decide (0 < cfg.invalidNopCost)

/-- The largest cost any step can load (10_state.md rule R33: the values of `cycles` are 0 to this). -/
def Config.maxCost (cfg : Config) : Nat := cfg.tables.costs.foldl max cfg.invalidNopCost

/-- DESIGN CHOICE (log entry 2): the byte of a cell that nothing has written. The spec leaves `InitialMemory` open
(70_reset_and_hazards.md rule R303). -/
def unlistedByte : Byte := 0x00

end Sys2Proof
end

