-- ==== Sys2Proof/Machine/State.lean ====
section
/-! DEFINITION. The state of the machine as plain data (10_state.md rule R20), the reasons a step can stop, and the
state after reset (rule R39, 70_reset_and_hazards.md rule R300). -/

namespace Sys2Proof.Machine

/-- The six flags, each one bit (rule R26). -/
structure Flags where
  /-- Negative. -/
  n : Bool
  /-- Overflow. -/
  v : Bool
  /-- Decimal: storage only (rule R28). -/
  d : Bool
  /-- InterruptDisable. -/
  i : Bool
  /-- Zero. -/
  z : Bool
  /-- Carry. -/
  c : Bool
  deriving DecidableEq, Repr

/-- The storage cells: (key, byte) pairs with the keys strictly rising and no byte equal to `unlistedByte`, the
byte of an unlisted cell. The key of a cell is the lowest address that decodes to it (log entry 9). -/
abbrev Memory := List Host.Cell

/-- One transition: of the core (`tick`) or of the environment (60_exceptions.md rules R262, R263, R280 to R283;
70_reset_and_hazards.md rules R300, R305). -/
inductive Input where
  /-- `Tick` (40_step_and_addressing.md rule R100). -/
  | tick
  /-- `Reset` (70_reset_and_hazards.md rules R300, R304). -/
  | reset
  /-- `DeliverNMI` (60_exceptions.md rule R262). -/
  | deliverNMI
  /-- `DeliverIRQ` (rule R263). -/
  | deliverIRQ
  /-- `ClearHalt` (rule R280). -/
  | clearHalt
  /-- `ClearDirty` (rule R281). -/
  | clearDirty
  /-- `EnvRead` of the cell an address decodes to (rule R282). -/
  | envRead (addr : Addr)
  /-- `EnvWrite` to the cell an address decodes to (rule R282). -/
  | envWrite (addr : Addr) (v : Byte)
  /-- `Load` of an image (70_reset_and_hazards.md rule R305). -/
  | load (base : Addr) (bytes : List Byte)
  /-- `SetPC` at boot (rule R305). -/
  | setPC (pc : Addr)
  /-- `SetSP` at boot (rule R305). -/
  | setSP (sp : Byte)
  deriving DecidableEq, Repr

/-- The state: `ProcessorState` and the storage cells (rule R20), and two fields of the model's own, `cfg` and
`inputs` (log entries 1 and 3). -/
structure State where
  /-- The accumulator (rule R21). -/
  a : Byte
  /-- Index register X (rule R22). -/
  x : Byte
  /-- Index register Y (rule R22). -/
  y : Byte
  /-- The stack pointer (rule R23). -/
  sp : Byte
  /-- The program counter (rule R24). -/
  pc : Addr
  /-- The six flags (rule R26). -/
  flags : Flags
  /-- The remaining-cycle counter, a mathematical integer (rule R33). -/
  cycles : Int
  /-- The halt indicator (rule R35). -/
  halted : Bool
  /-- The renderer handshake (rule R34). -/
  dirty : Bool
  /-- The fault latch of a decode error (rule R36). -/
  decodeError : Bool
  /-- The storage cells (20_memory.md rule R52). -/
  mem : Memory
  /-- MODEL's own: the parameters of the run (00_scope.md rule R7). No step changes it. -/
  cfg : Config
  /-- MODEL's own: the transitions of the environment still to come, the next one first; where there is none, the
  next step is a tick. -/
  inputs : List Input
  deriving DecidableEq, Repr

/-- Faults a step stops with: none. Safe: every memory access succeeds (20_memory.md rule R51), and the one
synchronous exception, the decode error, is a next state with `halted` and `decodeError` set (60_exceptions.md rule
R260; log entry 8). -/
inductive Fault where
  deriving DecidableEq, Repr

/-- Refusals. -/
inductive Refusal where
  /-- Raised by an arm of `exec` whose instruction has no meaning in the model. No arm raises it: every instruction
  has its meaning. Safe. -/
  | notModelled (mnemonic : String)
  deriving DecidableEq, Repr

/-- What a step or a meaning answers. -/
abbrev Result := Host.Outcome State Fault Refusal

/-- All six flags 0 (rules R26, R39). -/
def Flags.reset : Flags := ⟨false, false, false, false, false, false⟩

/-- The machine right after reset (rule R39), with every parameter at its default (log entry 1), no cell written
(log entry 2) and no transition of the environment to come (log entry 3). -/
def State.reset : State where
  a := 0x00
  x := 0x00
  y := 0x00
  sp := 0xFF
  pc := 0x0000
  flags := Flags.reset
  cycles := 0
  halted := false
  dirty := false
  decodeError := false
  mem := []
  cfg := Config.standard
  inputs := []

end Sys2Proof.Machine
end

