-- ==== Sys2Proof/Machine/Flags.lean ====
section
/-! DEFINITION. Every flag computation of the spec: `SetNZ`, `PackP`, `UnpackP` (10_state.md rules R29, R31, R32), the
carry and overflow of ADC and SBC (41_arithmetic.md rules R130, R131), the flags of a compare and of BIT, and the
results and carries of the shifts. -/

namespace Sys2Proof.Machine

/-- `v[i]` (00_scope.md rule R8). -/
def bitOf (v : Byte) (i : Nat) : Bool := v.getLsbD i

/-- `SetNZ(v)` on the flags: `N <- v[7]; Z <- (v = 0)` (rule R29). -/
def Flags.setNZ (f : Flags) (v : Byte) : Flags := { f with n := bitOf v 7, z := v == 0 }

/-- `PackP(b5, b4)`: the status byte (rule R31). -/
def Flags.pack (f : Flags) (b5 b4 : Bool) : Byte :=
  BitVec.ofNat 8 (f.n.toNat * 128 + f.v.toNat * 64 + b5.toNat * 32 + b4.toNat * 16 + f.d.toNat * 8 + f.i.toNat * 4 +
    f.z.toNat * 2 + f.c.toNat)

/-- `UnpackP(v)`: the six flags of a status byte; bits 5 and 4 are discarded (rule R32). -/
def Flags.unpack (v : Byte) : Flags where
  n := bitOf v 7
  v := bitOf v 6
  d := bitOf v 3
  i := bitOf v 2
  z := bitOf v 1
  c := bitOf v 0

/-! ### Addition and subtraction (41_arithmetic.md rules R130, R131) -/

/-- `sum <- a0 + M + C` over the unbounded integers, 0 to 511. -/
def carrySum (a m : Byte) (c : Bool) : Nat := a.toNat + m.toNat + c.toNat

/-- `sum mod 256`. -/
def sumByte (sum : Nat) : Byte := BitVec.ofNat 8 sum

/-- The carry of a sum: `C <- (sum > 255)`. -/
def sumCarry (sum : Nat) : Bool := decide (sum > 255)

/-- `V` of ADC: `(a0[7] = M[7]) and (r[7] != a0[7])`. -/
def overflowAdd (a m r : Byte) : Bool := (bitOf a 7 == bitOf m 7) && (bitOf r 7 != bitOf a 7)

/-- `V` of SBC: `(a0[7] != M[7]) and (r[7] != a0[7])`. -/
def overflowSub (a m r : Byte) : Bool := (bitOf a 7 != bitOf m 7) && (bitOf r 7 != bitOf a 7)

/-- `m1 <- M xor 0xFF`: the one's complement SBC adds. -/
def onesComplement (m : Byte) : Byte := m ^^^ 0xFF

/-! ### Compare and BIT -/

/-- The flags of a compare of register `r` with operand `m` (44_compare.md rules R180 to R182): `C <- (r >= m)`,
unsigned; `Z <- (r = m)`; `N` is bit 7 of the 8-bit difference. -/
def Flags.compare (f : Flags) (r m : Byte) : Flags :=
  { f with c := decide (m.toNat ≤ r.toNat), z := r == m, n := bitOf (r - m) 7 }

/-- The flags of BIT (42_logic_load_store_transfer.md rule R143): `Z <- ((A & M) = 0); N <- M[7]; V <- M[6]`. -/
def Flags.bitTest (f : Flags) (a m : Byte) : Flags := { f with z := (a &&& m) == 0, n := bitOf m 7, v := bitOf m 6 }

/-! ### Shifts and rotates (43_shift_rotate.md rules R170 to R173) -/

/-- ASL: `(v * 2) mod 256`. -/
def aslByte (v : Byte) : Byte := BitVec.ofNat 8 (v.toNat * 2)

/-- LSR: `v[7:1]`. -/
def lsrByte (v : Byte) : Byte := BitVec.ofNat 8 (v.toNat / 2)

/-- ROL: `((v * 2) mod 256) + c0`. -/
def rolByte (v : Byte) (c0 : Bool) : Byte := BitVec.ofNat 8 (v.toNat * 2 % 256 + c0.toNat)

/-- ROR: `v[7:1] + c0 * 128`. -/
def rorByte (v : Byte) (c0 : Bool) : Byte := BitVec.ofNat 8 (v.toNat / 2 + c0.toNat * 128)

end Sys2Proof.Machine
end

