-- ==== Sys2Proof/Machine/Ops.lean ====
section
/-! DEFINITION. The named operations over registers and memory: the register writes, the memory port and the two
address decodes (20_memory.md), the stack primitives (40_step_and_addressing.md rules R117 to R120), taking the
decode error and an interrupt (60_exceptions.md rules R260, R264), returning from one, and fetching. -/

namespace Sys2Proof.Machine

/-! ### Register writes (00_scope.md rule R9) -/

/-- `A <- v`. -/
def State.setA (s : State) (v : Byte) : State := { s with a := v }
/-- `X <- v`. -/
def State.setX (s : State) (v : Byte) : State := { s with x := v }
/-- `Y <- v`. -/
def State.setY (s : State) (v : Byte) : State := { s with y := v }
/-- `SP <- v`. -/
def State.setSp (s : State) (v : Byte) : State := { s with sp := v }
/-- `pc <- v`. -/
def State.setPc (s : State) (v : Addr) : State := { s with pc := v }
/-- The flags become `f`. -/
def State.setFlags (s : State) (f : Flags) : State := { s with flags := f }
/-- `cycles <- n`. -/
def State.setCycles (s : State) (n : Int) : State := { s with cycles := n }
/-- `halted <- b`. -/
def State.setHalted (s : State) (b : Bool) : State := { s with halted := b }
/-- `dirty <- b`. -/
def State.setDirty (s : State) (b : Bool) : State := { s with dirty := b }
/-- `decode_error <- b`. -/
def State.setDecodeError (s : State) (b : Bool) : State := { s with decodeError := b }
/-- The storage cells become `m`. -/
def State.setMem (s : State) (m : Memory) : State := { s with mem := m }
/-- The transitions to come become `l`. -/
def State.setInputs (s : State) (l : List Input) : State := { s with inputs := l }

/-- `SetNZ(v)` (10_state.md rule R29). -/
def State.setNZ (s : State) (v : Byte) : State := s.setFlags (s.flags.setNZ v)

/-! ### Memory cells -/

/-- The byte of the cell with key `k`. -/
def Memory.lookup : Memory → Nat → Byte
  | [], _ => unlistedByte
  | (j, v) :: rest, k => if j = k then v else Memory.lookup rest k

/-- Put byte `v` into the cell with key `k`, keeping the canonical form. -/
def Memory.store : Memory → Nat → Byte → Memory
  | [], k, v => if v = unlistedByte then [] else [(k, v)]
  | (j, w) :: rest, k, v =>
    if j < k then (j, w) :: Memory.store rest k v
    else
      let tail := if j = k then rest else (j, w) :: rest
      if v = unlistedByte then tail else (k, v) :: tail

/-- The canonical form: keys strictly rising, no listed byte equal to `unlistedByte`. -/
abbrev Memory.wf (m : Memory) : Prop :=
  m.Pairwise (fun p q => p.1 < q.1) ∧ ∀ p ∈ m, p.2 ≠ unlistedByte

/-! ### Address decode (20_memory.md rules R51, R55 to R58) -/

/-- The region of a storage cell (rules R56 to R58). Under `FlatMirrored` every cell is `ram`. -/
inductive Region where
  | ram | ppu | apu | test | cart
  deriving DecidableEq, Repr

/-- A storage cell: its region and its number in it. -/
structure StorageCell where
  region : Region
  index : Nat
  deriving DecidableEq, Repr

/-- `Decode`, total over the 65,536 addresses: `FlatMirrored` (rule R56) and `SegmentedMap` (rules R57, R58). -/
def decodeAddr (layout : Layout) (addr : Addr) : StorageCell :=
  let n := addr.toNat
  match layout with
  | .flatMirrored => ⟨.ram, n % 2048⟩
  | .segmentedMap =>
    if n ≤ 0x1FFF then ⟨.ram, n % 2048⟩
    else if n ≤ 0x3FFF then ⟨.ppu, (n - 0x2000) % 8⟩
    else if n ≤ 0x4017 then ⟨.apu, n - 0x4000⟩
    else if n ≤ 0x401F then ⟨.test, n - 0x4018⟩
    else ⟨.cart, n - 0x4020⟩

/-- The lowest address of a region. -/
def Region.base : Region → Nat
  | .ram => 0x0000
  | .ppu => 0x2000
  | .apu => 0x4000
  | .test => 0x4018
  | .cart => 0x4020

/-- How many cells a region has (rules R56 to R58). -/
def Region.size : Region → Nat
  | .ram => 2048
  | .ppu => 8
  | .apu => 24
  | .test => 8
  | .cart => 49120

/-- The key a cell is listed under: the lowest address that decodes to it (log entry 9). -/
def StorageCell.key (c : StorageCell) : Nat := c.region.base + c.index

/-- The key of the cell an address decodes to. -/
def cellKey (layout : Layout) (addr : Addr) : Nat := (decodeAddr layout addr).key

/-- Whether `k` is the key of a cell of the layout. -/
def layoutHasKey (layout : Layout) (k : Nat) : Bool :=
  match layout with
  | .flatMirrored => decide (k < 0x0800)
  | .segmentedMap => decide (k < 0x0800) || (decide (0x2000 ≤ k) && decide (k < 0x2008)) ||
      (decide (0x4000 ≤ k) && decide (k < 0x10000))

/-- `DirtyQualifies(addr)` (10_state.md rule R34), on the 16-bit address before mirroring. -/
def dirtyQualifies (cfg : Config) (addr : Addr) : Bool :=
  cfg.dirtyRanges.any (fun r => decide (r.1.toNat ≤ addr.toNat) && decide (addr.toNat ≤ r.2.toNat))

/-! ### The memory port (20_memory.md rules R50 to R54) -/

/-- `MemRead(addr, 1)` (rule R52). -/
def memRead (s : State) (addr : Addr) : Byte := Memory.lookup s.mem (cellKey s.cfg.layout addr)

/-- `MemRead(addr, 2)`, little-endian, the second address `addr + 1` modulo 65536 (rule R53). -/
def memRead16 (s : State) (addr : Addr) : Addr := word (memRead s (addr + 1)) (memRead s addr)

/-- Put a byte into the cell `addr` decodes to, with no dirty rule: what the environment's `EnvWrite` does
(60_exceptions.md rule R282). -/
def pokeByte (s : State) (addr : Addr) (v : Byte) : State :=
  s.setMem (Memory.store s.mem (cellKey s.cfg.layout addr) v)

/-- `MemWrite(addr, 1, v)`: store the byte, then the dirty rule (rule R52, 10_state.md rule R34). -/
def memWrite (s : State) (addr : Addr) (v : Byte) : State :=
  let s := pokeByte s addr v
  s.setDirty (s.dirty || dirtyQualifies s.cfg addr)

/-- `MemWrite(addr, 2, v)`: low byte, then high byte (rule R54). No instruction uses it. -/
def memWrite16 (s : State) (addr : Addr) (v : Addr) : State :=
  memWrite (memWrite s addr (lowByte v)) (addr + 1) (highByte v)

/-! ### The stack (40_step_and_addressing.md rules R117 to R120) -/

/-- The stack cell of a stack pointer: `0x0100 + SP` (10_state.md rule R23). -/
def stackAddr (sp : Byte) : Addr := 0x0100 + sp.setWidth 16

/-- `Push8(v)`: write at the old `SP`, then `SP <- (SP − 1) mod 256` (rule R117). -/
def push8 (s : State) (v : Byte) : State :=
  let s := memWrite s (stackAddr s.sp) v
  s.setSp (s.sp - 1)

/-- `Push16(w)`: the high byte first (rule R118). -/
def push16 (s : State) (w : Addr) : State := push8 (push8 s (highByte w)) (lowByte w)

/-- `Pull8()`: `SP <- (SP + 1) mod 256`, then the byte at the new `SP` (rule R119). -/
def pull8 (s : State) : Byte × State :=
  let s := s.setSp (s.sp + 1)
  (memRead s (stackAddr s.sp), s)

/-- `Pull16()`: the low byte first (rule R120). -/
def pull16 (s : State) : Addr × State :=
  let (lo, s) := pull8 s
  let (hi, s) := pull8 s
  (word hi lo, s)

/-! ### Taking an exception and returning from one -/

/-- `raise DecodeError(op)`: `halted <- 1; decode_error <- 1`, and nothing else changes (60_exceptions.md rule R260). -/
def raiseDecodeError (s : State) : State := (s.setHalted true).setDecodeError true

/-- `InterruptEntry(vector)`: push `PC`, push `PackP(1, 0)`, set `I`, load `PC` from the vector word, read after the
pushes (60_exceptions.md rules R264, R265). -/
def interruptEntry (s : State) (vector : Addr) : State :=
  let s := push16 s s.pc
  let s := push8 s (s.flags.pack true false)
  let s := s.setFlags { s.flags with i := true }
  s.setPc (memRead16 s vector)

/-- The return from an interrupt: the status byte first, then `PC` with no adjustment (48_control_transfer.md rule
R243). -/
def returnFromInterrupt (s : State) : State :=
  let (p, s) := pull8 s
  let s := s.setFlags (Flags.unpack p)
  let (w, s) := pull16 s
  s.setPc w

/-! ### What every instruction step shares (40_step_and_addressing.md rule R102) -/

/-- The instruction at `PC`: its bytes read at `PC`, `PC + 1`, `PC + 2` modulo 65536 and decoded. An instruction
shorter than three bytes ignores the rest, and a read has no effect (20_memory.md rule R62). -/
def fetchInstr (s : State) : Instr :=
  decodeBytes s.cfg.tables (memRead s s.pc) (memRead s (s.pc + 1)) (memRead s (s.pc + 2))

/-- `width = WIDTH[op]`, `op` the opcode byte at `PC`. -/
def fetchWidth (s : State) : Nat := s.cfg.tables.widthAt (memRead s s.pc)

/-- `cost = CYCLES[op]`, `op` the opcode byte at `PC`. -/
def fetchCost (s : State) : Nat := s.cfg.tables.costAt (memRead s s.pc)

/-- `PC <- (pc0 + width) mod 65536; cycles <- cost`, what the step of a valid instruction does before it executes. The
width and the cost are those of the opcode byte at `PC` (log entry 10). -/
def beginInstr (s : State) : State := (s.setPc (s.pc + BitVec.ofNat 16 (fetchWidth s))).setCycles (fetchCost s)

end Sys2Proof.Machine
end

