-- ==== Sys2Proof/Machine/Operands.lean ====
section
/-! DEFINITION. The twelve addressing modes: the effective address each resolves to (40_step_and_addressing.md rules
R106 to R116), the operand an operation reads (rule R121), and the target of a shift (rule R103). -/

namespace Sys2Proof.Machine

/-- `zext_16(b)` (00_scope.md rule R8). -/
def zext16 (b : Byte) : Addr := b.setWidth 16

/-- `sext_16(b)` (rule R8). -/
def sext16 (b : Byte) : Addr := b.signExtend 16

/-- The index Y in the indirect-indexed sum: signed, unless `IZY_SIGNED` is false (rule R116). -/
def izyIndex (s : State) : Addr := if s.cfg.izySigned then sext16 s.y else zext16 s.y

/-- `Resolve(mode, pc0)` of a mode with an operand, with `pc0` the program counter of `s`, the state before the
program counter advances (rules R106, R108 to R116). -/
def resolve (o : Operand) (s : State) : Addr :=
  match o with
  | .imm _ => s.pc + 1
  | .zp b1 => zext16 b1
  | .zpx b1 => zext16 (b1 + s.x)
  | .zpy b1 => zext16 (b1 + s.y)
  | .rel b1 => s.pc + 2 + sext16 b1
  | .abs w => w
  | .abx w => w + sext16 s.x
  | .aby w => w + sext16 s.y
  | .ind w => memRead16 s w
  | .izx b1 => memRead16 s (zext16 (b1 + s.x))
  | .izy b1 => memRead16 s (zext16 b1) + izyIndex s

/-- `Resolve` of an operand that may be absent: mode `imp` resolves to no address (rule R107). -/
def resolveOption (o : Option Operand) (s : State) : Option Addr := o.map (fun o => resolve o s)

/-- `M = MemRead(ea, 1)`. The operand byte of an immediate is the instruction's own `b1` (rule R110; 30_encoding.md
rule R84; log entry 7). -/
def operandByte (o : Operand) (s : State) : Byte :=
  match o with
  | .imm b1 => b1
  | o => memRead s (resolve o s)

/-- The operand `v` of a shift: the accumulator where `ea` is `none`, else the byte at `ea` (43_shift_rotate.md). -/
def readTarget (ea : Option Addr) (s : State) : Byte :=
  match ea with
  | none => s.a
  | some addr => memRead s addr

/-- `Writeback(r)` of a shift (43_shift_rotate.md). -/
def writeTarget (ea : Option Addr) (s : State) (r : Byte) : State :=
  match ea with
  | none => s.setA r
  | some addr => memWrite s addr r

end Sys2Proof.Machine
end

