-- ==== Sys2Proof/Machine/Arithmetic.lean ====
section
/-! DEFINITION. ADC and SBC (41_arithmetic.md rules R130, R131). Binary whatever `D` holds (10_state.md rule R28). -/

namespace Sys2Proof.Machine

/-- `A <- r; C, V` as given, then `SetNZ(r)`: the writes ADC and SBC share. -/
def writeSum (s : State) (r : Byte) (carry overflow : Bool) : State :=
  ((s.setA r).setFlags { s.flags with c := carry, v := overflow }).setNZ r

/-- ADC (rule R130). -/
def execAdc (o : Operand) (s : State) : Result :=
  let m := operandByte o s
  let sum := carrySum s.a m s.flags.c
  let r := sumByte sum
  .next (writeSum (beginInstr s) r (sumCarry sum) (overflowAdd s.a m r))

/-- SBC (rule R131). -/
def execSbc (o : Operand) (s : State) : Result :=
  let m := operandByte o s
  let sum := carrySum s.a (onesComplement m) s.flags.c
  let r := sumByte sum
  .next (writeSum (beginInstr s) r (sumCarry sum) (overflowSub s.a m r))

end Sys2Proof.Machine
end

