-- ==== Sys2Proof/Machine/Branch.lean ====
section
/-! DEFINITION. The eight conditional branches (46_branch.md rules R200 to R208). -/

namespace Sys2Proof.Machine

/-- `if taken then pc <- ea`, `PC` otherwise at its advanced value. -/
def branchIf (s : State) (taken : Bool) (ea : Addr) : State := if taken then s.setPc ea else s

/-- BCC (rule R200). -/
def execBcc (o : Operand) (s : State) : Result :=
  .next (branchIf (beginInstr s) (!s.flags.c) (resolve o s))

/-- BCS (rule R201). -/
def execBcs (o : Operand) (s : State) : Result :=
  .next (branchIf (beginInstr s) s.flags.c (resolve o s))

/-- BEQ (rule R202). -/
def execBeq (o : Operand) (s : State) : Result :=
  .next (branchIf (beginInstr s) s.flags.z (resolve o s))

/-- BNE (rule R203). -/
def execBne (o : Operand) (s : State) : Result :=
  .next (branchIf (beginInstr s) (!s.flags.z) (resolve o s))

/-- BMI (rule R204). -/
def execBmi (o : Operand) (s : State) : Result :=
  .next (branchIf (beginInstr s) s.flags.n (resolve o s))

/-- BPL (rule R205). -/
def execBpl (o : Operand) (s : State) : Result :=
  .next (branchIf (beginInstr s) (!s.flags.n) (resolve o s))

/-- BVC (rule R206). -/
def execBvc (o : Operand) (s : State) : Result :=
  .next (branchIf (beginInstr s) (!s.flags.v) (resolve o s))

/-- BVS (rule R207). -/
def execBvs (o : Operand) (s : State) : Result :=
  .next (branchIf (beginInstr s) s.flags.v (resolve o s))

end Sys2Proof.Machine
end

