-- ==== Sys2Proof/Machine/Compare.lean ====
section
/-! DEFINITION. CMP, CPX, CPY (44_compare.md rules R180 to R182): flags only. -/

namespace Sys2Proof.Machine

/-- CMP (rule R180). -/
def execCmp (o : Operand) (s : State) : Result :=
  .next ((beginInstr s).setFlags (s.flags.compare s.a (operandByte o s)))

/-- CPX (rule R181). -/
def execCpx (o : Operand) (s : State) : Result :=
  .next ((beginInstr s).setFlags (s.flags.compare s.x (operandByte o s)))

/-- CPY (rule R182). -/
def execCpy (o : Operand) (s : State) : Result :=
  .next ((beginInstr s).setFlags (s.flags.compare s.y (operandByte o s)))

end Sys2Proof.Machine
end

