-- ==== Sys2Proof/Machine/Control.lean ====
section
/-! DEFINITION. JMP, JSR, RTS, RTI (48_control_transfer.md rules R240 to R243). -/

namespace Sys2Proof.Machine

/-- JMP (rule R240). -/
def execJmp (o : Operand) (s : State) : Result := .next ((beginInstr s).setPc (resolve o s))

/-- JSR (rule R241): `PC` has advanced, so the value pushed is the address of the instruction's last byte; the
target was resolved before the push (20_memory.md rule R68). -/
def execJsr (o : Operand) (s : State) : Result :=
  let t := beginInstr s
  .next ((push16 t (t.pc - 1)).setPc (resolve o s))

/-- RTS (rule R242). -/
def execRts (s : State) : Result :=
  let (v, t) := pull16 (beginInstr s)
  .next (t.setPc (v + 1))

/-- RTI (rule R243). -/
def execRti (s : State) : Result := .next (returnFromInterrupt (beginInstr s))

end Sys2Proof.Machine
end

