-- ==== Sys2Proof/Machine/Logic.lean ====
section
/-! DEFINITION. AND, ORA, EOR and BIT (42_logic_load_store_transfer.md rules R140 to R143). -/

namespace Sys2Proof.Machine

/-- `A <- r; SetNZ(A)`: what AND, ORA, EOR, LDA, TXA, TYA and PLA end with. -/
def writeA (s : State) (r : Byte) : State := (s.setA r).setNZ r

/-- AND (rule R140). -/
def execAnd (o : Operand) (s : State) : Result :=
  .next (writeA (beginInstr s) (s.a &&& operandByte o s))

/-- ORA (rule R141). -/
def execOra (o : Operand) (s : State) : Result :=
  .next (writeA (beginInstr s) (s.a ||| operandByte o s))

/-- EOR (rule R142). -/
def execEor (o : Operand) (s : State) : Result :=
  .next (writeA (beginInstr s) (s.a ^^^ operandByte o s))

/-- BIT (rule R143): flags only. -/
def execBit (o : Operand) (s : State) : Result :=
  .next ((beginInstr s).setFlags (s.flags.bitTest s.a (operandByte o s)))

end Sys2Proof.Machine
end

