-- ==== Sys2Proof/Machine/LoadStore.lean ====
section
/-! DEFINITION. Loads and stores (42_logic_load_store_transfer.md rules R144 to R149). -/

namespace Sys2Proof.Machine

/-- `X <- r; SetNZ(X)`. -/
def writeX (s : State) (r : Byte) : State := (s.setX r).setNZ r

/-- `Y <- r; SetNZ(Y)`. -/
def writeY (s : State) (r : Byte) : State := (s.setY r).setNZ r

/-- LDA (rule R144). -/
def execLda (o : Operand) (s : State) : Result := .next (writeA (beginInstr s) (operandByte o s))

/-- LDX (rule R145): the address is resolved with the old index registers (rule R156). -/
def execLdx (o : Operand) (s : State) : Result := .next (writeX (beginInstr s) (operandByte o s))

/-- LDY (rule R146). -/
def execLdy (o : Operand) (s : State) : Result := .next (writeY (beginInstr s) (operandByte o s))

/-- STA (rule R147): no flag changes. -/
def execSta (o : Operand) (s : State) : Result := .next (memWrite (beginInstr s) (resolve o s) s.a)

/-- STX (rule R148). -/
def execStx (o : Operand) (s : State) : Result := .next (memWrite (beginInstr s) (resolve o s) s.x)

/-- STY (rule R149). -/
def execSty (o : Operand) (s : State) : Result := .next (memWrite (beginInstr s) (resolve o s) s.y)

end Sys2Proof.Machine
end

