-- ==== Sys2Proof/Machine/IncDec.lean ====
section
/-! DEFINITION. Increment and decrement (45_incdec.md rules R190 to R195): modulo 256, `C` and `V` untouched. -/

namespace Sys2Proof.Machine

/-- `MemWrite(ea, 1, r); SetNZ(r)`: what INC and DEC end with. -/
def writeByteNZ (s : State) (ea : Addr) (r : Byte) : State := (memWrite s ea r).setNZ r

/-- INC (rule R190). -/
def execInc (o : Operand) (s : State) : Result :=
  let ea := resolve o s
  .next (writeByteNZ (beginInstr s) ea (memRead s ea + 1))

/-- DEC (rule R191). -/
def execDec (o : Operand) (s : State) : Result :=
  let ea := resolve o s
  .next (writeByteNZ (beginInstr s) ea (memRead s ea - 1))

/-- INX (rule R192). -/
def execInx (s : State) : Result := .next (writeX (beginInstr s) (s.x + 1))

/-- INY (rule R193). -/
def execIny (s : State) : Result := .next (writeY (beginInstr s) (s.y + 1))

/-- DEX (rule R194). -/
def execDex (s : State) : Result := .next (writeX (beginInstr s) (s.x - 1))

/-- DEY (rule R195). -/
def execDey (s : State) : Result := .next (writeY (beginInstr s) (s.y - 1))

end Sys2Proof.Machine
end

