-- ==== Sys2Proof/Machine/Shift.lean ====
section
/-! DEFINITION. Shifts and rotates, accumulator and memory forms (43_shift_rotate.md rules R170 to R173). -/

namespace Sys2Proof.Machine

/-- `C <- carry; Writeback(r); SetNZ(r)`: what the four end with. -/
def writeShift (ea : Option Addr) (s : State) (r : Byte) (carry : Bool) : State :=
  (writeTarget ea (s.setFlags { s.flags with c := carry }) r).setNZ r

/-- ASL (rule R170). -/
def execAsl (o : Option Operand) (s : State) : Result :=
  let ea := resolveOption o s
  let v := readTarget ea s
  .next (writeShift ea (beginInstr s) (aslByte v) (bitOf v 7))

/-- LSR (rule R171). -/
def execLsr (o : Option Operand) (s : State) : Result :=
  let ea := resolveOption o s
  let v := readTarget ea s
  .next (writeShift ea (beginInstr s) (lsrByte v) (bitOf v 0))

/-- ROL (rule R172). -/
def execRol (o : Option Operand) (s : State) : Result :=
  let ea := resolveOption o s
  let v := readTarget ea s
  .next (writeShift ea (beginInstr s) (rolByte v s.flags.c) (bitOf v 7))

/-- ROR (rule R173). -/
def execRor (o : Option Operand) (s : State) : Result :=
  let ea := resolveOption o s
  let v := readTarget ea s
  .next (writeShift ea (beginInstr s) (rorByte v s.flags.c) (bitOf v 0))

end Sys2Proof.Machine
end

