-- ==== Sys2Proof/Machine/Stack.lean ====
section
/-! DEFINITION. Stack operations, status push and pull, flag set and clear (47_stack_status_flags.md rules R220 to
R230). -/

namespace Sys2Proof.Machine

/-- PHA (rule R220). -/
def execPha (s : State) : Result := .next (push8 (beginInstr s) s.a)

/-- PLA (rule R221). -/
def execPla (s : State) : Result :=
  let (v, t) := pull8 (beginInstr s)
  .next (writeA t v)

/-- PHP (rule R222): bits 5 and 4 of the pushed byte are 1. -/
def execPhp (s : State) : Result := .next (push8 (beginInstr s) (s.flags.pack true true))

/-- PLP (rule R223): all six flags, bits 5 and 4 discarded. -/
def execPlp (s : State) : Result :=
  let (v, t) := pull8 (beginInstr s)
  .next (t.setFlags (Flags.unpack v))

/-- CLC (rule R224). -/
def execClc (s : State) : Result := .next ((beginInstr s).setFlags { s.flags with c := false })

/-- SEC (rule R225). -/
def execSec (s : State) : Result := .next ((beginInstr s).setFlags { s.flags with c := true })

/-- CLD (rule R226). -/
def execCld (s : State) : Result := .next ((beginInstr s).setFlags { s.flags with d := false })

/-- SED (rule R227). -/
def execSed (s : State) : Result := .next ((beginInstr s).setFlags { s.flags with d := true })

/-- CLI (rule R228). -/
def execCli (s : State) : Result := .next ((beginInstr s).setFlags { s.flags with i := false })

/-- SEI (rule R229). -/
def execSei (s : State) : Result := .next ((beginInstr s).setFlags { s.flags with i := true })

/-- CLV (rule R230). -/
def execClv (s : State) : Result := .next ((beginInstr s).setFlags { s.flags with v := false })

end Sys2Proof.Machine
end

