-- ==== Sys2Proof/Machine/System.lean ====
section
/-! DEFINITION. BRK, NOP and the `INVALID` opcode bytes (49_system.md rules R250 to R252). -/

namespace Sys2Proof.Machine

/-- BRK (rule R250): halts, and nothing else; no interrupt sequence. -/
def execBrk (s : State) : Result := .next ((beginInstr s).setHalted true)

/-- NOP (rule R251). -/
def execNop (s : State) : Result := .next (beginInstr s)

/-- `InvalidOpcode(op)` (rule R252): the decode error under `fatal`, with `PC` at the byte and `cycles` unchanged; a
one-byte skip under `nop`. The byte itself plays no part in the effect. -/
def execInvalid (_op : Byte) (s : State) : Result :=
  match s.cfg.invalidPolicy with
  | .fatal => .next (raiseDecodeError s)
  | .nop => .next ((s.setPc (s.pc + 1)).setCycles s.cfg.invalidNopCost)

end Sys2Proof.Machine
end

