-- ==== Sys2Proof/Machine/Transfer.lean ====
section
/-! DEFINITION. Register transfers (42_logic_load_store_transfer.md rules R150 to R155). -/

namespace Sys2Proof.Machine

/-- TAX (rule R150). -/
def execTax (s : State) : Result := .next (writeX (beginInstr s) s.a)

/-- TAY (rule R151). -/
def execTay (s : State) : Result := .next (writeY (beginInstr s) s.a)

/-- TXA (rule R152). -/
def execTxa (s : State) : Result := .next (writeA (beginInstr s) s.x)

/-- TYA (rule R153). -/
def execTya (s : State) : Result := .next (writeA (beginInstr s) s.y)

/-- TSX (rule R154). -/
def execTsx (s : State) : Result := .next (writeX (beginInstr s) s.sp)

/-- TXS (rule R155): N and Z are refreshed, unless the optional parameter `TXS_SETS_NZ` is false (00_scope.md rule
R7). -/
def execTxs (s : State) : Result :=
  let t := (beginInstr s).setSp s.x
  .next (if s.cfg.txsSetsNZ then t.setNZ s.x else t)

end Sys2Proof.Machine
end

