-- ==== Sys2Proof/Machine/Environment.lean ====
section
/-! DEFINITION. The transitions of the environment (60_exceptions.md rules R262, R263, R280 to R283;
70_reset_and_hazards.md rules R300, R305), each one atomic transition between two ticks (20_memory.md rule R63). -/

namespace Sys2Proof.Machine

/-- `Reset`: every field of `ProcessorState`; memory is not touched and no vector is read (rules R300, R301, R304). -/
def doReset (s : State) : State :=
  { s with
    a := 0x00, x := 0x00, y := 0x00, pc := 0x0000, sp := 0xFF, flags := Flags.reset, cycles := 0,
    halted := false, dirty := false, decodeError := false }

/-- `DeliverNMI`: always taken (rules R262, R266). -/
def deliverNMI (s : State) : State := interruptEntry s s.cfg.nmiVector

/-- `DeliverIRQ`: taken when `I = 0`, else dropped (rules R263, R267). -/
def deliverIRQ (s : State) : State := if s.flags.i then s else interruptEntry s s.cfg.irqVector

/-- `ClearHalt` (rule R280). -/
def clearHalt (s : State) : State := s.setHalted false

/-- `ClearDirty` (rule R281). -/
def clearDirty (s : State) : State := s.setDirty false

/-- `EnvWrite`: a byte into the cell an address decodes to; `dirty` is not set (rule R282). Every cell is the cell of
some address. -/
def envWrite (s : State) (addr : Addr) (v : Byte) : State := pokeByte s addr v

/-- `EnvRead`: the byte the environment gets (rule R282). Reading changes no state. -/
def envRead (s : State) (addr : Addr) : Byte := memRead s addr

/-- `Load(base, bytes)`: byte i to the cell of `base + i` modulo 65536, verbatim (rule R305). -/
def envLoad (s : State) (base : Addr) : List Byte → State
  | [] => s
  | v :: rest => envLoad (envWrite s base v) (base + 1) rest

/-- `SetPC` (rule R305). -/
def envSetPC (s : State) (pc : Addr) : State := s.setPc pc

/-- `SetSP` (rule R305). -/
def envSetSP (s : State) (sp : Byte) : State := s.setSp sp

end Sys2Proof.Machine
end

