-- ==== Sys2Proof/Machine/Tick.lean ====
section
/-! DEFINITION. The tick (40_step_and_addressing.md rules R100 to R102), one transition of the core or of the
environment, and the load of an instruction from outside. -/

namespace Sys2Proof.Machine

/-- The instruction step (rule R102): fetch and decode at `PC`, then execute. -/
def instructionStep (s : State) : Result := exec (fetchInstr s) s

/-- `Tick` (rule R100): count down; else, halted, nothing; else one instruction step. -/
def tick (s : State) : Result :=
  if s.cycles > 0 then .next (s.setCycles (s.cycles - 1))
  else if s.halted then .next s
  else instructionStep s

/-- `tick`, and then up to `fuel` more while the tick before it only counted down. -/
def instrStepFuel : Nat → State → Result
  | 0, s => tick s
  | fuel + 1, s => if s.cycles > 0 then instrStepFuel fuel (s.setCycles (s.cycles - 1)) else tick s

/-- `InstrStep` (rule R101): run `Tick` until one instruction step has been performed. A halted core performs none:
it counts down and idles. -/
def instrStep (s : State) : Result := instrStepFuel s.cycles.toNat s

/-- One transition (60_exceptions.md rule R283). -/
def perform (input : Input) (s : State) : Result :=
  match input with
  | .tick => tick s
  | .reset => .next (doReset s)
  | .deliverNMI => .next (deliverNMI s)
  | .deliverIRQ => .next (deliverIRQ s)
  | .clearHalt => .next (clearHalt s)
  | .clearDirty => .next (clearDirty s)
  | .envRead _ => .next s
  | .envWrite addr v => .next (envWrite s addr v)
  | .load base bytes => .next (envLoad s base bytes)
  | .setPC pc => .next (envSetPC s pc)
  | .setSP sp => .next (envSetSP s sp)

/-- The next transition: the first of `inputs`, which is used up, or a tick where there is none (log entry 3). -/
def nextTransition (s : State) : Result :=
  match s.inputs with
  | [] => tick s
  | input :: rest => perform input (s.setInputs rest)

/-- The bytes of a table word where the next instruction is fetched, and the next step a fetch: no transition of the
environment to come, no count-down, not halted (log entry 11). -/
def placeTableWord (s : State) (nbits w : Nat) : State :=
  let s := envLoad s s.pc [tableByte nbits w 0, tableByte nbits w 1, tableByte nbits w 2]
  ((s.setCycles 0).setHalted false).setInputs []

end Sys2Proof.Machine
end

