-- ==== Sys2Proof/Machine/Step.lean ====
section
/-! DEFINITION. The step of the machine: one atomic transition (20_memory.md rule R63). -/

namespace Sys2Proof.Machine

/-- One transition: a tick of the core, or the next transition of the environment that `inputs` lists. -/
def step (s : State) : Host.Outcome State Fault Refusal := nextTransition s

/-- `s` with the instruction of a table word where `step` fetches its next instruction, and `step` about to fetch. -/
def State.withFetchWord (s : State) (nbits w : Nat) : State := placeTableWord s nbits w

end Sys2Proof.Machine
end

