-- ==== Sys2Proof/Safety.lean ====
section
/-! DEFINITION. The terms claims are stated in: the invariant of the machine, how a run ends, what it is for an
instruction to complete with given writes and nothing else changed, and what it is for an instruction to have given
opcode bytes. -/

namespace Sys2Proof.Machine

/-! ### The invariant -/

/-- Every listed cell is a cell of the layout, so that equal memories are equal lists. -/
abbrev Memory.inLayout (m : Memory) (layout : Layout) : Prop := ∀ p ∈ m, layoutHasKey layout p.1 = true

/-- The invariant: the configuration is sound, memory is in canonical form over the layout's cells, `cycles` lies
between 0 and the largest cost (10_state.md rule R33), and a decode error was recorded only under the `fatal` policy
(rule R36). -/
abbrev State.Inv (s : State) : Prop :=
  s.cfg.wf = true ∧ Memory.wf s.mem ∧ Memory.inLayout s.mem s.cfg.layout ∧ 0 ≤ s.cycles ∧
    s.cycles ≤ s.cfg.maxCost ∧ (s.decodeError = true → s.cfg.invalidPolicy = .fatal)

/-! ### Runs (60_exceptions.md rule R275) -/

/-- A run of a program ends at the first state with `halted = 1`. -/
def State.ended (s : State) : Bool := s.halted

/-- It ended well: a BRK was executed. -/
def State.endedWell (s : State) : Bool := s.halted && !s.decodeError

/-- It ended badly: a decode error. -/
def State.endedBadly (s : State) : Bool := s.halted && s.decodeError

/-- `s` is about to fetch: the next transition is a tick, and the tick is an instruction step (rules R100, R101). -/
abbrev State.Ready (s : State) : Prop := s.inputs = [] ∧ s.cycles ≤ 0 ∧ s.halted = false

/-- Two addresses decode to the same storage cell (20_memory.md rule R52). -/
abbrev SameCell (layout : Layout) (a b : Addr) : Prop := decodeAddr layout a = decodeAddr layout b

/-! ### What an instruction does -/

/-- `s` with `PC` advanced by the `WIDTH` entry and `cycles` loaded with the `CYCLES` entry of the opcode byte at `PC`,
every other field as it was (00_scope.md rule R11, 40_step_and_addressing.md rule R102). -/
def advanced (s : State) : State :=
  { s with
    pc := s.pc + BitVec.ofNat 16 (s.cfg.tables.widthAt (memRead s s.pc))
    cycles := (s.cfg.tables.costAt (memRead s s.pc) : Int) }

/-- `i` completes at `s` with the next state `t`, and every byte of memory reads as before. -/
def Completes (i : Instr) (s t : State) : Prop :=
  exec i s = .next t ∧ ∀ addr, memRead t addr = memRead s addr

/-- The byte an address reads as after the writes `ws`, in their order, to the memory of `s`. -/
def readAfter (s : State) (ws : List (Addr × Byte)) (addr : Addr) : Byte :=
  ws.foldl (fun v w => if SameCell s.cfg.layout addr w.1 then w.2 else v) (memRead s addr)

/-- From `s` to `t` the core wrote the bytes `ws` and no other byte of memory, and set `dirty` if one of the addresses
qualifies (10_state.md rule R34). Memory is compared where it is in canonical form, as it is in every state a run
reaches. -/
def Wrote (s t : State) (ws : List (Addr × Byte)) : Prop :=
  t.dirty = (s.dirty || ws.any (fun w => dirtyQualifies s.cfg w.1)) ∧
    (Memory.wf s.mem → ∀ addr, memRead t addr = readAfter s ws addr)

/-- From `s` the next state is `t` but for memory and `dirty`, in which exactly the writes `ws` were made. -/
def EndsStoring (r : Result) (s t : State) (ws : List (Addr × Byte)) : Prop :=
  ∃ u, r = .next u ∧ Wrote s u ws ∧ u = { t with mem := u.mem, dirty := u.dirty }

/-- `i` completes at `s`, making the writes `ws`; the other fields of the next state are those of `t`. -/
def CompletesStoring (i : Instr) (s t : State) (ws : List (Addr × Byte)) : Prop := EndsStoring (exec i s) s t ws

/-- Flags `f` with N and Z of the byte `v` (10_state.md rule R29). -/
def withNZ (f : Flags) (v : Byte) : Flags := { f with n := v.getLsbD 7, z := decide (v = 0) }

/-- `0x0100 + SP`, the stack cell of a stack pointer (10_state.md rule R23). -/
def stackCell (sp : Byte) : Addr := 0x0100 + sp.setWidth 16

/-- The status byte, bit 7 down to bit 0: N, V, b5, b4, D, I, Z, C (10_state.md rule R31). -/
def statusByte (f : Flags) (b5 b4 : Bool) : Byte :=
  BitVec.ofBool f.n ++ BitVec.ofBool f.v ++ BitVec.ofBool b5 ++ BitVec.ofBool b4 ++ BitVec.ofBool f.d ++
    BitVec.ofBool f.i ++ BitVec.ofBool f.z ++ BitVec.ofBool f.c

/-- The flags a status byte holds: N, V, D, I, Z, C in its bits 7, 6, 3, 2, 1, 0 (10_state.md rule R32). -/
def flagsOfByte (v : Byte) : Flags :=
  ⟨v.getLsbD 7, v.getLsbD 6, v.getLsbD 3, v.getLsbD 2, v.getLsbD 1, v.getLsbD 0⟩

/-- `s` after a branch with offset byte `b1`: to `pc0 + 2 + sext_16(b1)` if taken, else on to the next instruction
(46_branch.md rule R208). -/
def branched (s : State) (taken : Bool) (b1 : Byte) : State :=
  { advanced s with pc := if taken then s.pc + 2 + b1.signExtend 16 else (advanced s).pc }

/-- The addresses an instruction writes a byte to, in their order: the stores, the memory forms of the shifts, INC and
DEC at the effective address, the pushes on the stack (20_memory.md rule R62). -/
def writeAddrs (i : Instr) (s : State) : List Addr :=
  match i with
  | .sta o | .stx o | .sty o | .inc o | .dec o => [resolve o s]
  | .asl o | .lsr o | .rol o | .ror o => (resolveOption o s).toList
  | .pha | .php => [stackCell s.sp]
  | .jsr _ => [stackCell s.sp, stackCell (s.sp - 1)]
  | .adc _ | .sbc _ | .and _ | .ora _ | .eor _ | .bit _ | .lda _ | .ldx _ | .ldy _ | .cmp _ | .cpx _ | .cpy _ => []
  | .tax | .tay | .txa | .tya | .tsx | .txs | .inx | .iny | .dex | .dey | .pla | .plp => []
  | .bcc _ | .bcs _ | .beq _ | .bne _ | .bmi _ | .bpl _ | .bvc _ | .bvs _ | .jmp _ | .rts | .rti => []
  | .clc | .sec | .cld | .sed | .cli | .sei | .clv | .brk | .nop | .invalid _ => []

/-- Whether a write to one of the addresses sets `dirty` (10_state.md rule R34). -/
def anyQualifies (s : State) (addrs : List Addr) : Bool := addrs.any (dirtyQualifies s.cfg)

/-- The writes of an image loaded at `base`, byte k at `base + k` (70_reset_and_hazards.md rule R305). -/
def imageWrites (base : Addr) (bytes : List Byte) : List (Addr × Byte) :=
  bytes.mapIdx (fun k v => (base + BitVec.ofNat 16 k, v))

/-! ### Opcode bytes -/

/-- In the standard matrix the instructions `mk o` have exactly the opcode bytes of `l`, one a mode: `mk o` is
well-formed when the mode of `o` is listed, and then its bytes are the listed opcode byte followed by the operand bytes,
and decode to it. -/
def HasOpcodes (mk : Operand → Instr) (l : List (Byte × Mode)) : Prop :=
  ∀ o : Operand, ((mk o).WellFormed = true ↔ o.mode ∈ l.map Prod.snd) ∧
    ∀ b, (b, o.mode) ∈ l →
      encode (mk o) = b :: o.bytes ∧ ∀ rest, decode (b :: o.bytes ++ rest) = .ok (mk o, rest)

/-- In the standard matrix the instruction `i` of mode `imp` has the one opcode byte `b` and no operand byte. -/
def HasOpcode (i : Instr) (b : Byte) : Prop :=
  i.WellFormed = true ∧ encode i = [b] ∧ ∀ rest, decode (b :: rest) = .ok (i, rest)

end Sys2Proof.Machine
end

