-- ==== Sys2Proof/Certificates/Slice0/Obligations.lean ====
section
/-! DEFINITION. The statements for the provers, one `def Obligations.<Name> : Prop` each. Where a statement says "the
cost", it is the configuration's `CYCLES` entry, whatever that is. -/

open Sys2Proof Sys2Proof.Machine

/-! ### Encoding and decoding -/

/-- 30_encoding.md rules R80 to R90: a well-formed instruction has bytes, and they decode to it, with every operand
value, whatever bytes follow, under the default tables. The map itself is the spec's decision D25. -/
def Obligations.DecodeEncodeAgree : Prop :=
  ∀ i : Instr, i.WellFormed = true → ∀ rest : List Byte,
    encode i ≠ [] ∧ decode (encode i ++ rest) = .ok (i, rest)

/-- Rules R80 to R90, the other direction: any three bytes begin with an instruction; what is decoded is well-formed,
and its bytes are the bytes it was decoded from. The map itself is the spec's decision D25. -/
def Obligations.EncodeDecodeAgree : Prop :=
  (∀ (b0 b1 b2 : Byte) (rest : List Byte), ∃ i tail, decode (b0 :: b1 :: b2 :: rest) = .ok (i, tail)) ∧
    ∀ (bytes : List Byte) (i : Instr) (rest : List Byte),
      decode bytes = .ok (i, rest) → i.WellFormed = true ∧ encode i ++ rest = bytes

/-- Rules R80, R86: words written out from the opcode map decode to the instruction they stand for. The map itself is
the spec's decision D25. -/
def Obligations.SampleWordsDecode : Prop :=
  decodeTableWord 16 0x05A9 = some (.lda (.imm 0x05)) ∧ decodeTableWord 16 0x02F0 = some (.beq (.rel 0x02)) ∧
    decodeTableWord 24 0x12347D = some (.adc (.abx 0x1234)) ∧ decodeTableWord 8 0x4A = some (.lsr none) ∧
    decodeTableWord 24 0x02FF6C = some (.jmp (.ind 0x02FF)) ∧ decodeTableWord 16 0x2081 = some (.sta (.izx 0x20)) ∧
    decodeTableWord 16 0x86D1 = some (.cmp (.izy 0x86)) ∧ decodeTableWord 16 0xF0B6 = some (.ldx (.zpy 0xF0)) ∧
    decodeTableWord 8 0x40 = some .rti ∧ decodeTableWord 8 0x02 = some (.invalid 0x02)

/-- The default tables meet what rule R82 requires: 256 entries each; the width is 0 exactly for the `INVALID` bytes;
for a valid byte it is the width of the mode's format and the cost is at least 1; and the `INVALID` bytes are the 105 of
rule R89. Which bytes those are is the spec's decision D25; that State.reset has these tables is log entry 6. -/
def Obligations.DecodeTablesMeetRequirements : Prop :=
  (Tables.standard.ops.length = 256 ∧ Tables.standard.modes.length = 256 ∧ Tables.standard.widths.length = 256 ∧
      Tables.standard.costs.length = 256) ∧
    (∀ b : Byte, Tables.standard.widthAt b = 0 ↔ Tables.standard.opAt b = none) ∧
    (∀ b : Byte, Tables.standard.opAt b ≠ none →
      Tables.standard.widthAt b = (Tables.standard.modeAt b).width ∧ 1 ≤ Tables.standard.widthAt b ∧
        Tables.standard.widthAt b ≤ 3 ∧ 1 ≤ Tables.standard.costAt b) ∧
    (∀ b : Byte, Tables.standard.opAt b = none ↔ b ∈ invalidOpcodes) ∧
    (∀ b b1 b2 : Byte, b ∈ invalidOpcodes → decodeBytes Tables.standard b b1 b2 = .invalid b) ∧
    invalidOpcodes.length = 105 ∧ invalidOpcodes.Nodup

/-- Rules R88, R102: a valid instruction loads `cycles` with the `CYCLES` entry of the opcode byte at `PC` and, but for
the ones that write `PC`, advances `PC` by its `WIDTH` entry. Under sound tables (rule R82) the width of a fetched
instruction is that of its mode's format, and under the default ones that of its bytes. That the entries are those of the
byte at `PC`, for any term `exec` is given, is log entry 10; the default tables are the spec's decision D25. -/
def Obligations.CostIsTheTableEntry : Prop :=
  (∀ (i : Instr) (op : Op) (s t : State), i.op = some op → exec i s = .next t →
    t.cycles = (s.cfg.tables.costAt (memRead s s.pc) : Nat) ∧
      (op ∉ ([.BCC, .BCS, .BEQ, .BNE, .BMI, .BPL, .BVC, .BVS, .JMP, .JSR, .RTS, .RTI] : List Op) →
        t.pc = s.pc + BitVec.ofNat 16 (s.cfg.tables.widthAt (memRead s s.pc)))) ∧
    (∀ s : State, s.cfg.wf = true → (fetchInstr s).op ≠ none →
      s.cfg.tables.widthAt (memRead s s.pc) = (s.cfg.tables.modeAt (memRead s s.pc)).width ∧
        ∀ o, (fetchInstr s).operand = some o → s.cfg.tables.modeAt (memRead s s.pc) = o.mode) ∧
    ∀ s : State, s.cfg.tables = Tables.standard → (fetchInstr s).op ≠ none →
      (∃ rest, encode (fetchInstr s) = memRead s s.pc :: rest) ∧
        s.cfg.tables.widthAt (memRead s s.pc) = (encode (fetchInstr s)).length ∧
        s.cfg.tables.costAt (memRead s s.pc) = standardCosts.getD (memRead s s.pc).toNat 0

/-! ### The tick and the step -/

/-- 40_step_and_addressing.md rules R100 to R102: where the bytes at `PC` (the addresses modulo 65536) decode, by the
run's tables, to an instruction, the core is not counting down and not halted, a step that is a tick is `exec` of that
instruction at that state; `exec` holds the advance of `PC` and the load of `cycles`, so nothing stands around it. A
program's transitions stand in `inputs` (log entry 3). -/
def Obligations.StepRunsDecodedInstruction : Prop :=
  ∀ (s : State) (i : Instr) (rest : List Byte),
    decodeWith s.cfg.tables [memRead s s.pc, memRead s (s.pc + 1), memRead s (s.pc + 2)] = .ok (i, rest) →
    s.cycles ≤ 0 → s.halted = false →
    (s.inputs = [] → step s = exec i s) ∧
      ∀ l, s.inputs = .tick :: l → step s = exec i { s with inputs := l }

/-- Rule R100: a tick counts down while `cycles > 0`; else, halted, it changes nothing; else it is one instruction
step; and it always has an outcome. That the count-down comes before the halt is the spec's decision D3. -/
def Obligations.TickStateMachine : Prop :=
  ∀ s : State,
    (0 < s.cycles → tick s = .next { s with cycles := s.cycles - 1 }) ∧
      (s.cycles ≤ 0 → s.halted = true → tick s = .next s) ∧
      (s.cycles ≤ 0 → s.halted = false →
        tick s = exec (decodeBytes s.cfg.tables (memRead s s.pc) (memRead s (s.pc + 1)) (memRead s (s.pc + 2))) s) ∧
      ∃ t, tick s = .next t

/-- Rules R51, R61, R261: every instruction completes in every state, well-formed or not, and so does every
transition; nothing faults and nothing is refused. That a decode error is a next state is log entry 8. -/
def Obligations.EveryTransitionCompletes : Prop :=
  (∀ (i : Instr) (s : State), ∃ t, exec i s = .next t) ∧ ∀ s : State, ∃ t, step s = .next t

/-- Rule R101: `InstrStep` from a state that is not halted counts down to 0 and performs one instruction step. The two
levels of stepping are the spec's decision D2. -/
def Obligations.InstrStepRunsOneInstruction : Prop :=
  ∀ s : State, 0 ≤ s.cycles → s.halted = false → instrStep s = instructionStep { s with cycles := 0 }

/-- Rule R105: left alone, an instruction that loads the cost n occupies n + 1 ticks: the instruction step, then n
ticks that change only `cycles`, after which it is 0. The sum is the spec's inference from rules R100 and R102. -/
def Obligations.InstructionTakesCostPlusOneTicks : Prop :=
  ∀ (s t : State) (n k : Nat), s.Ready → step s = .next t → t.cycles = n → k ≤ n →
    Host.Core.run Sys2Proof.core (k + 1) s = .next { t with cycles := (n - k : Nat) }

/-- Every step keeps the invariant `State.Inv`: memory in canonical form over the cells of the layout (the model's
form, log entry 9), `cycles` within 0 and the largest cost (10_state.md rule R33), a decode error only under the
`fatal` policy (rule R36), a sound configuration. The memory clauses are the model's own form (log entries 2 and 9).
-/
def Obligations.StepKeepsInvariant : Prop :=
  ∀ s t : State, s.Inv → step s = .next t → t.Inv

/-- The state after reset meets the invariant. It rests on the memory at reset the model chose (log entry 2). -/
def Obligations.ResetMeetsInvariant : Prop := State.reset.Inv

/-- 00_scope.md rule R7: the parameters are fixed for the whole run; that they stand in the state is the model's
choice (log entry 1). That a step uses up the first entry of `inputs` is the model's choice too (log entry 3) and no
rule of the spec. -/
def Obligations.StepKeepsConfiguration : Prop :=
  ∀ s t : State, step s = .next t → t.cfg = s.cfg ∧ t.inputs = s.inputs.tail

/-- 10_state.md rule R35: `halted` is set by BRK and by a decode error under `fatal` and by nothing else; while it is
1 a tick with `cycles = 0` changes nothing; only `ClearHalt` and reset set it to 0. -/
def Obligations.HaltedChangesOnlyAsStated : Prop :=
  ∀ s t : State, step s = .next t →
    (s.halted = false → t.halted = true →
      fetchInstr s = .brk ∨ ∃ b, fetchInstr s = .invalid b ∧ s.cfg.invalidPolicy = .fatal) ∧
    (s.Ready → (fetchInstr s = .brk ∨ ∃ b, fetchInstr s = .invalid b ∧ s.cfg.invalidPolicy = .fatal) →
      t.halted = true) ∧
    (s.halted = true → s.cycles = 0 → s.inputs = [] → t = s) ∧
    (s.halted = true → t.halted = false → ∃ l, s.inputs = .clearHalt :: l ∨ s.inputs = .reset :: l)

/-- Rule R36: `decode_error` is set, together with `halted`, when an `INVALID` byte is fetched under `fatal`, and by
nothing else; only reset clears it. The bit is the spec's decision D13. -/
def Obligations.DecodeErrorIsSticky : Prop :=
  ∀ s t : State, step s = .next t →
    (s.decodeError = false → t.decodeError = true →
      (∃ b, fetchInstr s = .invalid b) ∧ s.cfg.invalidPolicy = .fatal ∧ t.halted = true) ∧
    (s.Ready → ∀ b, fetchInstr s = .invalid b → s.cfg.invalidPolicy = .fatal →
      t.decodeError = true ∧ t.halted = true) ∧
    (s.decodeError = true → t.decodeError = false → ∃ l, s.inputs = .reset :: l)

/-- Rule R34: `dirty` rises exactly when the core writes a byte to an address that qualifies, by an instruction or by the
pushes of an interrupt entry; the core never clears it, `EnvWrite` and `Load` leave it alone, and only `ClearDirty` and
reset clear it. `writeAddrs` says where an instruction writes; every other cell reads as before. Which writes qualify is
the spec's decision D18. -/
def Obligations.DirtyChangesOnlyAsStated : Prop :=
  (∀ (i : Instr) (s t : State), exec i s = .next t →
    t.dirty = (s.dirty || anyQualifies s (writeAddrs i s)) ∧
      (Memory.wf s.mem → ∀ addr, (∀ w ∈ writeAddrs i s, ¬ SameCell s.cfg.layout addr w) →
        memRead t addr = memRead s addr)) ∧
    ∀ (s t : State) (l : List Input), step s = .next t →
      let pushed := anyQualifies s [stackCell s.sp, stackCell (s.sp - 1), stackCell (s.sp - 2)]
      ((s.inputs = [] ∨ s.inputs = .tick :: l) →
        t.dirty = (s.dirty ||
          (decide (s.cycles ≤ 0) && !s.halted && anyQualifies s (writeAddrs (fetchInstr s) s)))) ∧
      (s.inputs = .deliverNMI :: l → t.dirty = (s.dirty || pushed)) ∧
      (s.inputs = .deliverIRQ :: l → t.dirty = (s.dirty || (!s.flags.i && pushed))) ∧
      ((s.inputs = .clearDirty :: l ∨ s.inputs = .reset :: l) → t.dirty = false) ∧
      ∀ input : Input, s.inputs = input :: l →
        input ∉ [Input.tick, .deliverNMI, .deliverIRQ, .clearDirty, .reset] → t.dirty = s.dirty

/-- Rules R21 to R23 and the instruction rules: which operations write A, X, Y, SP and memory; no other instruction
changes them, and an `INVALID` byte changes none. -/
def Obligations.RegisterWriters : Prop :=
  ∀ (i : Instr) (s t : State), exec i s = .next t →
    (t.a ≠ s.a → ∃ op, i.op = some op ∧
      op ∈ ([.ADC, .SBC, .AND, .ORA, .EOR, .LDA, .PLA, .TXA, .TYA, .ASL, .LSR, .ROL, .ROR] : List Op)) ∧
    (t.x ≠ s.x → ∃ op, i.op = some op ∧ op ∈ ([.LDX, .TAX, .TSX, .INX, .DEX] : List Op)) ∧
    (t.y ≠ s.y → ∃ op, i.op = some op ∧ op ∈ ([.LDY, .TAY, .INY, .DEY] : List Op)) ∧
    (t.sp ≠ s.sp → ∃ op, i.op = some op ∧ op ∈ ([.TXS, .PHA, .PHP, .PLA, .PLP, .JSR, .RTS, .RTI] : List Op)) ∧
    ((∃ addr, memRead t addr ≠ memRead s addr) → ∃ op, i.op = some op ∧
      op ∈ ([.STA, .STX, .STY, .ASL, .LSR, .ROL, .ROR, .INC, .DEC, .PHA, .PHP, .JSR] : List Op))

/-- Rule R27: which operations write each flag; no other instruction changes it, and an `INVALID` byte changes none.
The table is the spec's inference from the rules of the instructions. -/
def Obligations.FlagWriters : Prop :=
  ∀ (i : Instr) (s t : State), exec i s = .next t →
    (t.flags.n ≠ s.flags.n → ∃ op, i.op = some op ∧
      op ∈ ([.ADC, .SBC, .AND, .ORA, .EOR, .LDA, .LDX, .LDY, .TAX, .TAY, .TXA, .TYA, .TSX, .TXS, .ASL, .LSR,
        .ROL, .ROR, .INC, .DEC, .INX, .INY, .DEX, .DEY, .PLA, .CMP, .CPX, .CPY, .BIT, .PLP, .RTI] : List Op)) ∧
    (t.flags.v ≠ s.flags.v → ∃ op, i.op = some op ∧
      op ∈ ([.ADC, .SBC, .BIT, .CLV, .PLP, .RTI] : List Op)) ∧
    (t.flags.d ≠ s.flags.d → ∃ op, i.op = some op ∧
      op ∈ ([.SED, .CLD, .PLP, .RTI] : List Op)) ∧
    (t.flags.i ≠ s.flags.i → ∃ op, i.op = some op ∧
      op ∈ ([.SEI, .CLI, .PLP, .RTI] : List Op)) ∧
    (t.flags.z ≠ s.flags.z → ∃ op, i.op = some op ∧
      op ∈ ([.ADC, .SBC, .AND, .ORA, .EOR, .LDA, .LDX, .LDY, .TAX, .TAY, .TXA, .TYA, .TSX, .TXS, .ASL, .LSR,
        .ROL, .ROR, .INC, .DEC, .INX, .INY, .DEX, .DEY, .PLA, .CMP, .CPX, .CPY, .BIT, .PLP, .RTI] : List Op)) ∧
    (t.flags.c ≠ s.flags.c → ∃ op, i.op = some op ∧
      op ∈ ([.ADC, .SBC, .ASL, .LSR, .ROL, .ROR, .CMP, .CPX, .CPY, .SEC, .CLC, .PLP, .RTI] : List Op))

/-- Rule R28: the `D` flag is storage only: but for PHP, an instruction run with another value of `D` has the same
next state, `D` itself apart. It is the spec's decision D9. -/
def Obligations.OnlyPhpReadsDecimal : Prop :=
  ∀ (i : Instr) (s t : State) (b : Bool), i ≠ .php → exec i s = .next t →
    ∃ t', exec i { s with flags := { s.flags with d := b } } = .next t' ∧
      t' = { t with flags := { t.flags with d := t'.flags.d } }

/-- 70_reset_and_hazards.md rule R316, 30_encoding.md rule R88: no register, flag or memory result depends on the
`CYCLES` table: with another table the next state differs in `cycles` and in the table alone. -/
def Obligations.ResultsDoNotDependOnCosts : Prop :=
  ∀ (i : Instr) (s t : State) (l : List Nat), exec i s = .next t →
    ∃ t', exec i { s with cfg := { s.cfg with tables := { s.cfg.tables with costs := l } } } = .next t' ∧
      t' = { t with cycles := t'.cycles, cfg := { s.cfg with tables := { s.cfg.tables with costs := l } } }

/-- Log entry 11, the model's own: after `withFetchWord` the very next step runs the instruction that the run's tables
read from the table word, which under the default tables is the one `decodeTableWord` reads. -/
def Obligations.LoadedInstructionRuns : Prop :=
  ∀ (s : State) (nbits w : Nat) (i : Instr), Memory.wf s.mem →
    (decodeTableWordWith s.cfg.tables nbits w = some i →
      step (s.withFetchWord nbits w) = exec i (s.withFetchWord nbits w)) ∧
    (s.cfg.tables = Tables.standard → decodeTableWord nbits w = some i →
      step (s.withFetchWord nbits w) = exec i (s.withFetchWord nbits w))

/-! ### Addressing modes and memory -/

/-- Rules R108, R110, R111, R113: the effective addresses of the modes with no index and no pointer; and in a fetched
instruction of any mode the operand is the byte at its effective address. -/
def Obligations.DirectModesResolve : Prop :=
  (∀ (s : State) (w : Addr), resolve (.abs w) s = w) ∧
    (∀ (s : State) (b1 : Byte), (resolve (.zp b1) s).toNat = b1.toNat) ∧
    (∀ (s : State) (b1 : Byte), (resolve (.imm b1) s).toNat = (s.pc.toNat + 1) % 65536) ∧
    (∀ (s : State) (b1 : Byte),
      ((resolve (.rel b1) s).toNat : Int) = ((s.pc.toNat : Int) + 2 + b1.toInt) % 65536) ∧
    ∀ (s : State) (o : Operand), (fetchInstr s).operand = some o → operandByte o s = memRead s (resolve o s)

/-- Rule R109: the index of absolute+X and absolute+Y enters the 16-bit sum as a signed byte. Rule R112: the zero-page
indexed sums wrap modulo 256. The zero-page wrap is the spec's decision D6. -/
def Obligations.IndexedModesResolve : Prop :=
  ∀ (s : State) (w : Addr) (b1 : Byte),
    ((resolve (.abx w) s).toNat : Int) = ((w.toNat : Int) + s.x.toInt) % 65536 ∧
      ((resolve (.aby w) s).toNat : Int) = ((w.toNat : Int) + s.y.toInt) % 65536 ∧
      (resolve (.zpx b1) s).toNat = (b1.toNat + s.x.toNat) % 256 ∧
      (resolve (.zpy b1) s).toNat = (b1.toNat + s.y.toNat) % 256

/-- Rules R114 to R116: the pointer modes. The high byte of a pointer comes from the next address, with no page wrap;
Y enters the indirect-indexed sum signed, unless the optional parameter `IZY_SIGNED` is false. That there is no page
wrap is the spec's decision D7, and the sign of Y its decision D8. -/
def Obligations.PointerModesResolve : Prop :=
  ∀ (s : State) (w : Addr) (b1 : Byte),
    let ptr : Addr := BitVec.ofNat 16 ((b1.toNat + s.x.toNat) % 256)
    let base : Addr := BitVec.ofNat 16 b1.toNat
    (resolve (.ind w) s).toNat = (memRead s w).toNat + 256 * (memRead s (w + 1)).toNat ∧
      (resolve (.izx b1) s).toNat = (memRead s ptr).toNat + 256 * (memRead s (ptr + 1)).toNat ∧
      ((resolve (.izy b1) s).toNat : Int) =
        ((memRead s base).toNat + 256 * (memRead s (base + 1)).toNat +
          (if s.cfg.izySigned then s.y.toInt else (s.y.toNat : Int))) % 65536

/-- 20_memory.md rules R56 to R58: the cell of every address in the two layouts, the regions' numbers of cells, and each
cell one of its region's. The cells of the windows other than RAM are the spec's decision D19 (log entry 16). -/
def Obligations.AddressDecodeLayouts : Prop :=
  (∀ a : Addr, decodeAddr .flatMirrored a = ⟨.ram, a.toNat % 2048⟩) ∧
    (∀ a : Addr, a.toNat ≤ 0x1FFF → decodeAddr .segmentedMap a = ⟨.ram, a.toNat % 2048⟩) ∧
    (∀ a : Addr, 0x2000 ≤ a.toNat → a.toNat ≤ 0x3FFF →
      decodeAddr .segmentedMap a = ⟨.ppu, (a.toNat - 0x2000) % 8⟩) ∧
    (∀ a : Addr, 0x4000 ≤ a.toNat → a.toNat ≤ 0x4017 → decodeAddr .segmentedMap a = ⟨.apu, a.toNat - 0x4000⟩) ∧
    (∀ a : Addr, 0x4018 ≤ a.toNat → a.toNat ≤ 0x401F → decodeAddr .segmentedMap a = ⟨.test, a.toNat - 0x4018⟩) ∧
    (∀ a : Addr, 0x4020 ≤ a.toNat → decodeAddr .segmentedMap a = ⟨.cart, a.toNat - 0x4020⟩) ∧
    (∀ (layout : Layout) (a : Addr), (decodeAddr layout a).index < (decodeAddr layout a).region.size) ∧
    Region.size .ram = 2048 ∧ Region.size .ppu = 8 ∧ Region.size .apu = 24 ∧ Region.size .test = 8 ∧
    Region.size .cart = 49120

/-- Rules R52, R56 to R58: a byte written is read back through every mirror of its address and no other address
changes: modulo 2048 in `FlatMirrored` and in the RAM region, modulo 8 in the PPU window, the address itself above.
That a write lists the byte under one key is log entry 9. -/
def Obligations.MirrorsShareOneByte : Prop :=
  ∀ (s : State) (a b : Addr) (v : Byte), Memory.wf s.mem →
    let same : Prop :=
      match s.cfg.layout with
      | .flatMirrored => a.toNat % 2048 = b.toNat % 2048
      | .segmentedMap =>
        if a.toNat < 0x2000 then b.toNat < 0x2000 ∧ a.toNat % 2048 = b.toNat % 2048
        else if a.toNat < 0x4000 then 0x2000 ≤ b.toNat ∧ b.toNat < 0x4000 ∧ a.toNat % 8 = b.toNat % 8
        else a = b
    (same → memRead (memWrite s a v) b = v) ∧ (¬ same → memRead (memWrite s a v) b = memRead s b)

/-- Rules R53, R54: a word is read little-endian from `addr` and `addr + 1` modulo 65536, and a word written there is
read back, from any address. The wrap at 0xFFFF is the spec's decision D5, and that there is none inside a page its
decision D7. -/
def Obligations.WordAccesses : Prop :=
  ∀ (s : State) (addr w : Addr),
    (memRead16 s addr).toNat =
        (memRead s addr).toNat + 256 * (memRead s (BitVec.ofNat 16 ((addr.toNat + 1) % 65536))).toNat ∧
      (Memory.wf s.mem → memRead16 (memWrite16 s addr w) addr = w) ∧
      Wrote s (memWrite16 s addr w) [(addr, w.extractLsb' 0 8), (addr + 1, w.extractLsb' 8 8)]

/-! ### The stack -/

/-- Rules R117, R119: a push writes at `0x0100 + SP` and then decrements `SP` modulo 256; a pull increments `SP`
modulo 256 and then reads. Nothing else changes. -/
def Obligations.StackPrimitives : Prop :=
  ∀ (s : State) (v : Byte),
    let down : Byte := BitVec.ofNat 8 ((s.sp.toNat + 255) % 256)
    let up : Byte := BitVec.ofNat 8 ((s.sp.toNat + 1) % 256)
    EndsStoring (.next (push8 s v)) s { s with sp := down } [(BitVec.ofNat 16 (0x0100 + s.sp.toNat), v)] ∧
      pull8 s = (memRead s (BitVec.ofNat 16 (0x0100 + up.toNat)), { s with sp := up })

/-- Rules R118, R120: a word is pushed high byte first, and pulling it gives the word and the stack pointer back, from
any `SP`, across the wrap too. -/
def Obligations.WordPushPullsBack : Prop :=
  ∀ (s : State) (w : Addr),
    EndsStoring (.next (push16 s w)) s { s with sp := s.sp - 2 }
        [(stackCell s.sp, w.extractLsb' 8 8), (stackCell (s.sp - 1), w.extractLsb' 0 8)] ∧
      (Memory.wf s.mem → (pull16 (push16 s w)).1 = w ∧ (pull16 (push16 s w)).2.sp = s.sp)

/-! ### Instructions

A rule's "Operands:" line is the `HasOpcodes` clause. The next state of an instruction is written out whole:
`advanced` moves `PC` over the instruction and loads `cycles`; a field that is not named is unchanged, every flag and
every byte of memory too. -/

/-- 41_arithmetic.md rule R130: ADC. `V` is the rule's formula, and 1 exactly when the signed sum is out of range. -/
def Obligations.AdcAddsWithCarry : Prop :=
  HasOpcodes .adc [(0x69, .imm), (0x65, .zp), (0x75, .zpx), (0x6D, .abs), (0x7D, .abx), (0x79, .aby), (0x61,
    .izx), (0x71, .izy)] ∧
    ∀ (o : Operand) (s : State),
      let m := operandByte o s
      let sum := s.a.toNat + m.toNat + s.flags.c.toNat
      let r : Byte := BitVec.ofNat 8 (sum % 256)
      let v : Bool := s.a.getLsbD 7 == m.getLsbD 7 && r.getLsbD 7 != s.a.getLsbD 7
      let signed : Int := s.a.toInt + m.toInt + s.flags.c.toNat
      Completes (.adc o) s { advanced s with
          a := r, flags := { withNZ s.flags r with v := v, c := decide (sum > 255) } } ∧
        (v = true ↔ signed < -128 ∨ 127 < signed)

/-- Rule R131: SBC. The carry out is 1 exactly when there is no borrow; `V` is the rule's formula, and 1 exactly when
the signed difference is out of range. The formula and its carry are the spec's decision D10. -/
def Obligations.SbcSubtractsWithBorrow : Prop :=
  HasOpcodes .sbc [(0xE9, .imm), (0xE5, .zp), (0xF5, .zpx), (0xED, .abs), (0xFD, .abx), (0xF9, .aby), (0xE1,
    .izx), (0xF1, .izy)] ∧
    ∀ (o : Operand) (s : State),
      let m := operandByte o s
      let sum := s.a.toNat + (m ^^^ 0xFF).toNat + s.flags.c.toNat
      let r : Byte := BitVec.ofNat 8 (sum % 256)
      let v : Bool := s.a.getLsbD 7 != m.getLsbD 7 && r.getLsbD 7 != s.a.getLsbD 7
      let signed : Int := s.a.toInt - m.toInt - (1 - s.flags.c.toNat)
      Completes (.sbc o) s { advanced s with
          a := r, flags := { withNZ s.flags r with v := v, c := decide (sum > 255) } } ∧
        (sum > 255 ↔ s.a.toNat ≥ m.toNat + (1 - s.flags.c.toNat)) ∧
        (r.toNat : Int) = ((s.a.toNat : Int) - m.toNat - (1 - s.flags.c.toNat)) % 256 ∧
        (v = true ↔ signed < -128 ∨ 127 < signed)

/-- 42_logic_load_store_transfer.md rules R140 to R142: AND, ORA, EOR. -/
def Obligations.LogicalOperations : Prop :=
  HasOpcodes .and [(0x29, .imm), (0x25, .zp), (0x35, .zpx), (0x2D, .abs), (0x3D, .abx), (0x39, .aby), (0x21,
    .izx), (0x31, .izy)] ∧
  HasOpcodes .ora [(0x09, .imm), (0x05, .zp), (0x15, .zpx), (0x0D, .abs), (0x1D, .abx), (0x19, .aby), (0x01,
    .izx), (0x11, .izy)] ∧
  HasOpcodes .eor [(0x49, .imm), (0x45, .zp), (0x55, .zpx), (0x4D, .abs), (0x5D, .abx), (0x59, .aby), (0x41,
    .izx), (0x51, .izy)] ∧
    ∀ (o : Operand) (s : State),
      let m := operandByte o s
      Completes (.and o) s { advanced s with a := s.a &&& m, flags := withNZ s.flags (s.a &&& m) } ∧
      Completes (.ora o) s { advanced s with a := s.a ||| m, flags := withNZ s.flags (s.a ||| m) } ∧
      Completes (.eor o) s { advanced s with a := s.a ^^^ m, flags := withNZ s.flags (s.a ^^^ m) }

/-- Rule R143: BIT writes N, V and Z, and nothing else. It is the spec's decision D22. -/
def Obligations.BitTestsMemory : Prop :=
  HasOpcodes .bit [(0x24, .zp), (0x2C, .abs)] ∧
    ∀ (o : Operand) (s : State),
      let m := operandByte o s
      Completes (.bit o) s { advanced s with
        flags := { s.flags with z := decide (s.a &&& m = 0), n := m.getLsbD 7, v := m.getLsbD 6 } }

/-- Rules R144 to R146: LDA, LDX, LDY; the address is resolved with the registers as they were. -/
def Obligations.LoadsSetTheRegister : Prop :=
  HasOpcodes .lda [(0xA9, .imm), (0xA5, .zp), (0xB5, .zpx), (0xAD, .abs), (0xBD, .abx), (0xB9, .aby), (0xA1,
    .izx), (0xB1, .izy)] ∧
  HasOpcodes .ldx [(0xA2, .imm), (0xA6, .zp), (0xB6, .zpy), (0xAE, .abs), (0xBE, .aby)] ∧
  HasOpcodes .ldy [(0xA0, .imm), (0xA4, .zp), (0xB4, .zpx), (0xAC, .abs), (0xBC, .abx)] ∧
    ∀ (o : Operand) (s : State),
      let m := operandByte o s
      Completes (.lda o) s { advanced s with a := m, flags := withNZ s.flags m } ∧
      Completes (.ldx o) s { advanced s with x := m, flags := withNZ s.flags m } ∧
      Completes (.ldy o) s { advanced s with y := m, flags := withNZ s.flags m }

/-- Rules R147 to R149: STA, STX, STY write the register to the effective address, set `dirty` if it qualifies, and
change no flag and no register. It is the spec's decision D23. -/
def Obligations.StoresWriteTheRegister : Prop :=
  HasOpcodes .sta [(0x85, .zp), (0x95, .zpx), (0x8D, .abs), (0x9D, .abx), (0x99, .aby), (0x81, .izx), (0x91, .izy)] ∧
  HasOpcodes .stx [(0x86, .zp), (0x96, .zpy), (0x8E, .abs)] ∧
  HasOpcodes .sty [(0x84, .zp), (0x94, .zpx), (0x8C, .abs)] ∧
    ∀ (o : Operand) (s : State),
      CompletesStoring (.sta o) s (advanced s) [(resolve o s, s.a)] ∧
      CompletesStoring (.stx o) s (advanced s) [(resolve o s, s.x)] ∧
      CompletesStoring (.sty o) s (advanced s) [(resolve o s, s.y)]

/-- Rules R150 to R154: TAX, TAY, TXA, TYA, TSX. -/
def Obligations.TransfersCopyTheRegister : Prop :=
  HasOpcode .tax 0xAA ∧ HasOpcode .tay 0xA8 ∧ HasOpcode .txa 0x8A ∧ HasOpcode .tya 0x98 ∧
  HasOpcode .tsx 0xBA ∧
    ∀ s : State,
      Completes .tax s { advanced s with x := s.a, flags := withNZ s.flags s.a } ∧
      Completes .tay s { advanced s with y := s.a, flags := withNZ s.flags s.a } ∧
      Completes .txa s { advanced s with a := s.x, flags := withNZ s.flags s.x } ∧
      Completes .tya s { advanced s with a := s.y, flags := withNZ s.flags s.y } ∧
      Completes .tsx s { advanced s with x := s.sp, flags := withNZ s.flags s.sp }

/-- Rule R155: TXS copies X to `SP` and refreshes N and Z; rule R7: with the optional parameter `TXS_SETS_NZ` false it
leaves the flags alone. That TXS writes flags is the spec's decision D20. -/
def Obligations.TxsSetsTheStackPointer : Prop :=
  HasOpcode .txs 0x9A ∧
    ∀ s : State,
      (s.cfg.txsSetsNZ = true →
        Completes .txs s { advanced s with sp := s.x, flags := withNZ s.flags s.x }) ∧
      (s.cfg.txsSetsNZ = false → Completes .txs s { advanced s with sp := s.x })

/-- 43_shift_rotate.md rules R170, R172: ASL and ROL, on the accumulator and on memory; the carry takes bit 7, and ROL
rotates the nine bits `C, v` left by one. The directions, the fill bits and the rotates' carry-in are the spec's
decision D24 (log entry 12). -/
def Obligations.LeftShiftsAndRotates : Prop :=
  HasOpcode (.asl none) 0x0A ∧
    HasOpcodes (fun o => .asl (some o)) [(0x06, .zp), (0x16, .zpx), (0x0E, .abs), (0x1E, .abx)] ∧
  HasOpcode (.rol none) 0x2A ∧
    HasOpcodes (fun o => .rol (some o)) [(0x26, .zp), (0x36, .zpx), (0x2E, .abs), (0x3E, .abx)] ∧
    ∀ (o : Operand) (s : State),
      let asl := fun v : Byte => BitVec.ofNat 8 (v.toNat * 2 % 256)
      let rol := fun v : Byte => BitVec.ofNat 8 (v.toNat * 2 % 256 + s.flags.c.toNat)
      let m := memRead s (resolve o s)
      Completes (.asl none) s { advanced s with
        a := asl s.a, flags := { withNZ s.flags (asl s.a) with c := s.a.getLsbD 7 } } ∧
      CompletesStoring (.asl (some o)) s { advanced s with
        flags := { withNZ s.flags (asl m) with c := m.getLsbD 7 } } [(resolve o s, asl m)] ∧
      Completes (.rol none) s { advanced s with
        a := rol s.a, flags := { withNZ s.flags (rol s.a) with c := s.a.getLsbD 7 } } ∧
      CompletesStoring (.rol (some o)) s { advanced s with
        flags := { withNZ s.flags (rol m) with c := m.getLsbD 7 } } [(resolve o s, rol m)] ∧
      ∀ v : Byte, BitVec.ofBool (v.getLsbD 7) ++ rol v = (BitVec.ofBool s.flags.c ++ v).rotateLeft 1

/-- Rules R171, R173: LSR and ROR, on the accumulator and on memory; the carry takes bit 0, and ROR rotates the nine
bits `v, C` right by one. The directions, the fill bits and the rotates' carry-in are the spec's decision D24 (log
entry 12). -/
def Obligations.RightShiftsAndRotates : Prop :=
  HasOpcode (.lsr none) 0x4A ∧
    HasOpcodes (fun o => .lsr (some o)) [(0x46, .zp), (0x56, .zpx), (0x4E, .abs), (0x5E, .abx)] ∧
  HasOpcode (.ror none) 0x6A ∧
    HasOpcodes (fun o => .ror (some o)) [(0x66, .zp), (0x76, .zpx), (0x6E, .abs), (0x7E, .abx)] ∧
    ∀ (o : Operand) (s : State),
      let lsr := fun v : Byte => BitVec.ofNat 8 (v.toNat / 2)
      let ror := fun v : Byte => BitVec.ofNat 8 (v.toNat / 2 + s.flags.c.toNat * 128)
      let m := memRead s (resolve o s)
      Completes (.lsr none) s { advanced s with
        a := lsr s.a, flags := { withNZ s.flags (lsr s.a) with n := false, c := s.a.getLsbD 0 } } ∧
      CompletesStoring (.lsr (some o)) s { advanced s with
        flags := { withNZ s.flags (lsr m) with n := false, c := m.getLsbD 0 } } [(resolve o s, lsr m)] ∧
      Completes (.ror none) s { advanced s with
        a := ror s.a, flags := { withNZ s.flags (ror s.a) with n := s.flags.c, c := s.a.getLsbD 0 } } ∧
      CompletesStoring (.ror (some o)) s { advanced s with
        flags := { withNZ s.flags (ror m) with n := s.flags.c, c := m.getLsbD 0 } } [(resolve o s, ror m)] ∧
      ∀ v : Byte, ror v ++ BitVec.ofBool (v.getLsbD 0) = (v ++ BitVec.ofBool s.flags.c).rotateRight 1

/-- 44_compare.md rules R180 to R182: CMP, CPX, CPY write C, Z and N, and nothing else. -/
def Obligations.ComparesSetFlags : Prop :=
  HasOpcodes .cmp [(0xC9, .imm), (0xC5, .zp), (0xD5, .zpx), (0xCD, .abs), (0xDD, .abx), (0xD9, .aby), (0xC1,
    .izx), (0xD1, .izy)] ∧
  HasOpcodes .cpx [(0xE0, .imm), (0xE4, .zp), (0xEC, .abs)] ∧
  HasOpcodes .cpy [(0xC0, .imm), (0xC4, .zp), (0xCC, .abs)] ∧
    ∀ (o : Operand) (s : State),
      let m := operandByte o s
      let f := fun r : Byte =>
        { s.flags with c := decide (r.toNat ≥ m.toNat), z := decide (r = m), n := (r - m).getLsbD 7 }
      Completes (.cmp o) s { advanced s with flags := f s.a } ∧
      Completes (.cpx o) s { advanced s with flags := f s.x } ∧
      Completes (.cpy o) s { advanced s with flags := f s.y }

/-- Rule R183: N, Z and C of a compare are those SBC gives with carry-in 1 and the register in A. It is the spec's
inference. -/
def Obligations.CompareFlagsAreThoseOfSubtract : Prop :=
  ∀ (o : Operand) (s : State),
    ∀ p ∈ [(Instr.cmp o, s.a), (Instr.cpx o, s.x), (Instr.cpy o, s.y)],
      ∃ t u, exec p.1 s = .next t ∧
        exec (.sbc o) { s with a := p.2, flags := { s.flags with c := true } } = .next u ∧
        t.flags.n = u.flags.n ∧ t.flags.z = u.flags.z ∧ t.flags.c = u.flags.c

/-- 45_incdec.md rules R190, R191: INC and DEC, modulo 256, with N and Z and no other flag. -/
def Obligations.MemoryIncrementDecrement : Prop :=
  HasOpcodes .inc [(0xE6, .zp), (0xF6, .zpx), (0xEE, .abs), (0xFE, .abx)] ∧
  HasOpcodes .dec [(0xC6, .zp), (0xD6, .zpx), (0xCE, .abs), (0xDE, .abx)] ∧
    ∀ (o : Operand) (s : State),
      let m := memRead s (resolve o s)
      let up : Byte := BitVec.ofNat 8 ((m.toNat + 1) % 256)
      let down : Byte := BitVec.ofNat 8 ((m.toNat + 255) % 256)
      CompletesStoring (.inc o) s { advanced s with flags := withNZ s.flags up } [(resolve o s, up)] ∧
      CompletesStoring (.dec o) s { advanced s with flags := withNZ s.flags down } [(resolve o s, down)]

/-- Rules R192 to R195: INX, INY, DEX, DEY, modulo 256, with N and Z and no other flag. -/
def Obligations.RegisterIncrementDecrement : Prop :=
  HasOpcode .inx 0xE8 ∧ HasOpcode .iny 0xC8 ∧ HasOpcode .dex 0xCA ∧ HasOpcode .dey 0x88 ∧
    ∀ s : State,
      let up := fun v : Byte => BitVec.ofNat 8 ((v.toNat + 1) % 256)
      let down := fun v : Byte => BitVec.ofNat 8 ((v.toNat + 255) % 256)
      Completes .inx s { advanced s with x := up s.x, flags := withNZ s.flags (up s.x) } ∧
      Completes .iny s { advanced s with y := up s.y, flags := withNZ s.flags (up s.y) } ∧
      Completes .dex s { advanced s with x := down s.x, flags := withNZ s.flags (down s.x) } ∧
      Completes .dey s { advanced s with y := down s.y, flags := withNZ s.flags (down s.y) }

/-- 46_branch.md rules R200 to R208: a branch reads one flag and writes nothing but `PC`; the cost is the same taken
or not. A fetched branch, under sound tables, has the width 2, so untaken it leaves `PC` at `pc0 + 2`. -/
def Obligations.BranchesOnOneFlag : Prop :=
  HasOpcodes .bcc [(0x90, .rel)] ∧ HasOpcodes .bcs [(0xB0, .rel)] ∧
  HasOpcodes .beq [(0xF0, .rel)] ∧ HasOpcodes .bne [(0xD0, .rel)] ∧
  HasOpcodes .bmi [(0x30, .rel)] ∧ HasOpcodes .bpl [(0x10, .rel)] ∧
  HasOpcodes .bvc [(0x50, .rel)] ∧ HasOpcodes .bvs [(0x70, .rel)] ∧
    ∀ (b1 : Byte) (s : State),
      (s.cfg.wf = true → (fetchInstr s).operand = some (.rel b1) → (advanced s).pc = s.pc + 2) ∧
      Completes (.bcc (.rel b1)) s (branched s (!s.flags.c) b1) ∧
      Completes (.bcs (.rel b1)) s (branched s s.flags.c b1) ∧
      Completes (.beq (.rel b1)) s (branched s s.flags.z b1) ∧
      Completes (.bne (.rel b1)) s (branched s (!s.flags.z) b1) ∧
      Completes (.bmi (.rel b1)) s (branched s s.flags.n b1) ∧
      Completes (.bpl (.rel b1)) s (branched s (!s.flags.n) b1) ∧
      Completes (.bvc (.rel b1)) s (branched s (!s.flags.v) b1) ∧
      Completes (.bvs (.rel b1)) s (branched s s.flags.v b1)

/-- 47_stack_status_flags.md rules R220, R222: PHA pushes A; PHP pushes the status byte with bits 5 and 4 set. Bits 5
and 4 are the spec's decision D11. -/
def Obligations.PushesWriteTheStack : Prop :=
  HasOpcode .pha 0x48 ∧ HasOpcode .php 0x08 ∧
    ∀ s : State,
      CompletesStoring .pha s { advanced s with sp := s.sp - 1 } [(stackCell s.sp, s.a)] ∧
      CompletesStoring .php s { advanced s with sp := s.sp - 1 }
        [(stackCell s.sp, statusByte s.flags true true)]

/-- Rules R221, R223: PLA pulls A and refreshes N and Z; PLP pulls all six flags. The flags of PLA are the spec's
decision D21. -/
def Obligations.PullsReadTheStack : Prop :=
  HasOpcode .pla 0x68 ∧ HasOpcode .plp 0x28 ∧
    ∀ s : State,
      let v := memRead s (stackCell (s.sp + 1))
      Completes .pla s { advanced s with sp := s.sp + 1, a := v, flags := withNZ s.flags v } ∧
      Completes .plp s { advanced s with sp := s.sp + 1, flags := flagsOfByte v }

/-- Rule R231: PHA then PLA restores A and `SP` and refreshes N and Z from A; PHP then PLP restores the six flags and
`SP`; whatever ran in between, if `SP` is back and the pushed byte still stands in its stack cell. It is the spec's
inference. -/
def Obligations.StackRoundTrips : Prop :=
  ∀ s t t' : State, Memory.wf s.mem → t'.sp = t.sp → memRead t' (stackCell s.sp) = memRead t (stackCell s.sp) →
    (exec .pha s = .next t →
      ∃ u, exec .pla t' = .next u ∧ u.a = s.a ∧ u.sp = s.sp ∧ u.flags = withNZ t'.flags s.a) ∧
    (exec .php s = .next t → ∃ u, exec .plp t' = .next u ∧ u.flags = s.flags ∧ u.sp = s.sp)

/-- Rules R224 to R230: each flag operation writes one constant to one flag, and nothing else; run twice it gives the
flags of once, which is rule R232, the spec's inference. -/
def Obligations.FlagOperations : Prop :=
  HasOpcode .clc 0x18 ∧ HasOpcode .sec 0x38 ∧ HasOpcode .cld 0xD8 ∧ HasOpcode .sed 0xF8 ∧
  HasOpcode .cli 0x58 ∧ HasOpcode .sei 0x78 ∧ HasOpcode .clv 0xB8 ∧
    (∀ s : State,
      Completes .clc s { advanced s with flags := { s.flags with c := false } } ∧
      Completes .sec s { advanced s with flags := { s.flags with c := true } } ∧
      Completes .cld s { advanced s with flags := { s.flags with d := false } } ∧
      Completes .sed s { advanced s with flags := { s.flags with d := true } } ∧
      Completes .cli s { advanced s with flags := { s.flags with i := false } } ∧
      Completes .sei s { advanced s with flags := { s.flags with i := true } } ∧
      Completes .clv s { advanced s with flags := { s.flags with v := false } }) ∧
    ∀ (i : Instr) (s t : State), i ∈ [Instr.clc, .sec, .cld, .sed, .cli, .sei, .clv] → exec i s = .next t →
      ∃ u, exec i t = .next u ∧ u.flags = t.flags

/-- 48_control_transfer.md rule R240: JMP overwrites `PC` with the effective address, the operand word itself or the
word at it, its high byte from the next address with no page wrap, which is the spec's decision D7 (log entry 12). -/
def Obligations.JumpSetsPC : Prop :=
  HasOpcodes .jmp [(0x4C, .abs), (0x6C, .ind)] ∧
    ∀ (w : Addr) (s : State),
      Completes (.jmp (.abs w)) s { advanced s with pc := w } ∧
      Completes (.jmp (.ind w)) s
        { advanced s with
          pc := BitVec.ofNat 16 ((memRead s w).toNat + 256 * (memRead s (w + 1)).toNat) }

/-- Rule R241: JSR pushes the address of its own last byte, the high byte first, and jumps to the operand word, which
was read before the push. A fetched JSR, under sound tables, has the width 3, so that address is `pc0 + 2`. -/
def Obligations.CallPushesReturnAddress : Prop :=
  HasOpcodes .jsr [(0x20, .abs)] ∧
    ∀ (w : Addr) (s : State),
      let last : Addr := (advanced s).pc - 1
      (s.cfg.wf = true → (fetchInstr s).operand = some (.abs w) → last = s.pc + 2) ∧
      CompletesStoring (.jsr (.abs w)) s { advanced s with sp := s.sp - 2, pc := w }
        [(stackCell s.sp, last.extractLsb' 8 8), (stackCell (s.sp - 1), last.extractLsb' 0 8)]

/-- Rule R242: RTS pulls a word, low byte first, and sets `PC` to it plus one, modulo 65536; and after a JSR it returns
to the instruction after the JSR with `SP` restored, whatever ran in between, if `SP` is back and the return address
still stands in its two stack cells. The second clause is the spec's inference. -/
def Obligations.ReturnPullsAddressPlusOne : Prop :=
  HasOpcode .rts 0x60 ∧
    (∀ s : State,
      let lo := memRead s (stackCell (s.sp + 1))
      let hi := memRead s (stackCell (s.sp + 2))
      Completes .rts s { advanced s with
        sp := s.sp + 2, pc := BitVec.ofNat 16 ((lo.toNat + 256 * hi.toNat + 1) % 65536) }) ∧
    ∀ (o : Operand) (s t t' : State), Memory.wf s.mem → exec (.jsr o) s = .next t → t'.sp = t.sp →
      (∀ k ∈ ([0, 1] : List Byte), memRead t' (stackCell (s.sp - k)) = memRead t (stackCell (s.sp - k))) →
      ∃ u, exec .rts t' = .next u ∧ u.pc = (advanced s).pc ∧ u.sp = s.sp ∧
        (s.cfg.wf = true → (fetchInstr s).operand = some o → o.mode = .abs → u.pc = s.pc + 3)

/-- Rule R243: RTI pulls the status byte, then `PC` with no adjustment; all six flags are restored. -/
def Obligations.InterruptReturnPullsStatusAndPC : Prop :=
  HasOpcode .rti 0x40 ∧
    ∀ s : State,
      let p := memRead s (stackCell (s.sp + 1))
      let lo := memRead s (stackCell (s.sp + 2))
      let hi := memRead s (stackCell (s.sp + 3))
      Completes .rti s { advanced s with
        sp := s.sp + 3, flags := flagsOfByte p, pc := BitVec.ofNat 16 (lo.toNat + 256 * hi.toNat) }

/-- 49_system.md rules R250, R251: BRK sets `halted`, with `PC` past it, and nothing else; NOP does nothing but advance.
Under sound tables a fetched BRK or NOP of the mode `imp` has the width 1. They are the spec's decisions D23, D25 and
D26. -/
def Obligations.BreakHaltsAndNopAdvances : Prop :=
  HasOpcode .brk 0x00 ∧ HasOpcode .nop 0xEA ∧
    ∀ s : State,
      Completes .brk s { advanced s with halted := true } ∧
      Completes .nop s (advanced s) ∧
      (s.cfg.wf = true → (fetchInstr s = .brk ∨ fetchInstr s = .nop) →
        s.cfg.tables.modeAt (memRead s s.pc) = .imp → (advanced s).pc = s.pc + 1)

/-- Rule R252, 60_exceptions.md rule R260: an `INVALID` byte under `fatal` sets `halted` and `decode_error` and
changes nothing else, `PC` still at the byte; under `nop` it is skipped as one byte and loads `INVALID_NOP_COST`. They
are the spec's decisions D12 and D13. -/
def Obligations.InvalidOpcodePolicies : Prop :=
  (∀ op ∈ invalidOpcodes, HasOpcode (.invalid op) op) ∧
    ∀ (op : Byte) (s : State),
      (s.cfg.invalidPolicy = .fatal →
        Completes (.invalid op) s { s with halted := true, decodeError := true }) ∧
      (s.cfg.invalidPolicy = .nop →
        Completes (.invalid op) s { s with pc := s.pc + 1, cycles := (s.cfg.invalidNopCost : Int) })

/-! ### Interrupts, reset, the environment -/

/-- 60_exceptions.md rules R262 to R265: an NMI is always taken, an IRQ exactly when `I = 0` and else leaves no trace.
An entry pushes `PC` high, `PC` low and the status byte with bit 5 set and bit 4 clear, sets `I`, and loads `PC` from
the vector's two bytes, read after the pushes; it changes nothing else, `cycles` and `halted` included. Bits 5 and 4
of the pushed byte are the spec's decision D11, the default vectors its D14, delivery at any time its D15. -/
def Obligations.InterruptDelivery : Prop :=
  ∀ (s : State) (l : List Input),
    let entered := fun (vector : Addr) (r : Result) =>
      ∃ u, r = .next u ∧ EndsStoring r s { s with
          inputs := l, sp := s.sp - 3, flags := { s.flags with i := true },
          pc := BitVec.ofNat 16 ((memRead u vector).toNat + 256 * (memRead u (vector + 1)).toNat) }
        [(stackCell s.sp, s.pc.extractLsb' 8 8), (stackCell (s.sp - 1), s.pc.extractLsb' 0 8),
          (stackCell (s.sp - 2), statusByte s.flags true false)]
    (s.inputs = .deliverNMI :: l → entered s.cfg.nmiVector (step s)) ∧
      (s.inputs = .deliverIRQ :: l → s.flags.i = false → entered s.cfg.irqVector (step s)) ∧
      (s.inputs = .deliverIRQ :: l → s.flags.i = true → step s = .next { s with inputs := l })

/-- Rule R270: NMI then IRQ drops the IRQ; IRQ then NMI, with `I = 0` before, performs both entries. It is the spec's
decision D16. -/
def Obligations.InterruptOrder : Prop :=
  ∀ (s : State) (l : List Input),
    (s.inputs = .deliverNMI :: .deliverIRQ :: l →
      Host.Core.run Sys2Proof.core 2 s = .next (interruptEntry { s with inputs := l } s.cfg.nmiVector)) ∧
    (s.inputs = .deliverIRQ :: .deliverNMI :: l → s.flags.i = false →
      Host.Core.run Sys2Proof.core 2 s =
        .next (interruptEntry (interruptEntry { s with inputs := l } s.cfg.irqVector) s.cfg.nmiVector))

/-- Rules R264, R243, R272: RTI is the exact reverse of an interrupt entry: it restores the six flags, `PC` and `SP`,
whatever ran in between, if `SP` is back and the three pushed bytes still stand in their stack cells. It is the spec's
reading of RTI as "the exact reverse of interrupt entry". -/
def Obligations.InterruptReturnUndoesEntry : Prop :=
  ∀ (s t' : State) (vector : Addr), Memory.wf s.mem → t'.sp = (interruptEntry s vector).sp →
    (∀ k ∈ ([0, 1, 2] : List Byte),
      memRead t' (stackCell (s.sp - k)) = memRead (interruptEntry s vector) (stackCell (s.sp - k))) →
    ∃ u, exec .rti t' = .next u ∧ u.flags = s.flags ∧ u.pc = s.pc ∧ u.sp = s.sp

/-- 10_state.md rule R39, 70_reset_and_hazards.md rule R300: the values reset leaves, and that the transition `Reset`
leaves them from any state, memory untouched. The values of SP and of the three one-bit signals are the spec's
decision D17. -/
def Obligations.ResetValues : Prop :=
  (∀ s : State, (s = State.reset ∨ ∃ s0, s = doReset s0) →
    s.a = 0x00 ∧ s.x = 0x00 ∧ s.y = 0x00 ∧ s.pc = 0x0000 ∧ s.sp = 0xFF ∧
      s.flags = ⟨false, false, false, false, false, false⟩ ∧ s.cycles = 0 ∧ s.halted = false ∧ s.dirty = false ∧
      s.decodeError = false) ∧
    ∀ (s : State) (l : List Input), s.inputs = .reset :: l →
      ∃ t, step s = .next t ∧ t = doReset { s with inputs := l } ∧ ∀ addr, memRead t addr = memRead s addr

/-- 60_exceptions.md rules R280 to R282, 70_reset_and_hazards.md rule R305: what each transition of the environment
does, and that it does nothing else; and that the boot contract leaves the reset state with the image in memory and
`PC` at its base. That SetPC, SetSP and Load act in every state, not at boot only, is the model's choice (log entry
4), and so is that EnvRead changes nothing (log entry 20). What ClearHalt leaves alone is the spec's decision D13. -/
def Obligations.EnvironmentTransitions : Prop :=
  ∀ (s : State) (l : List Input),
    (s.inputs = .clearHalt :: l → step s = .next { s with inputs := l, halted := false }) ∧
    (s.inputs = .clearDirty :: l → step s = .next { s with inputs := l, dirty := false }) ∧
    (∀ addr, s.inputs = .envRead addr :: l → step s = .next { s with inputs := l }) ∧
    (∀ pc, s.inputs = .setPC pc :: l → step s = .next { s with inputs := l, pc := pc }) ∧
    (∀ sp, s.inputs = .setSP sp :: l → step s = .next { s with inputs := l, sp := sp }) ∧
    (∀ addr v, s.inputs = .envWrite addr v :: l →
      ∃ t, step s = .next t ∧ t = { s with inputs := l, mem := t.mem } ∧
        (Memory.wf s.mem → ∀ b, memRead t b = readAfter s [(addr, v)] b)) ∧
    (∀ base bytes, s.inputs = .load base bytes :: l →
      ∃ t, step s = .next t ∧ t = { s with inputs := l, mem := t.mem } ∧
        (Memory.wf s.mem → ∀ b, memRead t b = readAfter s (imageWrites base bytes) b)) ∧
    ∀ base bytes, s.inputs = [.reset, .load base bytes, .setPC base, .setSP 0xFF] →
      ∃ t, Host.Core.run Sys2Proof.core 4 s = .next t ∧
        t = { doReset s with pc := base, inputs := [], mem := t.mem } ∧
        (Memory.wf s.mem → ∀ b, memRead t b = readAfter s (imageWrites base bytes) b)

/-! ### Other decode tables -/

/-- Rules R81, R82, R84: whatever the tables, an opcode byte classified `INVALID` is that byte's `INVALID` instruction,
and a valid one whose entries are as required decodes, with the operand bytes of its mode, to an instruction of the
operation `OP` gives it, with that operand; an operation of the mode `imp` alone has no use for one. That the tables are
a parameter is the spec's decision D25. -/
def Obligations.TablesSelectTheInstruction : Prop :=
  ∀ (t : Tables) (b : Byte) (rest : List Byte),
    (t.opAt b = none → decodeWith t (b :: rest) = .ok (.invalid b, rest)) ∧
      ∀ (op : Op) (o : Option Operand), t.entryOk b = true → t.opAt b = some op → t.modeAt b = modeOf o →
        ∃ i, decodeWith t (b :: operandBytes o ++ rest) = .ok (i, rest) ∧ i.op = some op ∧
          (i.operand = o ∨ (i.operand = none ∧ op.modes = [.imp]))
end

