-- ==== Sys2Proof/Laws/Memory.lean ====
section
/-! SUPPORT. The laws of the memory list and of the two address decodes: a cell reads as the last byte stored to it,
every store keeps the canonical form, and different cells have different keys. -/

namespace Sys2Proof.Machine

/-! ### The list -/

/-- A key below every listed key is not listed. -/
theorem lookup_of_lt (m : Memory) (k : Nat) (h : ∀ p ∈ m, k < p.1) : Memory.lookup m k = unlistedByte := by
  induction m with
  | nil => rfl
  | cons p m ih =>
    obtain ⟨j, w⟩ := p
    have hj : k < j := h (j, w) (by simp)
    simp only [Memory.lookup]
    rw [if_neg (by omega)]
    exact ih fun q hq => h q (by simp [hq])

/-- In canonical form a cell reads as the byte last stored to it, and every other cell as before. -/
theorem lookup_store (m : Memory) (hm : Memory.wf m) (k j : Nat) (v : Byte) :
    Memory.lookup (Memory.store m k v) j = if j = k then v else Memory.lookup m j := by
  induction m with
  | nil =>
    by_cases hv : v = unlistedByte
    · simp [Memory.store, Memory.lookup, hv]
    · by_cases hj : j = k
      · simp [Memory.store, Memory.lookup, hv, hj]
      · simp [Memory.store, Memory.lookup, hv, hj, Ne.symm hj]
  | cons p m ih =>
    obtain ⟨i, w⟩ := p
    obtain ⟨hp, hu⟩ := hm
    rw [List.pairwise_cons] at hp
    have hm' : Memory.wf m := ⟨hp.2, fun q hq => hu q (by simp [hq])⟩
    have hlt : ∀ q ∈ m, i < q.1 := hp.1
    simp only [Memory.store]
    by_cases h1 : i < k
    · simp only [h1, if_true, Memory.lookup]
      rw [ih hm']
      by_cases h2 : i = j
      · simp only [h2, if_true]
        rw [if_neg (by omega)]
      · simp [h2]
    · rw [if_neg h1]
      by_cases h2 : i = k
      · have hk : Memory.lookup m k = unlistedByte := lookup_of_lt m k (by rw [← h2]; exact hlt)
        by_cases hv : v = unlistedByte
        · subst h2
          by_cases hj : j = i
          · simp [hv, hj, hk]
          · simp [hv, hj, Memory.lookup, Ne.symm hj]
        · subst h2
          by_cases hj : j = i
          · simp [hv, hj, Memory.lookup]
          · simp [hv, hj, Memory.lookup, Ne.symm hj]
      · have hk : Memory.lookup ((i, w) :: m) k = unlistedByte := by
          refine lookup_of_lt _ k ?_
          intro q hq
          rcases List.mem_cons.mp hq with rfl | hq
          · show k < i
            omega
          · have := hlt q hq
            omega
        by_cases hv : v = unlistedByte
        · by_cases hj : j = k
          · simp [h2, hv, hj, hk]
          · simp [h2, hv, hj]
        · by_cases hj : j = k
          · simp [h2, hv, hj, Memory.lookup]
          · simp [h2, hv, hj, Memory.lookup, Ne.symm hj]

/-- What a store can list: the old entries and the new one. -/
theorem mem_store (m : Memory) (k : Nat) (v : Byte) (p : Host.Cell) (h : p ∈ Memory.store m k v) :
    p ∈ m ∨ (p = (k, v) ∧ v ≠ unlistedByte) := by
  induction m with
  | nil =>
    by_cases hv : v = unlistedByte <;> simp_all [Memory.store]
  | cons q m ih =>
    obtain ⟨j, w⟩ := q
    simp only [Memory.store] at h
    split at h
    · rcases List.mem_cons.mp h with rfl | h
      · simp
      · rcases ih h with h | h
        · simp [h]
        · exact .inr h
    · split at h <;> split at h <;> simp_all <;> tauto

/-- A store keeps the canonical form. -/
theorem store_wf (m : Memory) (hm : Memory.wf m) (k : Nat) (v : Byte) : Memory.wf (Memory.store m k v) := by
  refine ⟨?_, ?_⟩
  · induction m with
    | nil => by_cases hv : v = unlistedByte <;> simp [Memory.store, hv]
    | cons q m ih =>
      obtain ⟨j, w⟩ := q
      obtain ⟨hp, hu⟩ := hm
      rw [List.pairwise_cons] at hp
      have hm' : Memory.wf m := ⟨hp.2, fun q hq => hu q (by simp [hq])⟩
      simp only [Memory.store]
      by_cases h1 : j < k
      · rw [if_pos h1, List.pairwise_cons]
        refine ⟨?_, ih hm'⟩
        intro p hp'
        rcases mem_store m k v p hp' with h | ⟨rfl, -⟩
        · exact hp.1 p h
        · exact h1
      · rw [if_neg h1]
        by_cases h2 : j = k
        · by_cases hv : v = unlistedByte
          · simpa [h2, hv] using hp.2
          · simp only [h2, hv, if_true, if_false]
            rw [List.pairwise_cons]
            exact ⟨by rw [← h2]; exact hp.1, hp.2⟩
        · by_cases hv : v = unlistedByte
          · simp only [h2, hv, if_true, if_false]
            rw [List.pairwise_cons]
            exact hp
          · simp only [h2, hv, if_false]
            rw [List.pairwise_cons, List.pairwise_cons]
            refine ⟨?_, hp⟩
            intro p hp'
            rcases List.mem_cons.mp hp' with rfl | hp'
            · show k < j
              omega
            · have := hp.1 p hp'
              show k < p.1
              have hj : j < p.1 := this
              omega
  · intro p hp
    rcases mem_store m k v p hp with h | ⟨rfl, hv⟩
    · exact hm.2 p h
    · exact hv

/-! ### Address decode -/

/-- A decoded cell lies in its region. -/
theorem decodeAddr_index_lt (layout : Layout) (addr : Addr) :
    (decodeAddr layout addr).index < (decodeAddr layout addr).region.size := by
  have h := addr.isLt
  cases layout <;> simp only [decodeAddr]
  · simp only [Region.size]; omega
  · split
    · simp only [Region.size]; omega
    · split
      · simp only [Region.size]; omega
      · split
        · simp only [Region.size]; omega
        · split <;> simp only [Region.size] <;> omega

/-- Cells inside their regions have different keys. -/
theorem key_injective (c d : StorageCell) (hc : c.index < c.region.size) (hd : d.index < d.region.size)
    (h : c.key = d.key) : c = d := by
  obtain ⟨r, n⟩ := c
  obtain ⟨q, k⟩ := d
  cases r <;> cases q <;> simp only [StorageCell.key, Region.base, Region.size] at * <;> first
    | omega
    | (congr 1; omega)

/-- Two addresses have the same key exactly when they decode to the same cell. -/
theorem cellKey_eq_iff (layout : Layout) (a b : Addr) : cellKey layout a = cellKey layout b ↔ SameCell layout a b :=
  ⟨fun h => key_injective _ _ (decodeAddr_index_lt layout a) (decodeAddr_index_lt layout b) h,
    fun h => congrArg StorageCell.key h⟩

/-- The keys of the cells of `FlatMirrored`. -/
theorem layoutHasKey_flat (k : Nat) : layoutHasKey .flatMirrored k = true ↔ k < 0x0800 := by simp [layoutHasKey]

/-- The keys of the cells of `SegmentedMap`. -/
theorem layoutHasKey_segmented (k : Nat) : layoutHasKey .segmentedMap k = true ↔
    (k < 0x0800 ∨ (0x2000 ≤ k ∧ k < 0x2008)) ∨ (0x4000 ≤ k ∧ k < 0x10000) := by simp [layoutHasKey]

/-- The key of a decoded cell is one of the layout's. -/
theorem hasKey_cellKey (layout : Layout) (addr : Addr) : layoutHasKey layout (cellKey layout addr) = true := by
  have h := decodeAddr_index_lt layout addr
  have hr : layout = .flatMirrored → (decodeAddr layout addr).region = .ram := by rintro rfl; rfl
  unfold cellKey StorageCell.key
  generalize decodeAddr layout addr = c at h hr
  obtain ⟨r, n⟩ := c
  cases layout
  · obtain rfl : r = .ram := hr rfl
    simp only [Region.size] at h
    simpa [layoutHasKey_flat, Region.base] using h
  · cases r <;> simp only [Region.size] at h <;>
      simp only [layoutHasKey_segmented, Region.base] <;> omega

/-- A store to a decoded cell keeps memory inside the layout. -/
theorem store_inLayout (m : Memory) (layout : Layout) (addr : Addr) (v : Byte) (h : Memory.inLayout m layout) :
    Memory.inLayout (Memory.store m (cellKey layout addr) v) layout := by
  intro p hp
  rcases mem_store _ _ _ p hp with hp | ⟨rfl, -⟩
  · exact h p hp
  · exact hasKey_cellKey layout addr

/-- Each cell's number agrees with its addresses modulo 8, in either layout and every region. -/
theorem decodeAddr_index_mod_eight (layout : Layout) (addr : Addr) :
    (decodeAddr layout addr).index % 8 = addr.toNat % 8 := by
  cases layout <;> simp only [decodeAddr]
  · omega
  · split
    · show addr.toNat % 2048 % 8 = addr.toNat % 8
      omega
    · split
      · show (addr.toNat - 0x2000) % 8 % 8 = addr.toNat % 8
        omega
      · split
        · show (addr.toNat - 0x4000) % 8 = addr.toNat % 8
          omega
        · split
          · show (addr.toNat - 0x4018) % 8 = addr.toNat % 8
            omega
          · show (addr.toNat - 0x4020) % 8 = addr.toNat % 8
            omega

/-- Addresses of one cell agree modulo 8, so two addresses a few bytes apart are never of one cell. -/
theorem sameCell_mod_eight (layout : Layout) (a b : Addr) (h : SameCell layout a b) :
    a.toNat % 8 = b.toNat % 8 := by
  rw [← decodeAddr_index_mod_eight layout a, ← decodeAddr_index_mod_eight layout b, h]

/-- The next address is of another cell. -/
theorem not_sameCell_succ (layout : Layout) (a : Addr) : ¬ SameCell layout a (a + 1) := by
  intro h
  have := sameCell_mod_eight layout a (a + 1) h
  have := a.isLt
  simp [BitVec.toNat_add] at *
  omega

/-- Nor is the one after it. -/
theorem not_sameCell_add_two (layout : Layout) (a : Addr) : ¬ SameCell layout a (a + 2) := by
  intro h
  have := sameCell_mod_eight layout a (a + 2) h
  have := a.isLt
  simp [BitVec.toNat_add] at *
  omega

/-- When two addresses share a cell in `FlatMirrored`. -/
theorem sameCell_flat (a b : Addr) : SameCell .flatMirrored a b ↔ a.toNat % 2048 = b.toNat % 2048 := by
  constructor
  · exact congrArg StorageCell.index
  · intro h
    exact congrArg (StorageCell.mk .ram) h

/-- The key of each cell of `SegmentedMap` by its address. -/
theorem cellKey_segmented (a : Addr) : cellKey .segmentedMap a =
    if a.toNat < 0x2000 then a.toNat % 2048 else if a.toNat < 0x4000 then 0x2000 + a.toNat % 8 else a.toNat := by
  have ha := a.isLt
  unfold cellKey decodeAddr
  by_cases h1 : a.toNat < 0x2000
  · simp only [h1, show a.toNat ≤ 0x1FFF by omega, if_true, StorageCell.key, Region.base]
    omega
  by_cases h2 : a.toNat < 0x4000
  · simp only [h1, h2, show ¬ a.toNat ≤ 0x1FFF by omega, show a.toNat ≤ 0x3FFF by omega, if_true, if_false,
      StorageCell.key, Region.base]
    omega
  simp only [h1, h2, show ¬ a.toNat ≤ 0x1FFF by omega, show ¬ a.toNat ≤ 0x3FFF by omega, if_false]
  by_cases h3 : a.toNat ≤ 0x4017
  · simp only [h3, if_true, StorageCell.key, Region.base]
    omega
  by_cases h4 : a.toNat ≤ 0x401F
  · simp only [h3, h4, if_true, if_false, StorageCell.key, Region.base]
    omega
  · simp only [h3, h4, if_false, StorageCell.key, Region.base]
    omega

/-- When two addresses share a cell in `SegmentedMap`. -/
theorem sameCell_segmented (a b : Addr) : SameCell .segmentedMap a b ↔
    (a.toNat < 0x2000 ∧ b.toNat < 0x2000 ∧ a.toNat % 2048 = b.toNat % 2048) ∨
      (0x2000 ≤ a.toNat ∧ a.toNat < 0x4000 ∧ 0x2000 ≤ b.toNat ∧ b.toNat < 0x4000 ∧ a.toNat % 8 = b.toNat % 8) ∨
      (0x4000 ≤ a.toNat ∧ a.toNat = b.toNat) := by
  rw [← cellKey_eq_iff, cellKey_segmented, cellKey_segmented]
  split <;> split <;> (try split) <;> (try split) <;> omega

end Sys2Proof.Machine
end

