-- ==== Sys2Proof/Laws/State.lean ====
section
/-! SUPPORT. What each register write leaves in each field of the state. -/

namespace Sys2Proof.Machine

variable (s : State)

@[simp] theorem setA_a (v : Byte) : (s.setA v).a = v := rfl
@[simp] theorem setA_x (v : Byte) : (s.setA v).x = s.x := rfl
@[simp] theorem setA_y (v : Byte) : (s.setA v).y = s.y := rfl
@[simp] theorem setA_sp (v : Byte) : (s.setA v).sp = s.sp := rfl
@[simp] theorem setA_pc (v : Byte) : (s.setA v).pc = s.pc := rfl
@[simp] theorem setA_flags (v : Byte) : (s.setA v).flags = s.flags := rfl
@[simp] theorem setA_cycles (v : Byte) : (s.setA v).cycles = s.cycles := rfl
@[simp] theorem setA_halted (v : Byte) : (s.setA v).halted = s.halted := rfl
@[simp] theorem setA_dirty (v : Byte) : (s.setA v).dirty = s.dirty := rfl
@[simp] theorem setA_decodeError (v : Byte) : (s.setA v).decodeError = s.decodeError := rfl
@[simp] theorem setA_mem (v : Byte) : (s.setA v).mem = s.mem := rfl
@[simp] theorem setA_cfg (v : Byte) : (s.setA v).cfg = s.cfg := rfl
@[simp] theorem setA_inputs (v : Byte) : (s.setA v).inputs = s.inputs := rfl

@[simp] theorem setX_a (v : Byte) : (s.setX v).a = s.a := rfl
@[simp] theorem setX_x (v : Byte) : (s.setX v).x = v := rfl
@[simp] theorem setX_y (v : Byte) : (s.setX v).y = s.y := rfl
@[simp] theorem setX_sp (v : Byte) : (s.setX v).sp = s.sp := rfl
@[simp] theorem setX_pc (v : Byte) : (s.setX v).pc = s.pc := rfl
@[simp] theorem setX_flags (v : Byte) : (s.setX v).flags = s.flags := rfl
@[simp] theorem setX_cycles (v : Byte) : (s.setX v).cycles = s.cycles := rfl
@[simp] theorem setX_halted (v : Byte) : (s.setX v).halted = s.halted := rfl
@[simp] theorem setX_dirty (v : Byte) : (s.setX v).dirty = s.dirty := rfl
@[simp] theorem setX_decodeError (v : Byte) : (s.setX v).decodeError = s.decodeError := rfl
@[simp] theorem setX_mem (v : Byte) : (s.setX v).mem = s.mem := rfl
@[simp] theorem setX_cfg (v : Byte) : (s.setX v).cfg = s.cfg := rfl
@[simp] theorem setX_inputs (v : Byte) : (s.setX v).inputs = s.inputs := rfl

@[simp] theorem setY_a (v : Byte) : (s.setY v).a = s.a := rfl
@[simp] theorem setY_x (v : Byte) : (s.setY v).x = s.x := rfl
@[simp] theorem setY_y (v : Byte) : (s.setY v).y = v := rfl
@[simp] theorem setY_sp (v : Byte) : (s.setY v).sp = s.sp := rfl
@[simp] theorem setY_pc (v : Byte) : (s.setY v).pc = s.pc := rfl
@[simp] theorem setY_flags (v : Byte) : (s.setY v).flags = s.flags := rfl
@[simp] theorem setY_cycles (v : Byte) : (s.setY v).cycles = s.cycles := rfl
@[simp] theorem setY_halted (v : Byte) : (s.setY v).halted = s.halted := rfl
@[simp] theorem setY_dirty (v : Byte) : (s.setY v).dirty = s.dirty := rfl
@[simp] theorem setY_decodeError (v : Byte) : (s.setY v).decodeError = s.decodeError := rfl
@[simp] theorem setY_mem (v : Byte) : (s.setY v).mem = s.mem := rfl
@[simp] theorem setY_cfg (v : Byte) : (s.setY v).cfg = s.cfg := rfl
@[simp] theorem setY_inputs (v : Byte) : (s.setY v).inputs = s.inputs := rfl

@[simp] theorem setSp_a (v : Byte) : (s.setSp v).a = s.a := rfl
@[simp] theorem setSp_x (v : Byte) : (s.setSp v).x = s.x := rfl
@[simp] theorem setSp_y (v : Byte) : (s.setSp v).y = s.y := rfl
@[simp] theorem setSp_sp (v : Byte) : (s.setSp v).sp = v := rfl
@[simp] theorem setSp_pc (v : Byte) : (s.setSp v).pc = s.pc := rfl
@[simp] theorem setSp_flags (v : Byte) : (s.setSp v).flags = s.flags := rfl
@[simp] theorem setSp_cycles (v : Byte) : (s.setSp v).cycles = s.cycles := rfl
@[simp] theorem setSp_halted (v : Byte) : (s.setSp v).halted = s.halted := rfl
@[simp] theorem setSp_dirty (v : Byte) : (s.setSp v).dirty = s.dirty := rfl
@[simp] theorem setSp_decodeError (v : Byte) : (s.setSp v).decodeError = s.decodeError := rfl
@[simp] theorem setSp_mem (v : Byte) : (s.setSp v).mem = s.mem := rfl
@[simp] theorem setSp_cfg (v : Byte) : (s.setSp v).cfg = s.cfg := rfl
@[simp] theorem setSp_inputs (v : Byte) : (s.setSp v).inputs = s.inputs := rfl

@[simp] theorem setPc_a (v : Addr) : (s.setPc v).a = s.a := rfl
@[simp] theorem setPc_x (v : Addr) : (s.setPc v).x = s.x := rfl
@[simp] theorem setPc_y (v : Addr) : (s.setPc v).y = s.y := rfl
@[simp] theorem setPc_sp (v : Addr) : (s.setPc v).sp = s.sp := rfl
@[simp] theorem setPc_pc (v : Addr) : (s.setPc v).pc = v := rfl
@[simp] theorem setPc_flags (v : Addr) : (s.setPc v).flags = s.flags := rfl
@[simp] theorem setPc_cycles (v : Addr) : (s.setPc v).cycles = s.cycles := rfl
@[simp] theorem setPc_halted (v : Addr) : (s.setPc v).halted = s.halted := rfl
@[simp] theorem setPc_dirty (v : Addr) : (s.setPc v).dirty = s.dirty := rfl
@[simp] theorem setPc_decodeError (v : Addr) : (s.setPc v).decodeError = s.decodeError := rfl
@[simp] theorem setPc_mem (v : Addr) : (s.setPc v).mem = s.mem := rfl
@[simp] theorem setPc_cfg (v : Addr) : (s.setPc v).cfg = s.cfg := rfl
@[simp] theorem setPc_inputs (v : Addr) : (s.setPc v).inputs = s.inputs := rfl

@[simp] theorem setFlags_a (v : Flags) : (s.setFlags v).a = s.a := rfl
@[simp] theorem setFlags_x (v : Flags) : (s.setFlags v).x = s.x := rfl
@[simp] theorem setFlags_y (v : Flags) : (s.setFlags v).y = s.y := rfl
@[simp] theorem setFlags_sp (v : Flags) : (s.setFlags v).sp = s.sp := rfl
@[simp] theorem setFlags_pc (v : Flags) : (s.setFlags v).pc = s.pc := rfl
@[simp] theorem setFlags_flags (v : Flags) : (s.setFlags v).flags = v := rfl
@[simp] theorem setFlags_cycles (v : Flags) : (s.setFlags v).cycles = s.cycles := rfl
@[simp] theorem setFlags_halted (v : Flags) : (s.setFlags v).halted = s.halted := rfl
@[simp] theorem setFlags_dirty (v : Flags) : (s.setFlags v).dirty = s.dirty := rfl
@[simp] theorem setFlags_decodeError (v : Flags) : (s.setFlags v).decodeError = s.decodeError := rfl
@[simp] theorem setFlags_mem (v : Flags) : (s.setFlags v).mem = s.mem := rfl
@[simp] theorem setFlags_cfg (v : Flags) : (s.setFlags v).cfg = s.cfg := rfl
@[simp] theorem setFlags_inputs (v : Flags) : (s.setFlags v).inputs = s.inputs := rfl

@[simp] theorem setCycles_a (v : Int) : (s.setCycles v).a = s.a := rfl
@[simp] theorem setCycles_x (v : Int) : (s.setCycles v).x = s.x := rfl
@[simp] theorem setCycles_y (v : Int) : (s.setCycles v).y = s.y := rfl
@[simp] theorem setCycles_sp (v : Int) : (s.setCycles v).sp = s.sp := rfl
@[simp] theorem setCycles_pc (v : Int) : (s.setCycles v).pc = s.pc := rfl
@[simp] theorem setCycles_flags (v : Int) : (s.setCycles v).flags = s.flags := rfl
@[simp] theorem setCycles_cycles (v : Int) : (s.setCycles v).cycles = v := rfl
@[simp] theorem setCycles_halted (v : Int) : (s.setCycles v).halted = s.halted := rfl
@[simp] theorem setCycles_dirty (v : Int) : (s.setCycles v).dirty = s.dirty := rfl
@[simp] theorem setCycles_decodeError (v : Int) : (s.setCycles v).decodeError = s.decodeError := rfl
@[simp] theorem setCycles_mem (v : Int) : (s.setCycles v).mem = s.mem := rfl
@[simp] theorem setCycles_cfg (v : Int) : (s.setCycles v).cfg = s.cfg := rfl
@[simp] theorem setCycles_inputs (v : Int) : (s.setCycles v).inputs = s.inputs := rfl

@[simp] theorem setHalted_a (v : Bool) : (s.setHalted v).a = s.a := rfl
@[simp] theorem setHalted_x (v : Bool) : (s.setHalted v).x = s.x := rfl
@[simp] theorem setHalted_y (v : Bool) : (s.setHalted v).y = s.y := rfl
@[simp] theorem setHalted_sp (v : Bool) : (s.setHalted v).sp = s.sp := rfl
@[simp] theorem setHalted_pc (v : Bool) : (s.setHalted v).pc = s.pc := rfl
@[simp] theorem setHalted_flags (v : Bool) : (s.setHalted v).flags = s.flags := rfl
@[simp] theorem setHalted_cycles (v : Bool) : (s.setHalted v).cycles = s.cycles := rfl
@[simp] theorem setHalted_halted (v : Bool) : (s.setHalted v).halted = v := rfl
@[simp] theorem setHalted_dirty (v : Bool) : (s.setHalted v).dirty = s.dirty := rfl
@[simp] theorem setHalted_decodeError (v : Bool) : (s.setHalted v).decodeError = s.decodeError := rfl
@[simp] theorem setHalted_mem (v : Bool) : (s.setHalted v).mem = s.mem := rfl
@[simp] theorem setHalted_cfg (v : Bool) : (s.setHalted v).cfg = s.cfg := rfl
@[simp] theorem setHalted_inputs (v : Bool) : (s.setHalted v).inputs = s.inputs := rfl

@[simp] theorem setDirty_a (v : Bool) : (s.setDirty v).a = s.a := rfl
@[simp] theorem setDirty_x (v : Bool) : (s.setDirty v).x = s.x := rfl
@[simp] theorem setDirty_y (v : Bool) : (s.setDirty v).y = s.y := rfl
@[simp] theorem setDirty_sp (v : Bool) : (s.setDirty v).sp = s.sp := rfl
@[simp] theorem setDirty_pc (v : Bool) : (s.setDirty v).pc = s.pc := rfl
@[simp] theorem setDirty_flags (v : Bool) : (s.setDirty v).flags = s.flags := rfl
@[simp] theorem setDirty_cycles (v : Bool) : (s.setDirty v).cycles = s.cycles := rfl
@[simp] theorem setDirty_halted (v : Bool) : (s.setDirty v).halted = s.halted := rfl
@[simp] theorem setDirty_dirty (v : Bool) : (s.setDirty v).dirty = v := rfl
@[simp] theorem setDirty_decodeError (v : Bool) : (s.setDirty v).decodeError = s.decodeError := rfl
@[simp] theorem setDirty_mem (v : Bool) : (s.setDirty v).mem = s.mem := rfl
@[simp] theorem setDirty_cfg (v : Bool) : (s.setDirty v).cfg = s.cfg := rfl
@[simp] theorem setDirty_inputs (v : Bool) : (s.setDirty v).inputs = s.inputs := rfl

@[simp] theorem setDecodeError_a (v : Bool) : (s.setDecodeError v).a = s.a := rfl
@[simp] theorem setDecodeError_x (v : Bool) : (s.setDecodeError v).x = s.x := rfl
@[simp] theorem setDecodeError_y (v : Bool) : (s.setDecodeError v).y = s.y := rfl
@[simp] theorem setDecodeError_sp (v : Bool) : (s.setDecodeError v).sp = s.sp := rfl
@[simp] theorem setDecodeError_pc (v : Bool) : (s.setDecodeError v).pc = s.pc := rfl
@[simp] theorem setDecodeError_flags (v : Bool) : (s.setDecodeError v).flags = s.flags := rfl
@[simp] theorem setDecodeError_cycles (v : Bool) : (s.setDecodeError v).cycles = s.cycles := rfl
@[simp] theorem setDecodeError_halted (v : Bool) : (s.setDecodeError v).halted = s.halted := rfl
@[simp] theorem setDecodeError_dirty (v : Bool) : (s.setDecodeError v).dirty = s.dirty := rfl
@[simp] theorem setDecodeError_decodeError (v : Bool) : (s.setDecodeError v).decodeError = v := rfl
@[simp] theorem setDecodeError_mem (v : Bool) : (s.setDecodeError v).mem = s.mem := rfl
@[simp] theorem setDecodeError_cfg (v : Bool) : (s.setDecodeError v).cfg = s.cfg := rfl
@[simp] theorem setDecodeError_inputs (v : Bool) : (s.setDecodeError v).inputs = s.inputs := rfl

@[simp] theorem setMem_a (v : Memory) : (s.setMem v).a = s.a := rfl
@[simp] theorem setMem_x (v : Memory) : (s.setMem v).x = s.x := rfl
@[simp] theorem setMem_y (v : Memory) : (s.setMem v).y = s.y := rfl
@[simp] theorem setMem_sp (v : Memory) : (s.setMem v).sp = s.sp := rfl
@[simp] theorem setMem_pc (v : Memory) : (s.setMem v).pc = s.pc := rfl
@[simp] theorem setMem_flags (v : Memory) : (s.setMem v).flags = s.flags := rfl
@[simp] theorem setMem_cycles (v : Memory) : (s.setMem v).cycles = s.cycles := rfl
@[simp] theorem setMem_halted (v : Memory) : (s.setMem v).halted = s.halted := rfl
@[simp] theorem setMem_dirty (v : Memory) : (s.setMem v).dirty = s.dirty := rfl
@[simp] theorem setMem_decodeError (v : Memory) : (s.setMem v).decodeError = s.decodeError := rfl
@[simp] theorem setMem_mem (v : Memory) : (s.setMem v).mem = v := rfl
@[simp] theorem setMem_cfg (v : Memory) : (s.setMem v).cfg = s.cfg := rfl
@[simp] theorem setMem_inputs (v : Memory) : (s.setMem v).inputs = s.inputs := rfl

@[simp] theorem setInputs_a (v : List Input) : (s.setInputs v).a = s.a := rfl
@[simp] theorem setInputs_x (v : List Input) : (s.setInputs v).x = s.x := rfl
@[simp] theorem setInputs_y (v : List Input) : (s.setInputs v).y = s.y := rfl
@[simp] theorem setInputs_sp (v : List Input) : (s.setInputs v).sp = s.sp := rfl
@[simp] theorem setInputs_pc (v : List Input) : (s.setInputs v).pc = s.pc := rfl
@[simp] theorem setInputs_flags (v : List Input) : (s.setInputs v).flags = s.flags := rfl
@[simp] theorem setInputs_cycles (v : List Input) : (s.setInputs v).cycles = s.cycles := rfl
@[simp] theorem setInputs_halted (v : List Input) : (s.setInputs v).halted = s.halted := rfl
@[simp] theorem setInputs_dirty (v : List Input) : (s.setInputs v).dirty = s.dirty := rfl
@[simp] theorem setInputs_decodeError (v : List Input) : (s.setInputs v).decodeError = s.decodeError := rfl
@[simp] theorem setInputs_mem (v : List Input) : (s.setInputs v).mem = s.mem := rfl
@[simp] theorem setInputs_cfg (v : List Input) : (s.setInputs v).cfg = s.cfg := rfl
@[simp] theorem setInputs_inputs (v : List Input) : (s.setInputs v).inputs = v := rfl

@[simp] theorem setNZ_a (v : Byte) : (s.setNZ v).a = s.a := rfl
@[simp] theorem setNZ_x (v : Byte) : (s.setNZ v).x = s.x := rfl
@[simp] theorem setNZ_y (v : Byte) : (s.setNZ v).y = s.y := rfl
@[simp] theorem setNZ_sp (v : Byte) : (s.setNZ v).sp = s.sp := rfl
@[simp] theorem setNZ_pc (v : Byte) : (s.setNZ v).pc = s.pc := rfl
@[simp] theorem setNZ_flags (v : Byte) : (s.setNZ v).flags = s.flags.setNZ v := rfl
@[simp] theorem setNZ_cycles (v : Byte) : (s.setNZ v).cycles = s.cycles := rfl
@[simp] theorem setNZ_halted (v : Byte) : (s.setNZ v).halted = s.halted := rfl
@[simp] theorem setNZ_dirty (v : Byte) : (s.setNZ v).dirty = s.dirty := rfl
@[simp] theorem setNZ_decodeError (v : Byte) : (s.setNZ v).decodeError = s.decodeError := rfl
@[simp] theorem setNZ_mem (v : Byte) : (s.setNZ v).mem = s.mem := rfl
@[simp] theorem setNZ_cfg (v : Byte) : (s.setNZ v).cfg = s.cfg := rfl
@[simp] theorem setNZ_inputs (v : Byte) : (s.setNZ v).inputs = s.inputs := rfl

/-! `beginInstr` moves `PC` and loads `cycles`. -/

@[simp] theorem beginInstr_a : (beginInstr s).a = s.a := rfl
@[simp] theorem beginInstr_x : (beginInstr s).x = s.x := rfl
@[simp] theorem beginInstr_y : (beginInstr s).y = s.y := rfl
@[simp] theorem beginInstr_sp : (beginInstr s).sp = s.sp := rfl
@[simp] theorem beginInstr_pc : (beginInstr s).pc = s.pc + BitVec.ofNat 16 (fetchWidth s) := rfl
@[simp] theorem beginInstr_flags : (beginInstr s).flags = s.flags := rfl
@[simp] theorem beginInstr_cycles : (beginInstr s).cycles = fetchCost s := rfl
@[simp] theorem beginInstr_halted : (beginInstr s).halted = s.halted := rfl
@[simp] theorem beginInstr_dirty : (beginInstr s).dirty = s.dirty := rfl
@[simp] theorem beginInstr_decodeError : (beginInstr s).decodeError = s.decodeError := rfl
@[simp] theorem beginInstr_mem : (beginInstr s).mem = s.mem := rfl
@[simp] theorem beginInstr_cfg : (beginInstr s).cfg = s.cfg := rfl
@[simp] theorem beginInstr_inputs : (beginInstr s).inputs = s.inputs := rfl

end Sys2Proof.Machine
end

