-- ==== Sys2Proof/Laws/Ops.lean ====
section
/-! SUPPORT. One law per shared operation: the memory port, the stack, the exception operations. -/

namespace Sys2Proof.Machine

/-! ### Byte order -/

/-- The value of a word is `hi * 256 + lo`. -/
theorem word_toNat (hi lo : Byte) : (word hi lo).toNat = hi.toNat * 256 + lo.toNat := by
  rw [word, BitVec.toNat_append, ← Nat.shiftLeft_add_eq_or_of_lt lo.isLt, Nat.shiftLeft_eq]

theorem lowByte_toNat (w : Addr) : (lowByte w).toNat = w.toNat % 256 := by
  simp [lowByte, BitVec.extractLsb'_toNat]

theorem highByte_toNat (w : Addr) : (highByte w).toNat = w.toNat / 256 := by
  have := w.isLt
  simp [highByte, BitVec.extractLsb'_toNat, Nat.shiftRight_eq_div_pow]
  omega

@[simp] theorem lowByte_word (hi lo : Byte) : lowByte (word hi lo) = lo := by
  have := lo.isLt
  apply BitVec.eq_of_toNat_eq
  rw [lowByte_toNat, word_toNat]
  omega

@[simp] theorem highByte_word (hi lo : Byte) : highByte (word hi lo) = hi := by
  have := lo.isLt
  apply BitVec.eq_of_toNat_eq
  rw [highByte_toNat, word_toNat]
  omega

@[simp] theorem word_bytes (w : Addr) : word (highByte w) (lowByte w) = w := by
  apply BitVec.eq_of_toNat_eq
  rw [word_toNat, highByte_toNat, lowByte_toNat]
  omega

/-! ### Reads see only memory and the layout -/

@[simp] theorem memRead_setA (s : State) (v : Byte) (addr : Addr) : memRead (s.setA v) addr = memRead s addr := rfl
@[simp] theorem memRead_setX (s : State) (v : Byte) (addr : Addr) : memRead (s.setX v) addr = memRead s addr := rfl
@[simp] theorem memRead_setY (s : State) (v : Byte) (addr : Addr) : memRead (s.setY v) addr = memRead s addr := rfl
@[simp] theorem memRead_setSp (s : State) (v : Byte) (addr : Addr) : memRead (s.setSp v) addr = memRead s addr := rfl
@[simp] theorem memRead_setPc (s : State) (v : Addr) (addr : Addr) : memRead (s.setPc v) addr = memRead s addr := rfl
@[simp] theorem memRead_setFlags (s : State) (v : Flags) (addr : Addr) : memRead (s.setFlags v) addr = memRead s addr := rfl
@[simp] theorem memRead_setCycles (s : State) (v : Int) (addr : Addr) : memRead (s.setCycles v) addr = memRead s addr := rfl
@[simp] theorem memRead_setHalted (s : State) (v : Bool) (addr : Addr) : memRead (s.setHalted v) addr = memRead s addr := rfl
@[simp] theorem memRead_setDirty (s : State) (v : Bool) (addr : Addr) : memRead (s.setDirty v) addr = memRead s addr := rfl
@[simp] theorem memRead_setDecodeError (s : State) (v : Bool) (addr : Addr) : memRead (s.setDecodeError v) addr = memRead s addr := rfl
@[simp] theorem memRead_setInputs (s : State) (v : List Input) (addr : Addr) : memRead (s.setInputs v) addr = memRead s addr := rfl
@[simp] theorem memRead_setNZ (s : State) (v : Byte) (addr : Addr) : memRead (s.setNZ v) addr = memRead s addr := rfl
@[simp] theorem memRead_beginInstr (s : State) (addr : Addr) :
    memRead (beginInstr s) addr = memRead s addr := rfl

@[simp] theorem memRead16_setA (s : State) (v : Byte) (addr : Addr) : memRead16 (s.setA v) addr = memRead16 s addr := rfl
@[simp] theorem memRead16_setX (s : State) (v : Byte) (addr : Addr) : memRead16 (s.setX v) addr = memRead16 s addr := rfl
@[simp] theorem memRead16_setY (s : State) (v : Byte) (addr : Addr) : memRead16 (s.setY v) addr = memRead16 s addr := rfl
@[simp] theorem memRead16_setSp (s : State) (v : Byte) (addr : Addr) : memRead16 (s.setSp v) addr = memRead16 s addr := rfl
@[simp] theorem memRead16_setPc (s : State) (v : Addr) (addr : Addr) : memRead16 (s.setPc v) addr = memRead16 s addr := rfl
@[simp] theorem memRead16_setFlags (s : State) (v : Flags) (addr : Addr) : memRead16 (s.setFlags v) addr = memRead16 s addr := rfl
@[simp] theorem memRead16_setCycles (s : State) (v : Int) (addr : Addr) : memRead16 (s.setCycles v) addr = memRead16 s addr := rfl
@[simp] theorem memRead16_setHalted (s : State) (v : Bool) (addr : Addr) : memRead16 (s.setHalted v) addr = memRead16 s addr := rfl
@[simp] theorem memRead16_setDirty (s : State) (v : Bool) (addr : Addr) : memRead16 (s.setDirty v) addr = memRead16 s addr := rfl
@[simp] theorem memRead16_setDecodeError (s : State) (v : Bool) (addr : Addr) : memRead16 (s.setDecodeError v) addr = memRead16 s addr := rfl
@[simp] theorem memRead16_setInputs (s : State) (v : List Input) (addr : Addr) : memRead16 (s.setInputs v) addr = memRead16 s addr := rfl
@[simp] theorem memRead16_setNZ (s : State) (v : Byte) (addr : Addr) : memRead16 (s.setNZ v) addr = memRead16 s addr := rfl
@[simp] theorem memRead16_beginInstr (s : State) (addr : Addr) :
    memRead16 (beginInstr s) addr = memRead16 s addr := rfl

/-- Reads agree on states with the same memory and layout. -/
theorem memRead_congr (s t : State) (hm : t.mem = s.mem) (hc : t.cfg = s.cfg) (addr : Addr) :
    memRead t addr = memRead s addr := by simp only [memRead, hm, hc]

/-! ### `MemWrite` -/

@[simp] theorem memWrite_a (s : State) (addr : Addr) (v : Byte) : (memWrite s addr v).a = s.a := rfl
@[simp] theorem memWrite_x (s : State) (addr : Addr) (v : Byte) : (memWrite s addr v).x = s.x := rfl
@[simp] theorem memWrite_y (s : State) (addr : Addr) (v : Byte) : (memWrite s addr v).y = s.y := rfl
@[simp] theorem memWrite_sp (s : State) (addr : Addr) (v : Byte) : (memWrite s addr v).sp = s.sp := rfl
@[simp] theorem memWrite_pc (s : State) (addr : Addr) (v : Byte) : (memWrite s addr v).pc = s.pc := rfl
@[simp] theorem memWrite_flags (s : State) (addr : Addr) (v : Byte) : (memWrite s addr v).flags = s.flags := rfl
@[simp] theorem memWrite_cycles (s : State) (addr : Addr) (v : Byte) : (memWrite s addr v).cycles = s.cycles := rfl
@[simp] theorem memWrite_halted (s : State) (addr : Addr) (v : Byte) : (memWrite s addr v).halted = s.halted := rfl
@[simp] theorem memWrite_dirty (s : State) (addr : Addr) (v : Byte) : (memWrite s addr v).dirty = (s.dirty || dirtyQualifies s.cfg addr) := rfl
@[simp] theorem memWrite_decodeError (s : State) (addr : Addr) (v : Byte) : (memWrite s addr v).decodeError = s.decodeError := rfl
@[simp] theorem memWrite_mem (s : State) (addr : Addr) (v : Byte) : (memWrite s addr v).mem = Memory.store s.mem (cellKey s.cfg.layout addr) v := rfl
@[simp] theorem memWrite_cfg (s : State) (addr : Addr) (v : Byte) : (memWrite s addr v).cfg = s.cfg := rfl
@[simp] theorem memWrite_inputs (s : State) (addr : Addr) (v : Byte) : (memWrite s addr v).inputs = s.inputs := rfl

/-- A byte written reads back at every address of its cell, and every other address reads as before. -/
theorem memRead_memWrite (s : State) (hm : Memory.wf s.mem) (addr : Addr) (v : Byte) (b : Addr) :
    memRead (memWrite s addr v) b = if SameCell s.cfg.layout b addr then v else memRead s b := by
  have h := lookup_store s.mem hm (cellKey s.cfg.layout addr) (cellKey s.cfg.layout b) v
  by_cases hb : SameCell s.cfg.layout b addr
  · rw [if_pos ((cellKey_eq_iff _ _ _).mpr hb)] at h
    rw [if_pos hb]
    exact h
  · rw [if_neg (fun hk => hb ((cellKey_eq_iff _ _ _).mp hk))] at h
    rw [if_neg hb]
    exact h

/-- The same of the environment's write. -/
theorem memRead_pokeByte (s : State) (hm : Memory.wf s.mem) (addr : Addr) (v : Byte) (b : Addr) :
    memRead (pokeByte s addr v) b = if SameCell s.cfg.layout b addr then v else memRead s b :=
  memRead_memWrite s hm addr v b

theorem memWrite_wf (s : State) (hm : Memory.wf s.mem) (addr : Addr) (v : Byte) : Memory.wf (memWrite s addr v).mem :=
  store_wf s.mem hm _ v

theorem pokeByte_wf (s : State) (hm : Memory.wf s.mem) (addr : Addr) (v : Byte) : Memory.wf (pokeByte s addr v).mem :=
  store_wf s.mem hm _ v

/-! ### The stack -/

theorem stackAddr_toNat (sp : Byte) : (stackAddr sp).toNat = 256 + sp.toNat := by
  have := sp.isLt
  simp [stackAddr, BitVec.toNat_add]
  omega

/-- Different stack pointers name different cells, whatever the layout. -/
theorem sameCell_stackAddr (layout : Layout) (p q : Byte) :
    SameCell layout (stackAddr p) (stackAddr q) ↔ p = q := by
  constructor
  · intro h
    have hp := p.isLt
    have hq := q.isLt
    have hidx := congrArg StorageCell.index h
    apply BitVec.eq_of_toNat_eq
    cases layout
    · simp only [decodeAddr, stackAddr_toNat] at hidx
      omega
    · simp only [decodeAddr, stackAddr_toNat] at hidx
      rw [if_pos (by omega), if_pos (by omega)] at hidx
      simp only at hidx
      omega
  · rintro rfl
    rfl

/-- `Push8` is a write at the old `SP` and the decrement, and nothing else. -/
theorem push8_eq (s : State) (v : Byte) : push8 s v = (memWrite s (stackAddr s.sp) v).setSp (s.sp - 1) := rfl

/-- `Push16` is the two pushes, the high byte first. -/
theorem push16_eq (s : State) (w : Addr) : push16 s w = push8 (push8 s (highByte w)) (lowByte w) := rfl

/-- `Pull8` increments `SP`, and answers the byte there. -/
@[simp] theorem pull8_eq (s : State) : pull8 s = (memRead s (stackAddr (s.sp + 1)), s.setSp (s.sp + 1)) := rfl

/-- `Pull16` answers the word at the two cells above `SP`, the low byte the first of them. -/
@[simp] theorem pull16_eq (s : State) : pull16 s =
    (word (memRead s (stackAddr (s.sp + 1 + 1))) (memRead s (stackAddr (s.sp + 1))), s.setSp (s.sp + 1 + 1)) := rfl

theorem push8_wf (s : State) (hm : Memory.wf s.mem) (v : Byte) : Memory.wf (push8 s v).mem := store_wf s.mem hm _ v

theorem push16_wf (s : State) (hm : Memory.wf s.mem) (w : Addr) : Memory.wf (push16 s w).mem :=
  push8_wf _ (push8_wf s hm _) _

@[simp] theorem push8_a (s : State) (v : Byte) : (push8 s v).a = s.a := rfl
@[simp] theorem push8_x (s : State) (v : Byte) : (push8 s v).x = s.x := rfl
@[simp] theorem push8_y (s : State) (v : Byte) : (push8 s v).y = s.y := rfl
@[simp] theorem push8_pc (s : State) (v : Byte) : (push8 s v).pc = s.pc := rfl
@[simp] theorem push8_flags (s : State) (v : Byte) : (push8 s v).flags = s.flags := rfl
@[simp] theorem push8_cycles (s : State) (v : Byte) : (push8 s v).cycles = s.cycles := rfl
@[simp] theorem push8_halted (s : State) (v : Byte) : (push8 s v).halted = s.halted := rfl
@[simp] theorem push8_decodeError (s : State) (v : Byte) : (push8 s v).decodeError = s.decodeError := rfl
@[simp] theorem push8_cfg (s : State) (v : Byte) : (push8 s v).cfg = s.cfg := rfl
@[simp] theorem push8_inputs (s : State) (v : Byte) : (push8 s v).inputs = s.inputs := rfl
@[simp] theorem push16_a (s : State) (v : Addr) : (push16 s v).a = s.a := rfl
@[simp] theorem push16_x (s : State) (v : Addr) : (push16 s v).x = s.x := rfl
@[simp] theorem push16_y (s : State) (v : Addr) : (push16 s v).y = s.y := rfl
@[simp] theorem push16_pc (s : State) (v : Addr) : (push16 s v).pc = s.pc := rfl
@[simp] theorem push16_flags (s : State) (v : Addr) : (push16 s v).flags = s.flags := rfl
@[simp] theorem push16_cycles (s : State) (v : Addr) : (push16 s v).cycles = s.cycles := rfl
@[simp] theorem push16_halted (s : State) (v : Addr) : (push16 s v).halted = s.halted := rfl
@[simp] theorem push16_decodeError (s : State) (v : Addr) : (push16 s v).decodeError = s.decodeError := rfl
@[simp] theorem push16_cfg (s : State) (v : Addr) : (push16 s v).cfg = s.cfg := rfl
@[simp] theorem push16_inputs (s : State) (v : Addr) : (push16 s v).inputs = s.inputs := rfl
@[simp] theorem push8_sp (s : State) (v : Byte) : (push8 s v).sp = s.sp - 1 := rfl
@[simp] theorem push16_sp (s : State) (v : Addr) : (push16 s v).sp = s.sp - 1 - 1 := rfl
@[simp] theorem push8_dirty (s : State) (v : Byte) :
    (push8 s v).dirty = (s.dirty || dirtyQualifies s.cfg (stackAddr s.sp)) := rfl
@[simp] theorem push16_dirty (s : State) (v : Addr) :
    (push16 s v).dirty =
      ((s.dirty || dirtyQualifies s.cfg (stackAddr s.sp)) || dirtyQualifies s.cfg (stackAddr (s.sp - 1))) := rfl

@[simp] theorem push8_mem (s : State) (v : Byte) :
    (push8 s v).mem = Memory.store s.mem (cellKey s.cfg.layout (stackAddr s.sp)) v := rfl
@[simp] theorem push16_mem (s : State) (w : Addr) :
    (push16 s w).mem =
      Memory.store (Memory.store s.mem (cellKey s.cfg.layout (stackAddr s.sp)) (highByte w))
        (cellKey s.cfg.layout (stackAddr (s.sp - 1))) (lowByte w) := rfl

/-- What a pushed byte does to every read. -/
theorem memRead_push8 (s : State) (hm : Memory.wf s.mem) (v : Byte) (b : Addr) :
    memRead (push8 s v) b = if SameCell s.cfg.layout b (stackAddr s.sp) then v else memRead s b :=
  memRead_memWrite s hm (stackAddr s.sp) v b

/-- What a pushed word does to every read: the low byte was pushed last. -/
theorem memRead_push16 (s : State) (hm : Memory.wf s.mem) (w : Addr) (b : Addr) :
    memRead (push16 s w) b =
      if SameCell s.cfg.layout b (stackAddr (s.sp - 1)) then lowByte w
      else if SameCell s.cfg.layout b (stackAddr s.sp) then highByte w else memRead s b := by
  rw [push16_eq, memRead_push8 _ (push8_wf s hm _), memRead_push8 s hm]
  rfl

/-! ### Exceptions -/

@[simp] theorem raiseDecodeError_a (s : State) : (raiseDecodeError s).a = s.a := rfl
@[simp] theorem raiseDecodeError_x (s : State) : (raiseDecodeError s).x = s.x := rfl
@[simp] theorem raiseDecodeError_y (s : State) : (raiseDecodeError s).y = s.y := rfl
@[simp] theorem raiseDecodeError_sp (s : State) : (raiseDecodeError s).sp = s.sp := rfl
@[simp] theorem raiseDecodeError_pc (s : State) : (raiseDecodeError s).pc = s.pc := rfl
@[simp] theorem raiseDecodeError_flags (s : State) : (raiseDecodeError s).flags = s.flags := rfl
@[simp] theorem raiseDecodeError_cycles (s : State) : (raiseDecodeError s).cycles = s.cycles := rfl
@[simp] theorem raiseDecodeError_halted (s : State) : (raiseDecodeError s).halted = true := rfl
@[simp] theorem raiseDecodeError_dirty (s : State) : (raiseDecodeError s).dirty = s.dirty := rfl
@[simp] theorem raiseDecodeError_decodeError (s : State) : (raiseDecodeError s).decodeError = true := rfl
@[simp] theorem raiseDecodeError_mem (s : State) : (raiseDecodeError s).mem = s.mem := rfl
@[simp] theorem raiseDecodeError_cfg (s : State) : (raiseDecodeError s).cfg = s.cfg := rfl
@[simp] theorem raiseDecodeError_inputs (s : State) : (raiseDecodeError s).inputs = s.inputs := rfl

/-- The stack as an interrupt entry leaves it: `PC` high, `PC` low, the status byte with bit 5 set and bit 4 clear. -/
def entryPushes (s : State) : State := push8 (push16 s s.pc) (s.flags.pack true false)

/-- All an interrupt entry does: the three pushes, `I <- 1`, and `PC` from the vector word read after them. -/
theorem interruptEntry_eq (s : State) (vector : Addr) :
    interruptEntry s vector =
      ((entryPushes s).setFlags { s.flags with i := true }).setPc (memRead16 (entryPushes s) vector) := rfl

@[simp] theorem interruptEntry_a (s : State) (v : Addr) : (interruptEntry s v).a = s.a := by
  simp [interruptEntry_eq, entryPushes]
@[simp] theorem interruptEntry_x (s : State) (v : Addr) : (interruptEntry s v).x = s.x := by
  simp [interruptEntry_eq, entryPushes]
@[simp] theorem interruptEntry_y (s : State) (v : Addr) : (interruptEntry s v).y = s.y := by
  simp [interruptEntry_eq, entryPushes]
@[simp] theorem interruptEntry_sp (s : State) (v : Addr) : (interruptEntry s v).sp = s.sp - 1 - 1 - 1 := by
  simp [interruptEntry_eq, entryPushes]
@[simp] theorem interruptEntry_flags (s : State) (v : Addr) : (interruptEntry s v).flags = { s.flags with i := true } := by
  simp [interruptEntry_eq, entryPushes]
@[simp] theorem interruptEntry_cycles (s : State) (v : Addr) : (interruptEntry s v).cycles = s.cycles := by
  simp [interruptEntry_eq, entryPushes]
@[simp] theorem interruptEntry_halted (s : State) (v : Addr) : (interruptEntry s v).halted = s.halted := by
  simp [interruptEntry_eq, entryPushes]
@[simp] theorem interruptEntry_decodeError (s : State) (v : Addr) : (interruptEntry s v).decodeError = s.decodeError := by
  simp [interruptEntry_eq, entryPushes]
@[simp] theorem interruptEntry_cfg (s : State) (v : Addr) : (interruptEntry s v).cfg = s.cfg := by
  simp [interruptEntry_eq, entryPushes]
@[simp] theorem interruptEntry_inputs (s : State) (v : Addr) : (interruptEntry s v).inputs = s.inputs := by
  simp [interruptEntry_eq, entryPushes]
@[simp] theorem interruptEntry_mem (s : State) (v : Addr) :
    (interruptEntry s v).mem =
      Memory.store
        (Memory.store (Memory.store s.mem (cellKey s.cfg.layout (stackAddr s.sp)) (highByte s.pc))
          (cellKey s.cfg.layout (stackAddr (s.sp - 1))) (lowByte s.pc))
        (cellKey s.cfg.layout (stackAddr (s.sp - 1 - 1))) (s.flags.pack true false) := by
  simp [interruptEntry_eq, entryPushes]

/-- All a return from an interrupt does: flags from the first byte pulled, `PC` from the next two, `SP` up by 3. -/
theorem returnFromInterrupt_eq (s : State) :
    returnFromInterrupt s =
      ((s.setFlags (Flags.unpack (memRead s (stackAddr (s.sp + 1))))).setSp (s.sp + 1 + 1 + 1)).setPc
        (word (memRead s (stackAddr (s.sp + 1 + 1 + 1))) (memRead s (stackAddr (s.sp + 1 + 1)))) := rfl

/-- Unpacking a packed status byte gives the flags back, whatever bits 5 and 4 were. -/
@[simp] theorem unpack_pack (f : Flags) (b5 b4 : Bool) : Flags.unpack (f.pack b5 b4) = f := by
  obtain ⟨n, v, d, i, z, c⟩ := f
  cases n <;> cases v <;> cases d <;> cases i <;> cases z <;> cases c <;> cases b5 <;> cases b4 <;> decide

/-! ### The terms of Safety.lean -/

theorem setNZ_eq_withNZ (f : Flags) (v : Byte) : f.setNZ v = withNZ f v := rfl
theorem unpack_eq_flagsOfByte (v : Byte) : Flags.unpack v = flagsOfByte v := rfl
theorem stackAddr_eq_stackCell (sp : Byte) : stackAddr sp = stackCell sp := rfl

theorem pack_eq_statusByte (f : Flags) (b5 b4 : Bool) : f.pack b5 b4 = statusByte f b5 b4 := by
  obtain ⟨n, v, d, i, z, c⟩ := f
  cases n <;> cases v <;> cases d <;> cases i <;> cases z <;> cases c <;> cases b5 <;> cases b4 <;> decide

/-- The operations before `exec` proper, as one record. -/
theorem beginInstr_eq_advanced (s : State) : beginInstr s = advanced s := rfl

end Sys2Proof.Machine
end

