-- ==== Sys2Proof/Laws/Operands.lean ====
section
/-! SUPPORT. What reading an operand and the target of a shift can do. -/

namespace Sys2Proof.Machine

/-- An immediate operand is the instruction's own byte. -/
@[simp] theorem operandByte_imm (b1 : Byte) (s : State) : operandByte (.imm b1) s = b1 := rfl

/-- Any other operand is the byte at its effective address. -/
theorem operandByte_of_mode_ne (o : Operand) (s : State) (h : o.mode ≠ .imm) :
    operandByte o s = memRead s (resolve o s) := by
  cases o <;> first | rfl | exact absurd rfl h

@[simp] theorem readTarget_none (s : State) : readTarget none s = s.a := rfl
@[simp] theorem readTarget_some (addr : Addr) (s : State) : readTarget (some addr) s = memRead s addr := rfl
@[simp] theorem writeTarget_none (s : State) (r : Byte) : writeTarget none s r = s.setA r := rfl
@[simp] theorem writeTarget_some (addr : Addr) (s : State) (r : Byte) :
    writeTarget (some addr) s r = memWrite s addr r := rfl

/-- Writing a shift back keeps the canonical form of memory. -/
theorem writeTarget_wf (ea : Option Addr) (s : State) (hm : Memory.wf s.mem) (r : Byte) :
    Memory.wf (writeTarget ea s r).mem := by
  cases ea
  · exact hm
  · exact memWrite_wf s hm _ r

end Sys2Proof.Machine
end

