-- ==== Sys2Proof/Laws/Exec.lean ====
section
/-! SUPPORT. What executing an instruction can do to memory, said once for all instructions: it stores a list of
bytes, each to the cell of an address, and leaves the configuration alone. -/

namespace Sys2Proof.Machine

/-- The memory after the bytes `ws` are stored, in their order. -/
def storeAll (layout : Layout) (m : Memory) (ws : List (Addr × Byte)) : Memory :=
  ws.foldl (fun m w => Memory.store m (cellKey layout w.1) w.2) m

@[simp] theorem storeAll_nil (layout : Layout) (m : Memory) : storeAll layout m [] = m := rfl
@[simp] theorem storeAll_cons (layout : Layout) (m : Memory) (w : Addr × Byte) (ws : List (Addr × Byte)) :
    storeAll layout m (w :: ws) = storeAll layout (Memory.store m (cellKey layout w.1) w.2) ws := rfl

/-- Storing bytes keeps the canonical form. -/
theorem storeAll_wf (layout : Layout) (ws : List (Addr × Byte)) (m : Memory) (hm : Memory.wf m) :
    Memory.wf (storeAll layout m ws) := by
  induction ws generalizing m with
  | nil => exact hm
  | cons w ws ih => exact ih _ (store_wf m hm _ _)

/-- Storing bytes to the cells of addresses keeps memory inside the layout. -/
theorem storeAll_inLayout (layout : Layout) (ws : List (Addr × Byte)) (m : Memory) (hm : Memory.inLayout m layout) :
    Memory.inLayout (storeAll layout m ws) layout := by
  induction ws generalizing m with
  | nil => exact hm
  | cons w ws ih => exact ih _ (store_inLayout m layout _ _ hm)

/-- What reads see of a state whose memory is another's with bytes stored. -/
theorem memRead_of_storeAll (s t : State) (ws : List (Addr × Byte)) (hm : Memory.wf s.mem)
    (ht : t.mem = storeAll s.cfg.layout s.mem ws) (hc : t.cfg = s.cfg) (b : Addr) :
    memRead t b = readAfter s ws b := by
  have h : ∀ (ws : List (Addr × Byte)) (m : Memory), Memory.wf m →
      Memory.lookup (storeAll s.cfg.layout m ws) (cellKey s.cfg.layout b) =
        ws.foldl (fun v w => if SameCell s.cfg.layout b w.1 then w.2 else v)
          (Memory.lookup m (cellKey s.cfg.layout b)) := by
    intro ws
    induction ws with
    | nil => intro m _; rfl
    | cons w ws ih =>
      intro m hm
      rw [storeAll_cons, ih _ (store_wf m hm _ _), lookup_store m hm, List.foldl_cons]
      by_cases h : SameCell s.cfg.layout b w.1
      · rw [if_pos h, if_pos ((cellKey_eq_iff _ _ _).mpr h)]
      · rw [if_neg h, if_neg (fun hk => h ((cellKey_eq_iff _ _ _).mp hk))]
  simpa only [memRead, ht, hc, readAfter] using h ws s.mem hm

/-- Writes leave every address alone that is the cell of none of them. -/
theorem readAfter_of_not_sameCell (s : State) (ws : List (Addr × Byte)) (a : Addr)
    (h : ∀ w ∈ ws.map Prod.fst, ¬ SameCell s.cfg.layout a w) : readAfter s ws a = memRead s a := by
  unfold readAfter
  generalize memRead s a = v
  induction ws generalizing v with
  | nil => rfl
  | cons w ws ih =>
    rw [List.foldl_cons, if_neg (h w.1 (by simp))]
    exact ih (fun x hx => h x (by simp at hx ⊢; exact .inr hx)) v

/-- An interrupt entry stores three bytes. -/
theorem interruptEntry_stores (s : State) (v : Addr) :
    (interruptEntry s v).mem = storeAll s.cfg.layout s.mem
      [(stackAddr s.sp, highByte s.pc), (stackAddr (s.sp - 1), lowByte s.pc),
        (stackAddr (s.sp - 1 - 1), s.flags.pack true false)] := by
  simp

/-- A branch changes `PC` alone. -/
theorem branchIf_mem (s : State) (taken : Bool) (ea : Addr) :
    (branchIf s taken ea).mem = s.mem ∧ (branchIf s taken ea).cfg = s.cfg ∧ (branchIf s taken ea).dirty = s.dirty := by
  cases taken <;> exact ⟨rfl, rfl, rfl⟩

/-- A shift stores its result, or nothing where its target is the accumulator. -/
theorem writeShift_stores (ea : Option Addr) (s t : State) (r : Byte) (carry : Bool) (hm : t.mem = s.mem)
    (hc : t.cfg = s.cfg) (hd : t.dirty = s.dirty) :
    (writeShift ea t r carry).cfg = s.cfg ∧ (writeShift ea t r carry).dirty = (s.dirty || anyQualifies s ea.toList) ∧
      (writeShift ea t r carry).mem = storeAll s.cfg.layout s.mem (ea.toList.map (fun addr => (addr, r))) := by
  cases ea <;> simp [writeShift, anyQualifies, hm, hc, hd]

/-- Every instruction leaves the configuration alone, stores a byte at each address `writeAddrs` gives, in their order,
and sets `dirty` if one of them qualifies. -/
theorem exec_stores (i : Instr) (s t : State) (h : exec i s = .next t) :
    t.cfg = s.cfg ∧ t.dirty = (s.dirty || anyQualifies s (writeAddrs i s)) ∧
      ∃ ws, ws.map Prod.fst = writeAddrs i s ∧ t.mem = storeAll s.cfg.layout s.mem ws := by
  cases i
  case invalid op =>
    simp only [exec, execInvalid] at h
    split at h <;> (injection h with h; subst h; exact ⟨rfl, by simp [writeAddrs, anyQualifies], [], rfl, rfl⟩)
  case txs =>
    simp only [exec, execTxs] at h
    injection h with h
    subst h
    split <;> exact ⟨rfl, by simp [writeAddrs, anyQualifies], [], rfl, rfl⟩
  all_goals (injection h with h; subst h)
  case bcc | bcs | beq | bne | bmi | bpl | bvc | bvs =>
    exact ⟨(branchIf_mem _ _ _).2.1, by simp [writeAddrs, anyQualifies, (branchIf_mem _ _ _).2.2], [], rfl,
      (branchIf_mem _ _ _).1⟩
  case sta o => exact ⟨by simp, by simp [writeAddrs, anyQualifies], [(resolve o s, s.a)], rfl, by simp⟩
  case stx o => exact ⟨by simp, by simp [writeAddrs, anyQualifies], [(resolve o s, s.x)], rfl, by simp⟩
  case sty o => exact ⟨by simp, by simp [writeAddrs, anyQualifies], [(resolve o s, s.y)], rfl, by simp⟩
  case inc o =>
    exact ⟨by simp [writeByteNZ], by simp [writeByteNZ, writeAddrs, anyQualifies],
      [(resolve o s, memRead s (resolve o s) + 1)], rfl, by simp [writeByteNZ]⟩
  case dec o =>
    exact ⟨by simp [writeByteNZ], by simp [writeByteNZ, writeAddrs, anyQualifies],
      [(resolve o s, memRead s (resolve o s) - 1)], rfl, by simp [writeByteNZ]⟩
  case pha =>
    exact ⟨by simp, by simp [writeAddrs, anyQualifies, stackAddr_eq_stackCell], [(stackAddr s.sp, s.a)], rfl, by simp⟩
  case php =>
    exact ⟨by simp, by simp [writeAddrs, anyQualifies, stackAddr_eq_stackCell],
      [(stackAddr s.sp, s.flags.pack true true)], rfl, by simp⟩
  case jsr o =>
    exact ⟨by simp, by simp [writeAddrs, anyQualifies, stackAddr_eq_stackCell, Bool.or_assoc],
      [(stackAddr s.sp, highByte ((beginInstr s).pc - 1)),
        (stackAddr (s.sp - 1), lowByte ((beginInstr s).pc - 1))], rfl, by simp⟩
  case asl o =>
    obtain ⟨hc, hd, hm⟩ := writeShift_stores (resolveOption o s) s (beginInstr s) _ _ rfl rfl rfl
    exact ⟨hc, hd, _, by simp [writeAddrs, Function.comp_def], hm⟩
  case lsr o =>
    obtain ⟨hc, hd, hm⟩ := writeShift_stores (resolveOption o s) s (beginInstr s) _ _ rfl rfl rfl
    exact ⟨hc, hd, _, by simp [writeAddrs, Function.comp_def], hm⟩
  case rol o =>
    obtain ⟨hc, hd, hm⟩ := writeShift_stores (resolveOption o s) s (beginInstr s) _ _ rfl rfl rfl
    exact ⟨hc, hd, _, by simp [writeAddrs, Function.comp_def], hm⟩
  case ror o =>
    obtain ⟨hc, hd, hm⟩ := writeShift_stores (resolveOption o s) s (beginInstr s) _ _ rfl rfl rfl
    exact ⟨hc, hd, _, by simp [writeAddrs, Function.comp_def], hm⟩
  all_goals
    exact ⟨by simp [writeA, writeX, writeY, writeSum, returnFromInterrupt_eq],
      by simp [writeA, writeX, writeY, writeSum, returnFromInterrupt_eq, writeAddrs, anyQualifies], [], rfl,
      by simp [writeA, writeX, writeY, writeSum, returnFromInterrupt_eq]⟩

end Sys2Proof.Machine
end

