-- ==== Sys2Proof/Laws/PerInstr.lean ====
section
/-! SUPPORT. The two transcriptions of the opcode map agree, instruction by instruction: the cell of rule R86 at the
opcode byte that rule R87 gives a well-formed instruction is the instruction's operation and mode. -/

namespace Sys2Proof.Laws.OpcodeRow

def Statement (i : Instr) : Prop :=
  i.WellFormed = true → ∃ b, i.opcode = some b ∧ opcodeCell b = i.op.map (fun op => (op, i.mode))

theorem adc (o : Operand) : Statement (.adc o) := by
  intro h
  cases o <;> first | exact ⟨_, rfl, rfl⟩ | exact absurd h Bool.false_ne_true
theorem sbc (o : Operand) : Statement (.sbc o) := by
  intro h
  cases o <;> first | exact ⟨_, rfl, rfl⟩ | exact absurd h Bool.false_ne_true
theorem and (o : Operand) : Statement (.and o) := by
  intro h
  cases o <;> first | exact ⟨_, rfl, rfl⟩ | exact absurd h Bool.false_ne_true
theorem ora (o : Operand) : Statement (.ora o) := by
  intro h
  cases o <;> first | exact ⟨_, rfl, rfl⟩ | exact absurd h Bool.false_ne_true
theorem eor (o : Operand) : Statement (.eor o) := by
  intro h
  cases o <;> first | exact ⟨_, rfl, rfl⟩ | exact absurd h Bool.false_ne_true
theorem bit (o : Operand) : Statement (.bit o) := by
  intro h
  cases o <;> first | exact ⟨_, rfl, rfl⟩ | exact absurd h Bool.false_ne_true
theorem lda (o : Operand) : Statement (.lda o) := by
  intro h
  cases o <;> first | exact ⟨_, rfl, rfl⟩ | exact absurd h Bool.false_ne_true
theorem ldx (o : Operand) : Statement (.ldx o) := by
  intro h
  cases o <;> first | exact ⟨_, rfl, rfl⟩ | exact absurd h Bool.false_ne_true
theorem ldy (o : Operand) : Statement (.ldy o) := by
  intro h
  cases o <;> first | exact ⟨_, rfl, rfl⟩ | exact absurd h Bool.false_ne_true
theorem sta (o : Operand) : Statement (.sta o) := by
  intro h
  cases o <;> first | exact ⟨_, rfl, rfl⟩ | exact absurd h Bool.false_ne_true
theorem stx (o : Operand) : Statement (.stx o) := by
  intro h
  cases o <;> first | exact ⟨_, rfl, rfl⟩ | exact absurd h Bool.false_ne_true
theorem sty (o : Operand) : Statement (.sty o) := by
  intro h
  cases o <;> first | exact ⟨_, rfl, rfl⟩ | exact absurd h Bool.false_ne_true
theorem tax : Statement .tax := fun _ => ⟨_, rfl, rfl⟩
theorem tay : Statement .tay := fun _ => ⟨_, rfl, rfl⟩
theorem txa : Statement .txa := fun _ => ⟨_, rfl, rfl⟩
theorem tya : Statement .tya := fun _ => ⟨_, rfl, rfl⟩
theorem tsx : Statement .tsx := fun _ => ⟨_, rfl, rfl⟩
theorem txs : Statement .txs := fun _ => ⟨_, rfl, rfl⟩
theorem asl (o : Option Operand) : Statement (.asl o) := by
  intro h
  rcases o with _ | o
  · exact ⟨_, rfl, rfl⟩
  · cases o <;> first | exact ⟨_, rfl, rfl⟩ | exact absurd h Bool.false_ne_true
theorem lsr (o : Option Operand) : Statement (.lsr o) := by
  intro h
  rcases o with _ | o
  · exact ⟨_, rfl, rfl⟩
  · cases o <;> first | exact ⟨_, rfl, rfl⟩ | exact absurd h Bool.false_ne_true
theorem rol (o : Option Operand) : Statement (.rol o) := by
  intro h
  rcases o with _ | o
  · exact ⟨_, rfl, rfl⟩
  · cases o <;> first | exact ⟨_, rfl, rfl⟩ | exact absurd h Bool.false_ne_true
theorem ror (o : Option Operand) : Statement (.ror o) := by
  intro h
  rcases o with _ | o
  · exact ⟨_, rfl, rfl⟩
  · cases o <;> first | exact ⟨_, rfl, rfl⟩ | exact absurd h Bool.false_ne_true
theorem cmp (o : Operand) : Statement (.cmp o) := by
  intro h
  cases o <;> first | exact ⟨_, rfl, rfl⟩ | exact absurd h Bool.false_ne_true
theorem cpx (o : Operand) : Statement (.cpx o) := by
  intro h
  cases o <;> first | exact ⟨_, rfl, rfl⟩ | exact absurd h Bool.false_ne_true
theorem cpy (o : Operand) : Statement (.cpy o) := by
  intro h
  cases o <;> first | exact ⟨_, rfl, rfl⟩ | exact absurd h Bool.false_ne_true
theorem inc (o : Operand) : Statement (.inc o) := by
  intro h
  cases o <;> first | exact ⟨_, rfl, rfl⟩ | exact absurd h Bool.false_ne_true
theorem dec (o : Operand) : Statement (.dec o) := by
  intro h
  cases o <;> first | exact ⟨_, rfl, rfl⟩ | exact absurd h Bool.false_ne_true
theorem inx : Statement .inx := fun _ => ⟨_, rfl, rfl⟩
theorem iny : Statement .iny := fun _ => ⟨_, rfl, rfl⟩
theorem dex : Statement .dex := fun _ => ⟨_, rfl, rfl⟩
theorem dey : Statement .dey := fun _ => ⟨_, rfl, rfl⟩
theorem bcc (o : Operand) : Statement (.bcc o) := by
  intro h
  cases o <;> first | exact ⟨_, rfl, rfl⟩ | exact absurd h Bool.false_ne_true
theorem bcs (o : Operand) : Statement (.bcs o) := by
  intro h
  cases o <;> first | exact ⟨_, rfl, rfl⟩ | exact absurd h Bool.false_ne_true
theorem beq (o : Operand) : Statement (.beq o) := by
  intro h
  cases o <;> first | exact ⟨_, rfl, rfl⟩ | exact absurd h Bool.false_ne_true
theorem bne (o : Operand) : Statement (.bne o) := by
  intro h
  cases o <;> first | exact ⟨_, rfl, rfl⟩ | exact absurd h Bool.false_ne_true
theorem bmi (o : Operand) : Statement (.bmi o) := by
  intro h
  cases o <;> first | exact ⟨_, rfl, rfl⟩ | exact absurd h Bool.false_ne_true
theorem bpl (o : Operand) : Statement (.bpl o) := by
  intro h
  cases o <;> first | exact ⟨_, rfl, rfl⟩ | exact absurd h Bool.false_ne_true
theorem bvc (o : Operand) : Statement (.bvc o) := by
  intro h
  cases o <;> first | exact ⟨_, rfl, rfl⟩ | exact absurd h Bool.false_ne_true
theorem bvs (o : Operand) : Statement (.bvs o) := by
  intro h
  cases o <;> first | exact ⟨_, rfl, rfl⟩ | exact absurd h Bool.false_ne_true
theorem pha : Statement .pha := fun _ => ⟨_, rfl, rfl⟩
theorem pla : Statement .pla := fun _ => ⟨_, rfl, rfl⟩
theorem php : Statement .php := fun _ => ⟨_, rfl, rfl⟩
theorem plp : Statement .plp := fun _ => ⟨_, rfl, rfl⟩
theorem clc : Statement .clc := fun _ => ⟨_, rfl, rfl⟩
theorem sec : Statement .sec := fun _ => ⟨_, rfl, rfl⟩
theorem cld : Statement .cld := fun _ => ⟨_, rfl, rfl⟩
theorem sed : Statement .sed := fun _ => ⟨_, rfl, rfl⟩
theorem cli : Statement .cli := fun _ => ⟨_, rfl, rfl⟩
theorem sei : Statement .sei := fun _ => ⟨_, rfl, rfl⟩
theorem clv : Statement .clv := fun _ => ⟨_, rfl, rfl⟩
theorem jmp (o : Operand) : Statement (.jmp o) := by
  intro h
  cases o <;> first | exact ⟨_, rfl, rfl⟩ | exact absurd h Bool.false_ne_true
theorem jsr (o : Operand) : Statement (.jsr o) := by
  intro h
  cases o <;> first | exact ⟨_, rfl, rfl⟩ | exact absurd h Bool.false_ne_true
theorem rts : Statement .rts := fun _ => ⟨_, rfl, rfl⟩
theorem rti : Statement .rti := fun _ => ⟨_, rfl, rfl⟩
theorem brk : Statement .brk := fun _ => ⟨_, rfl, rfl⟩
theorem nop : Statement .nop := fun _ => ⟨_, rfl, rfl⟩

/-- None of the bytes of rule R89 has a cell. -/
theorem cell_invalid : ∀ b ∈ invalidOpcodes, opcodeCell b = none := by decide

theorem invalid (op : Byte) : Statement (.invalid op) := fun h =>
  ⟨op, rfl, cell_invalid op (by simpa [Instr.WellFormed] using h)⟩

end Sys2Proof.Laws.OpcodeRow
end

