-- ==== Sys2Proof/Laws/Step.lean ====
section
/-! SUPPORT. Everything a tick and a transition can do, said once. -/

namespace Sys2Proof.Machine

/-- A tick that answers a next state counted down, idled halted, or ran the instruction at `PC`. -/
theorem tick_cases (s t : State) (h : tick s = .next t) :
    (0 < s.cycles ∧ t = s.setCycles (s.cycles - 1)) ∨ (s.cycles ≤ 0 ∧ s.halted = true ∧ t = s) ∨
      (s.cycles ≤ 0 ∧ s.halted = false ∧ exec (fetchInstr s) s = .next t) := by
  unfold tick at h
  split at h
  · rename_i hc
    injection h with h
    exact .inl ⟨hc, h.symm⟩
  · rename_i hc
    split at h
    · rename_i hh
      injection h with h
      exact .inr (.inl ⟨by omega, hh, h.symm⟩)
    · rename_i hh
      exact .inr (.inr ⟨by omega, by simpa using hh, h⟩)

/-- A step is a tick where no transition of the environment is to come. -/
theorem step_of_no_inputs (s : State) (h : s.inputs = []) : step s = tick s := by
  simp only [step, nextTransition, h]

/-- A step is the first transition that `inputs` lists, which it uses up. -/
theorem step_of_inputs (s : State) (input : Input) (rest : List Input) (h : s.inputs = input :: rest) :
    step s = perform input (s.setInputs rest) := by
  simp only [step, nextTransition, h]

/-- A state about to fetch runs the instruction at `PC`. -/
theorem step_of_ready (s : State) (h : s.Ready) : step s = exec (fetchInstr s) s := by
  rw [step_of_no_inputs s h.1, tick, if_neg (by have := h.2.1; omega)]
  simp [h.2.2, instructionStep]

/-- A run of one more step begins with that step. -/
theorem run_succ (s t : State) (k : Nat) (h : step s = .next t) :
    Host.Core.run Sys2Proof.core (k + 1) s = Host.Core.run Sys2Proof.core k t := by
  have hc : Sys2Proof.core.step s = .next t := h
  simp only [Host.Core.run, hc]

/-- Loading an image keeps every field but memory. -/
theorem envLoad_fields (bytes : List Byte) (s : State) (base : Addr) :
    envLoad s base bytes = s.setMem (envLoad s base bytes).mem := by
  induction bytes generalizing s base with
  | nil => rfl
  | cons v rest ih => rw [envLoad, ih]; rfl

/-- Loading an image keeps the canonical form of memory and the layout's cells. -/
theorem envLoad_wf (bytes : List Byte) (s : State) (base : Addr) (hm : Memory.wf s.mem)
    (hl : Memory.inLayout s.mem s.cfg.layout) :
    Memory.wf (envLoad s base bytes).mem ∧ Memory.inLayout (envLoad s base bytes).mem s.cfg.layout := by
  induction bytes generalizing s base with
  | nil => exact ⟨hm, hl⟩
  | cons v rest ih => exact ih (envWrite s base v) (base + 1) (store_wf _ hm _ _) (store_inLayout _ _ _ _ hl)

/-- Loading an image stores its bytes one by one, from the base upwards. -/
theorem envLoad_mem (bytes : List Byte) (s : State) (base : Addr) :
    (envLoad s base bytes).mem = storeAll s.cfg.layout s.mem (imageWrites base bytes) := by
  induction bytes generalizing s base with
  | nil => rfl
  | cons v rest ih =>
    have h : imageWrites base (v :: rest) = (base, v) :: imageWrites (base + 1) rest := by
      unfold imageWrites
      rw [List.mapIdx_cons]
      congr 1
      · simp
      · congr 1
        funext k v
        congr 1
        apply BitVec.eq_of_toNat_eq
        simp
        omega
    rw [envLoad, ih, h]
    rfl

/-- Placing a table word: an image of three bytes at `PC`, and the state made ready to fetch. -/
theorem withFetchWord_eq (s : State) (nbits w : Nat) :
    s.withFetchWord nbits w =
      (((envLoad s s.pc [tableByte nbits w 0, tableByte nbits w 1, tableByte nbits w 2]).setCycles 0).setHalted
        false).setInputs [] := rfl

theorem withFetchWord_mem (s : State) (nbits w : Nat) :
    (s.withFetchWord nbits w).mem = storeAll s.cfg.layout s.mem
      (imageWrites s.pc [tableByte nbits w 0, tableByte nbits w 1, tableByte nbits w 2]) := by
  rw [withFetchWord_eq, ← envLoad_mem]
  simp only [setInputs_mem, setHalted_mem, setCycles_mem]

theorem withFetchWord_cfg (s : State) (nbits w : Nat) : (s.withFetchWord nbits w).cfg = s.cfg := by
  rw [withFetchWord_eq, envLoad_fields]
  simp only [setInputs_cfg, setHalted_cfg, setCycles_cfg, setMem_cfg]

theorem withFetchWord_pc (s : State) (nbits w : Nat) : (s.withFetchWord nbits w).pc = s.pc := by
  rw [withFetchWord_eq, envLoad_fields]
  simp only [setInputs_pc, setHalted_pc, setCycles_pc, setMem_pc]

theorem withFetchWord_ready (s : State) (nbits w : Nat) : (s.withFetchWord nbits w).Ready :=
  ⟨rfl, Int.le_refl 0, rfl⟩

end Sys2Proof.Machine
end

