-- ==== Sys2Proof/Laws/Tables.lean ====
section
/-! SUPPORT. Looking a byte up: what sound tables give, and what the default ones give, the cells of the standard
matrix. -/

namespace Sys2Proof

/-- Entries that are as required are so at every place of the tables. -/
theorem entryOk_of_entriesOk (ops : List (Option Op)) (modes : List Mode) (widths costs : List Nat)
    (h : entriesOk ops modes widths costs = true) (n : Nat) (hn : n < ops.length) :
    entryOk (ops.getD n none) (modes.getD n .imp) (widths.getD n 0) (costs.getD n 0) = true := by
  induction ops generalizing modes widths costs n with
  | nil => exact absurd hn (Nat.not_lt_zero n)
  | cons op ops ih =>
    obtain _ | ⟨m, modes⟩ := modes
    · cases h
    obtain _ | ⟨width, widths⟩ := widths
    · cases h
    obtain _ | ⟨cost, costs⟩ := costs
    · cases h
    simp only [entriesOk, Bool.and_eq_true] at h
    cases n with
    | zero => exact h.1
    | succ n => exact ih modes widths costs h.2 n (by simpa using hn)

/-- Under sound tables every byte's entries are as required. -/
theorem Tables.entryOk_of_wf (t : Tables) (h : t.wf = true) (b : Byte) : t.entryOk b = true := by
  simp only [Tables.wf, Bool.and_eq_true, beq_iff_eq] at h
  exact entryOk_of_entriesOk _ _ _ _ h.2 _ (by rw [h.1]; exact b.isLt)

/-- What is required of a valid byte's entries. -/
theorem Tables.entryOk_valid (t : Tables) (b : Byte) (op : Op) (hop : t.opAt b = some op) (h : t.entryOk b = true) :
    t.widthAt b = (t.modeAt b).width ∧ 0 < t.costAt b ∧ (instrOf op (operandOf (t.modeAt b) 0 0)).isSome = true := by
  simpa [Tables.entryOk, Sys2Proof.entryOk, hop, and_assoc] using h

/-- Whether an operation has the operand it needs does not depend on the operand bytes. -/
theorem instrOf_isSome (op : Op) (m : Mode) (b1 b2 c1 c2 : Byte) :
    (instrOf op (operandOf m b1 b2)).isSome = (instrOf op (operandOf m c1 c2)).isSome := by
  cases op <;> cases m <;> rfl

/-- The instruction of an operation has that operation, and the operand, unless the operation has the mode `imp`
alone. -/
theorem instrOf_eq_some (op : Op) (o : Option Operand) (i : Instr) (h : instrOf op o = some i) :
    i.op = some op ∧ (i.operand = o ∨ (i.operand = none ∧ op.modes = [.imp])) := by
  cases op <;> cases o <;> simp only [instrOf, Option.map_none, Option.map_some, reduceCtorEq, Option.some.injEq] at h <;>
    subst h <;> simp [Instr.op, Instr.operand, Op.modes]

/-! ### The default tables -/

theorem standard_opAt (b : Byte) : Tables.standard.opAt b = (opcodeCell b).map Prod.fst := by
  simp only [Tables.opAt, Tables.standard, opcodeCell, List.getD_eq_getElem?_getD, List.getElem?_map]
  cases opcodeTable[b.toNat]? <;> rfl

theorem standard_modeAt (b : Byte) : Tables.standard.modeAt b = ((opcodeCell b).map Prod.snd).getD .imp := by
  simp only [Tables.modeAt, Tables.standard, opcodeCell, List.getD_eq_getElem?_getD, List.getElem?_map]
  cases opcodeTable[b.toNat]? <;> rfl

theorem standard_widthAt (b : Byte) :
    Tables.standard.widthAt b = ((opcodeCell b).map (fun cell => cell.2.width)).getD 0 := by
  simp only [Tables.widthAt, Tables.standard, opcodeCell, List.getD_eq_getElem?_getD, List.getElem?_map]
  cases opcodeTable[b.toNat]? <;> rfl

@[simp] theorem standard_costAt (b : Byte) : Tables.standard.costAt b = standardCosts.getD b.toNat 0 := rfl

/-- The default tables are sound. -/
theorem standard_wf : Tables.standard.wf = true := by
  set_option maxRecDepth 8000 in
  decide

end Sys2Proof
end

