-- ==== Sys2Proof/Tests/Slice0.lean ====
section
/-! SUPPORT. Tests: ill-formed terms, decoding, one step of each instruction, and a witness for the hypotheses of each
obligation. The expected values of the steps are those of spec/95_test_vectors.md or worked out from the rules named. -/

set_option maxRecDepth 20000

namespace Sys2Proof.Tests

open Sys2Proof.Machine

/-! ### Helpers -/

/-- The start state of the vectors: reset, the bytes at 0x0600, `PC` there, then the cells listed. -/
def boot (bytes : List Byte) (cells : List (Addr × Byte) := []) : State :=
  cells.foldl (fun s c => envWrite s c.1 c.2) (envLoad { State.reset with pc := 0x0600 } 0x0600 bytes)

/-- What `f` reads in the state after one step. -/
def got {α : Type} (s : State) (f : State → α) : Option α :=
  match step s with
  | .next t => some (f t)
  | .fault _ => none
  | .refused _ => none

/-- Flags written as in the vectors, `N V D I Z C`. -/
def fl (n v d i z c : Nat) : Flags := ⟨n == 1, v == 1, d == 1, i == 1, z == 1, c == 1⟩

/-! ### WellFormed: a term each check refuses -/

theorem test_wellFormed_refuses_wrong_modes :
    ([Instr.adc (.rel 0), Instr.sbc (.zpy 0), Instr.and (.ind 0), Instr.ora (.rel 0),
      Instr.eor (.zpy 0), Instr.bit (.imm 0), Instr.lda (.zpy 0), Instr.ldx (.zpx 0),
      Instr.ldy (.zpy 0), Instr.sta (.imm 0), Instr.stx (.zpx 0), Instr.sty (.zpy 0),
      Instr.asl (some (.aby 0)), Instr.lsr (some (.imm 0)), Instr.rol (some (.izx 0)), Instr.ror (some (.zpy 0)),
      Instr.cmp (.ind 0), Instr.cpx (.zpx 0), Instr.cpy (.abx 0), Instr.inc (.aby 0),
      Instr.dec (.imm 0), Instr.bcc (.abs 0), Instr.bcs (.imm 0), Instr.beq (.zp 0),
      Instr.bne (.abs 0), Instr.bmi (.ind 0), Instr.bpl (.abs 0), Instr.bvc (.imm 0),
      Instr.bvs (.abs 0), Instr.jmp (.rel 0), Instr.jsr (.ind 0)].all
        fun i => !i.WellFormed) = true := by decide

theorem test_wellFormed_refuses_valid_bytes_as_invalid :
    (Instr.invalid 0xEA).WellFormed = false ∧ (Instr.invalid 0x00).WellFormed = false := by decide

theorem test_wellFormed_accepts :
    (Instr.lda (.imm 0x05)).WellFormed = true ∧ (Instr.asl none).WellFormed = true ∧
    (Instr.invalid 0x02).WellFormed = true ∧ Instr.tax.WellFormed = true := by decide

/-! ### Decoding: words written out from the opcode map of rule R86, bit 0 the low bit of the first byte (rule R80) -/

theorem test_decode_arithmetic_and_logic :
    ([(24, 0x12347D, Instr.adc (.abx 0x1234)), (16, 0x10E9, Instr.sbc (.imm 0x10)),
      (16, 0x4031, Instr.and (.izy 0x40)), (16, 0x4001, Instr.ora (.izx 0x40)),
      (24, 0xFF0059, Instr.eor (.aby 0xFF00)), (24, 0x02002C, Instr.bit (.abs 0x0200))].all
        fun r => decodeTableWord r.1 r.2.1 == some r.2.2) = true := by decide

theorem test_decode_loads_and_stores :
    ([(16, 0x05A9, Instr.lda (.imm 0x05)), (16, 0xF0B6, Instr.ldx (.zpy 0xF0)),
      (24, 0x02F0BC, Instr.ldy (.abx 0x02F0)), (16, 0x2081, Instr.sta (.izx 0x20)),
      (16, 0xF096, Instr.stx (.zpy 0xF0)), (16, 0x8094, Instr.sty (.zpx 0x80))].all
        fun r => decodeTableWord r.1 r.2.1 == some r.2.2) = true := by decide

theorem test_decode_transfers :
    ([(8, 0xAA, Instr.tax), (8, 0xA8, Instr.tay),
      (8, 0x8A, Instr.txa), (8, 0x98, Instr.tya),
      (8, 0xBA, Instr.tsx), (8, 0x9A, Instr.txs)].all
        fun r => decodeTableWord r.1 r.2.1 == some r.2.2) = true := by decide

theorem test_decode_shifts :
    ([(8, 0x0A, Instr.asl none), (16, 0x1046, Instr.lsr (some (.zp 0x10))),
      (24, 0x80003E, Instr.rol (some (.abx 0x8000))), (16, 0xFF76, Instr.ror (some (.zpx 0xFF)))].all
        fun r => decodeTableWord r.1 r.2.1 == some r.2.2) = true := by decide

theorem test_decode_compares :
    ([(16, 0x86D1, Instr.cmp (.izy 0x86)), (16, 0x04E0, Instr.cpx (.imm 0x04)),
      (24, 0x0600CC, Instr.cpy (.abs 0x0600))].all
        fun r => decodeTableWord r.1 r.2.1 == some r.2.2) = true := by decide

theorem test_decode_increments :
    ([(24, 0x0300FE, Instr.inc (.abx 0x0300)), (16, 0x10C6, Instr.dec (.zp 0x10)),
      (8, 0xE8, Instr.inx), (8, 0xC8, Instr.iny),
      (8, 0xCA, Instr.dex), (8, 0x88, Instr.dey)].all
        fun r => decodeTableWord r.1 r.2.1 == some r.2.2) = true := by decide

theorem test_decode_branches :
    ([(16, 0x0290, Instr.bcc (.rel 0x02)), (16, 0x80B0, Instr.bcs (.rel 0x80)),
      (16, 0x02F0, Instr.beq (.rel 0x02)), (16, 0xF9D0, Instr.bne (.rel 0xF9)),
      (16, 0x7F30, Instr.bmi (.rel 0x7F)), (16, 0xFE10, Instr.bpl (.rel 0xFE)),
      (16, 0x0050, Instr.bvc (.rel 0x00)), (16, 0xFF70, Instr.bvs (.rel 0xFF))].all
        fun r => decodeTableWord r.1 r.2.1 == some r.2.2) = true := by decide

theorem test_decode_stack_and_flags :
    ([(8, 0x48, Instr.pha), (8, 0x68, Instr.pla),
      (8, 0x08, Instr.php), (8, 0x28, Instr.plp),
      (8, 0x18, Instr.clc), (8, 0x38, Instr.sec),
      (8, 0xD8, Instr.cld), (8, 0xF8, Instr.sed),
      (8, 0x58, Instr.cli), (8, 0x78, Instr.sei),
      (8, 0xB8, Instr.clv)].all
        fun r => decodeTableWord r.1 r.2.1 == some r.2.2) = true := by decide

theorem test_decode_control_and_system :
    ([(24, 0x12344C, Instr.jmp (.abs 0x1234)), (24, 0x02FF6C, Instr.jmp (.ind 0x02FF)),
      (24, 0x060A20, Instr.jsr (.abs 0x060A)), (8, 0x60, Instr.rts),
      (8, 0x40, Instr.rti), (8, 0x00, Instr.brk),
      (8, 0xEA, Instr.nop), (8, 0x02, Instr.invalid 0x02),
      (8, 0xFF, Instr.invalid 0xFF)].all
        fun r => decodeTableWord r.1 r.2.1 == some r.2.2) = true := by decide

theorem test_decode_rejects_short_lists :
    (match decode [] with | .error e => e == .noOpcode | .ok _ => false) = true ∧
    (match decode [0xAD, 0x34] with | .error e => e == .truncated 0xAD | .ok _ => false) = true := by decide

/-! ### The map against spec/opcode_table.json: (byte, mnemonic, mode, width, cycles) of its 151 valid rows -/

/-- Rows of spec/opcode_table.json, part 1. -/
def jsonRows0 : List (Byte × Op × Mode × Nat × Nat) :=
  [(0x00, .BRK, .imp, 1, 7), (0x01, .ORA, .izx, 2, 6), (0x05, .ORA, .zp, 2, 3), (0x06, .ASL, .zp, 2, 5),
   (0x08, .PHP, .imp, 1, 3), (0x09, .ORA, .imm, 2, 2), (0x0A, .ASL, .imp, 1, 2), (0x0D, .ORA, .abs, 3, 4),
   (0x0E, .ASL, .abs, 3, 6), (0x10, .BPL, .rel, 2, 2), (0x11, .ORA, .izy, 2, 5), (0x15, .ORA, .zpx, 2, 4),
   (0x16, .ASL, .zpx, 2, 6), (0x18, .CLC, .imp, 1, 2), (0x19, .ORA, .aby, 3, 4), (0x1D, .ORA, .abx, 3, 4),
   (0x1E, .ASL, .abx, 3, 7), (0x20, .JSR, .abs, 3, 6), (0x21, .AND, .izx, 2, 6), (0x24, .BIT, .zp, 2, 3),
   (0x25, .AND, .zp, 2, 3), (0x26, .ROL, .zp, 2, 5), (0x28, .PLP, .imp, 1, 4), (0x29, .AND, .imm, 2, 2),
   (0x2A, .ROL, .imp, 1, 2), (0x2C, .BIT, .abs, 3, 4), (0x2D, .AND, .abs, 3, 4), (0x2E, .ROL, .abs, 3, 6),
   (0x30, .BMI, .rel, 2, 2), (0x31, .AND, .izy, 2, 5), (0x35, .AND, .zpx, 2, 4), (0x36, .ROL, .zpx, 2, 6),
   (0x38, .SEC, .imp, 1, 2), (0x39, .AND, .aby, 3, 4), (0x3D, .AND, .abx, 3, 4), (0x3E, .ROL, .abx, 3, 7),
   (0x40, .RTI, .imp, 1, 6), (0x41, .EOR, .izx, 2, 6)]

/-- Rows of spec/opcode_table.json, part 2. -/
def jsonRows1 : List (Byte × Op × Mode × Nat × Nat) :=
  [(0x45, .EOR, .zp, 2, 3), (0x46, .LSR, .zp, 2, 5), (0x48, .PHA, .imp, 1, 3), (0x49, .EOR, .imm, 2, 2),
   (0x4A, .LSR, .imp, 1, 2), (0x4C, .JMP, .abs, 3, 3), (0x4D, .EOR, .abs, 3, 4), (0x4E, .LSR, .abs, 3, 6),
   (0x50, .BVC, .rel, 2, 2), (0x51, .EOR, .izy, 2, 5), (0x55, .EOR, .zpx, 2, 4), (0x56, .LSR, .zpx, 2, 6),
   (0x58, .CLI, .imp, 1, 2), (0x59, .EOR, .aby, 3, 4), (0x5D, .EOR, .abx, 3, 4), (0x5E, .LSR, .abx, 3, 7),
   (0x60, .RTS, .imp, 1, 6), (0x61, .ADC, .izx, 2, 6), (0x65, .ADC, .zp, 2, 3), (0x66, .ROR, .zp, 2, 5),
   (0x68, .PLA, .imp, 1, 4), (0x69, .ADC, .imm, 2, 2), (0x6A, .ROR, .imp, 1, 2), (0x6C, .JMP, .ind, 3, 5),
   (0x6D, .ADC, .abs, 3, 4), (0x6E, .ROR, .abs, 3, 6), (0x70, .BVS, .rel, 2, 2), (0x71, .ADC, .izy, 2, 5),
   (0x75, .ADC, .zpx, 2, 4), (0x76, .ROR, .zpx, 2, 6), (0x78, .SEI, .imp, 1, 2), (0x79, .ADC, .aby, 3, 4),
   (0x7D, .ADC, .abx, 3, 4), (0x7E, .ROR, .abx, 3, 7), (0x81, .STA, .izx, 2, 6), (0x84, .STY, .zp, 2, 3),
   (0x85, .STA, .zp, 2, 3), (0x86, .STX, .zp, 2, 3)]

/-- Rows of spec/opcode_table.json, part 3. -/
def jsonRows2 : List (Byte × Op × Mode × Nat × Nat) :=
  [(0x88, .DEY, .imp, 1, 2), (0x8A, .TXA, .imp, 1, 2), (0x8C, .STY, .abs, 3, 4), (0x8D, .STA, .abs, 3, 4),
   (0x8E, .STX, .abs, 3, 4), (0x90, .BCC, .rel, 2, 2), (0x91, .STA, .izy, 2, 6), (0x94, .STY, .zpx, 2, 4),
   (0x95, .STA, .zpx, 2, 4), (0x96, .STX, .zpy, 2, 4), (0x98, .TYA, .imp, 1, 2), (0x99, .STA, .aby, 3, 5),
   (0x9A, .TXS, .imp, 1, 2), (0x9D, .STA, .abx, 3, 5), (0xA0, .LDY, .imm, 2, 2), (0xA1, .LDA, .izx, 2, 6),
   (0xA2, .LDX, .imm, 2, 2), (0xA4, .LDY, .zp, 2, 3), (0xA5, .LDA, .zp, 2, 3), (0xA6, .LDX, .zp, 2, 3),
   (0xA8, .TAY, .imp, 1, 2), (0xA9, .LDA, .imm, 2, 2), (0xAA, .TAX, .imp, 1, 2), (0xAC, .LDY, .abs, 3, 4),
   (0xAD, .LDA, .abs, 3, 4), (0xAE, .LDX, .abs, 3, 4), (0xB0, .BCS, .rel, 2, 2), (0xB1, .LDA, .izy, 2, 5),
   (0xB4, .LDY, .zpx, 2, 4), (0xB5, .LDA, .zpx, 2, 4), (0xB6, .LDX, .zpy, 2, 4), (0xB8, .CLV, .imp, 1, 2),
   (0xB9, .LDA, .aby, 3, 4), (0xBA, .TSX, .imp, 1, 2), (0xBC, .LDY, .abx, 3, 4), (0xBD, .LDA, .abx, 3, 4),
   (0xBE, .LDX, .aby, 3, 4), (0xC0, .CPY, .imm, 2, 2)]

/-- Rows of spec/opcode_table.json, part 4. -/
def jsonRows3 : List (Byte × Op × Mode × Nat × Nat) :=
  [(0xC1, .CMP, .izx, 2, 6), (0xC4, .CPY, .zp, 2, 3), (0xC5, .CMP, .zp, 2, 3), (0xC6, .DEC, .zp, 2, 5),
   (0xC8, .INY, .imp, 1, 2), (0xC9, .CMP, .imm, 2, 2), (0xCA, .DEX, .imp, 1, 2), (0xCC, .CPY, .abs, 3, 4),
   (0xCD, .CMP, .abs, 3, 4), (0xCE, .DEC, .abs, 3, 6), (0xD0, .BNE, .rel, 2, 2), (0xD1, .CMP, .izy, 2, 5),
   (0xD5, .CMP, .zpx, 2, 4), (0xD6, .DEC, .zpx, 2, 6), (0xD8, .CLD, .imp, 1, 2), (0xD9, .CMP, .aby, 3, 4),
   (0xDD, .CMP, .abx, 3, 4), (0xDE, .DEC, .abx, 3, 7), (0xE0, .CPX, .imm, 2, 2), (0xE1, .SBC, .izx, 2, 6),
   (0xE4, .CPX, .zp, 2, 3), (0xE5, .SBC, .zp, 2, 3), (0xE6, .INC, .zp, 2, 5), (0xE8, .INX, .imp, 1, 2),
   (0xE9, .SBC, .imm, 2, 2), (0xEA, .NOP, .imp, 1, 2), (0xEC, .CPX, .abs, 3, 4), (0xED, .SBC, .abs, 3, 4),
   (0xEE, .INC, .abs, 3, 6), (0xF0, .BEQ, .rel, 2, 2), (0xF1, .SBC, .izy, 2, 5), (0xF5, .SBC, .zpx, 2, 4),
   (0xF6, .INC, .zpx, 2, 6), (0xF8, .SED, .imp, 1, 2), (0xF9, .SBC, .aby, 3, 4), (0xFD, .SBC, .abx, 3, 4),
   (0xFE, .INC, .abx, 3, 7)]

/-- The default tables and the encoder give the row. -/
def rowAgrees (r : Byte × Op × Mode × Nat × Nat) : Bool :=
  Tables.standard.opAt r.1 == some r.2.1 && Tables.standard.modeAt r.1 == r.2.2.1 &&
    Tables.standard.widthAt r.1 == r.2.2.2.1 && lengthOf Tables.standard r.1 == r.2.2.2.1 &&
    Tables.standard.costAt r.1 == r.2.2.2.2 && opcodeOf r.2.1 r.2.2.1 == some r.1

theorem test_jsonRows0_agree :
    jsonRows0.all rowAgrees = true := by decide

theorem test_jsonRows1_agree :
    jsonRows1.all rowAgrees = true := by decide

theorem test_jsonRows2_agree :
    jsonRows2.all rowAgrees = true := by decide

theorem test_jsonRows3_agree :
    jsonRows3.all rowAgrees = true := by decide

theorem test_valid_row_count :
    (jsonRows0 ++ jsonRows1 ++ jsonRows2 ++ jsonRows3).length = 151 ∧
    (opcodeTable.filter Option.isNone).length = 105 ∧
    opcodeTable.length = 256 ∧ standardCosts.length = 256 := by decide

theorem test_standard_config :
    Config.standard.wf = true ∧ Config.standard.maxCost = 7 ∧
    { Config.standard with invalidNopCost := 0 }.wf = false := by decide

/-- The standard matrix but for one byte, which is INX of mode absolute, cost 9. -/
def otherTables : Tables where
  ops := Tables.standard.ops.set 0x02 (some .INX)
  modes := Tables.standard.modes.set 0x02 .abs
  widths := Tables.standard.widths.set 0x02 3
  costs := Tables.standard.costs.set 0x02 9

/-- Rules R82, R102: the tables a run is given decide the operation, the advance of `PC` and the cost. -/
theorem test_other_tables :
    { Config.standard with tables := otherTables }.wf = true ∧
      got { boot [0x02, 0x34, 0x12] with cfg := { Config.standard with tables := otherTables } }
        (fun t => (t.x, t.pc, t.cycles, t.halted)) = some (0x01, 0x0603, 9, false) := by decide

/-- Rule R82: a valid byte of width 0, and one with no address where its operation needs one, are unsound. -/
theorem test_tables_wf_refuses :
    { otherTables with widths := otherTables.widths.set 0x02 0 }.wf = false ∧
      { otherTables with ops := otherTables.ops.set 0xEA (some .LDA) }.wf = false := by decide

/-! ### One step of each instruction -/

/-- 95_test_vectors.md section 4: negative + negative gives positive. -/
theorem test_ADC :
    got { boot [0x69, 0x90] with a := 0xD0 } (fun t => (t.a, t.flags, t.pc, t.cycles)) =
      some (0x60, fl 0 1 0 0 0 1, 0x0602, 2) := by decide

/-- 95_test_vectors.md section 4: still binary with D = 1. -/
theorem test_ADC_ignores_decimal :
    got { boot [0x69, 0x01] with a := 0x09, flags := fl 0 0 1 0 0 0 } (fun t => (t.a, t.flags)) =
      some (0x0A, fl 0 0 1 0 0 0) := by decide

/-- 95_test_vectors.md section 4: −128 − 1. -/
theorem test_SBC :
    got { boot [0xE9, 0x00] with a := 0x80 } (fun t => (t.a, t.flags, t.pc, t.cycles)) =
      some (0x7F, fl 0 1 0 0 0 1, 0x0602, 2) := by decide

/-- 95_test_vectors.md section 4: borrow. -/
theorem test_SBC_borrow :
    got { boot [0xE9, 0xF0] with a := 0x50, flags := fl 0 0 0 0 0 1 } (fun t => (t.a, t.flags)) =
      some (0x60, fl 0 0 0 0 0 0) := by decide

/-- 95_test_vectors.md section 5. -/
theorem test_AND :
    got { boot [0x29, 0x3C] with a := 0xF0, flags := fl 0 1 0 0 0 1 } (fun t => (t.a, t.flags, t.cycles)) =
      some (0x30, fl 0 1 0 0 0 1, 2) := by decide

/-- 95_test_vectors.md section 5. -/
theorem test_ORA :
    got { boot [0x09, 0x3C] with a := 0xF0, flags := fl 0 1 0 0 0 1 } (fun t => (t.a, t.flags, t.cycles)) =
      some (0xFC, fl 1 1 0 0 0 1, 2) := by decide

/-- 95_test_vectors.md section 5. -/
theorem test_EOR :
    got { boot [0x49, 0xFF] with a := 0xFF, flags := fl 0 1 0 0 0 1 } (fun t => (t.a, t.flags, t.cycles)) =
      some (0x00, fl 0 1 0 0 1 1, 2) := by decide

/-- 95_test_vectors.md section 5. -/
theorem test_BIT :
    got
        { boot [0x24, 0x10] [(0x0010, 0xC0)] with a := 0x01, flags := fl 0 0 0 0 0 1 }
        (fun t => (t.a, t.flags, t.cycles)) =
      some (0x01, fl 1 1 0 0 1 1, 3) := by decide

/-- 95_test_vectors.md section 1, S1. -/
theorem test_LDA :
    got (boot [0xA9, 0x05]) (fun t => (t.a, t.pc, t.flags, t.cycles)) =
      some (0x05, 0x0602, fl 0 0 0 0 0 0, 2) := by decide

/-- 95_test_vectors.md section 3: abx, index 0x80. -/
theorem test_LDA_signed_index :
    got { boot [0xBD, 0x00, 0x03] [(0x0280, 0x22), (0x0380, 0x99)] with x := 0x80 } (fun t => (t.a, t.pc)) =
      some (0x22, 0x0603) := by decide

/-- 95_test_vectors.md section 3: zpy wraps. -/
theorem test_LDX :
    got { boot [0xB6, 0xF0] [(0x000F, 0x44), (0x010F, 0x55)] with y := 0x1F } (fun t => (t.x, t.pc, t.cycles)) =
      some (0x44, 0x0602, 4) := by decide

/-- 95_test_vectors.md section 5. -/
theorem test_LDY :
    got { boot [0xBC, 0xF0, 0x02] [(0x0300, 0x88)] with x := 0x10 } (fun t => (t.y, t.flags.n, t.cycles)) =
      some (0x88, true, 4) := by decide

/-- 95_test_vectors.md section 5. -/
theorem test_STA :
    got
        { boot [0x91, 0x40] [(0x0040, 0x00), (0x0041, 0x02)] with a := 0x42, y := 0x05 }
        (fun t => (memRead t 0x0205, t.flags, t.cycles)) =
      some (0x42, fl 0 0 0 0 0 0, 6) := by decide

/-- 95_test_vectors.md section 5: signed index. -/
theorem test_STA_keeps_flags :
    got
        { boot [0x9D, 0x00, 0x03] with a := 0x5A, x := 0xFF, flags := fl 1 0 0 0 1 0 }
        (fun t => (memRead t 0x02FF, t.flags, t.pc, t.cycles)) =
      some (0x5A, fl 1 0 0 0 1 0, 0x0603, 5) := by decide

/-- 95_test_vectors.md section 5: zero-page wrap. -/
theorem test_STX :
    got { boot [0x96, 0xF0] with x := 0x80, y := 0x20 } (fun t => (memRead t 0x0010, t.cycles)) =
      some (0x80, 4) := by decide

/-- 95_test_vectors.md section 5. -/
theorem test_STY :
    got { boot [0x8C, 0x00, 0x02] with y := 0x99 } (fun t => (memRead t 0x0200, t.cycles)) =
      some (0x99, 4) := by decide

/-- 95_test_vectors.md section 5. -/
theorem test_TAX :
    got { boot [0xAA] with a := 0x80 } (fun t => (t.x, t.flags, t.pc, t.cycles)) =
      some (0x80, fl 1 0 0 0 0 0, 0x0601, 2) := by decide

/-- 95_test_vectors.md section 5. -/
theorem test_TAY :
    got { boot [0xA8] with y := 0x01 } (fun t => (t.y, t.flags, t.pc)) =
      some (0x00, fl 0 0 0 0 1 0, 0x0601) := by decide

/-- 95_test_vectors.md section 5. -/
theorem test_TXA :
    got { boot [0x8A] with x := 0x7F, a := 0xFF } (fun t => (t.a, t.flags)) =
      some (0x7F, fl 0 0 0 0 0 0) := by decide

/-- 95_test_vectors.md section 5. -/
theorem test_TYA :
    got { boot [0x98] with y := 0xFF } (fun t => (t.a, t.flags)) =
      some (0xFF, fl 1 0 0 0 0 0) := by decide

/-- 95_test_vectors.md section 5. -/
theorem test_TSX :
    got { boot [0xBA] with sp := 0xFD } (fun t => (t.x, t.sp, t.flags)) =
      some (0xFD, 0xFD, fl 1 0 0 0 0 0) := by decide

/-- 95_test_vectors.md section 5: TXS writes N and Z. -/
theorem test_TXS :
    got { boot [0x9A] with x := 0x7F, flags := fl 1 0 0 0 1 0 } (fun t => (t.sp, t.flags)) =
      some (0x7F, fl 0 0 0 0 0 0) := by decide

/-- 95_test_vectors.md section 6. -/
theorem test_ASL :
    got { boot [0x0A] with a := 0x81, flags := fl 0 0 0 0 0 1 } (fun t => (t.a, t.flags, t.cycles)) =
      some (0x02, fl 0 0 0 0 0 1, 2) := by decide

/-- 95_test_vectors.md section 6. -/
theorem test_ASL_memory :
    got
        { boot [0x06, 0x10] [(0x0010, 0xC1)] with a := 0x77, flags := fl 0 0 0 0 0 1 }
        (fun t => (memRead t 0x10, t.a, t.flags, t.cycles)) =
      some (0x82, 0x77, fl 1 0 0 0 0 1, 5) := by decide

/-- 95_test_vectors.md section 6. -/
theorem test_LSR :
    got { boot [0x4A] with a := 0x01 } (fun t => (t.a, t.flags)) =
      some (0x00, fl 0 0 0 0 1 1) := by decide

/-- 95_test_vectors.md section 6. -/
theorem test_LSR_memory :
    got
        { boot [0x46, 0x10] [(0x0010, 0xC1)] with a := 0x77, flags := fl 0 0 0 0 0 1 }
        (fun t => (memRead t 0x10, t.a, t.flags)) =
      some (0x60, 0x77, fl 0 0 0 0 0 1) := by decide

/-- 95_test_vectors.md section 6. -/
theorem test_ROL :
    got { boot [0x2A] with a := 0x00, flags := fl 0 0 0 0 0 1 } (fun t => (t.a, t.flags)) =
      some (0x01, fl 0 0 0 0 0 0) := by decide

/-- 95_test_vectors.md section 6. -/
theorem test_ROL_memory :
    got
        { boot [0x26, 0x10] [(0x0010, 0xC1)] with a := 0x77, flags := fl 0 0 0 0 0 1 }
        (fun t => (memRead t 0x10, t.a, t.flags)) =
      some (0x83, 0x77, fl 1 0 0 0 0 1) := by decide

/-- 95_test_vectors.md section 6. -/
theorem test_ROR :
    got { boot [0x6A] with a := 0x00, flags := fl 0 0 0 0 0 1 } (fun t => (t.a, t.flags)) =
      some (0x80, fl 1 0 0 0 0 0) := by decide

/-- 95_test_vectors.md section 6. -/
theorem test_ROR_memory :
    got
        { boot [0x66, 0x10] [(0x0010, 0xC1)] with a := 0x77, flags := fl 0 0 0 0 0 1 }
        (fun t => (memRead t 0x10, t.a, t.flags)) =
      some (0xE0, 0x77, fl 1 0 0 0 0 1) := by decide

/-- 95_test_vectors.md section 7: N = 0 although less. -/
theorem test_CMP :
    got { boot [0xC9, 0xFF] with a := 0x00, flags := fl 0 1 0 0 0 0 } (fun t => (t.a, t.flags)) =
      some (0x00, fl 0 1 0 0 0 0) := by decide

/-- 95_test_vectors.md section 7: an unsigned compare. -/
theorem test_CPX :
    got { boot [0xE0, 0x7F] with x := 0x80, flags := fl 0 1 0 0 0 0 } (fun t => (t.x, t.flags)) =
      some (0x80, fl 0 1 0 0 0 1) := by decide

/-- 95_test_vectors.md section 7: equal. -/
theorem test_CPY :
    got { boot [0xC0, 0x40] with y := 0x40, flags := fl 0 1 0 0 0 0 } (fun t => (t.y, t.flags)) =
      some (0x40, fl 0 1 0 0 1 1) := by decide

/-- 95_test_vectors.md section 7. -/
theorem test_INC :
    got (boot [0xE6, 0x10] [(0x0010, 0xFF)]) (fun t => (memRead t 0x10, t.flags, t.cycles)) =
      some (0x00, fl 0 0 0 0 1 0, 5) := by decide

/-- 95_test_vectors.md section 7. -/
theorem test_DEC :
    got (boot [0xC6, 0x10] [(0x0010, 0x00)]) (fun t => (memRead t 0x10, t.flags, t.cycles)) =
      some (0xFF, fl 1 0 0 0 0 0, 5) := by decide

/-- 95_test_vectors.md section 1, S3. -/
theorem test_INX :
    got { boot [0xE8] with a := 0xFF, x := 0xFF, flags := fl 0 0 0 0 0 1 } (fun t => (t.x, t.a, t.flags, t.pc)) =
      some (0x00, 0xFF, fl 0 0 0 0 1 1, 0x0601) := by decide

/-- 95_test_vectors.md section 7. -/
theorem test_INY :
    got { boot [0xC8] with y := 0x7F, flags := fl 0 0 0 0 0 1 } (fun t => (t.y, t.flags)) =
      some (0x80, fl 1 0 0 0 0 1) := by decide

/-- 95_test_vectors.md section 7. -/
theorem test_DEX :
    got { boot [0xCA] with x := 0x00, flags := fl 0 0 0 0 0 1 } (fun t => (t.x, t.flags)) =
      some (0xFF, fl 1 0 0 0 0 1) := by decide

/-- 95_test_vectors.md section 7. -/
theorem test_DEY :
    got { boot [0x88] with y := 0x01, flags := fl 0 0 0 0 0 1 } (fun t => (t.y, t.flags)) =
      some (0x00, fl 0 0 0 0 1 1) := by decide

/-- 95_test_vectors.md section 8. -/
theorem test_BCC :
    got (boot [0x90, 0x10]) (fun t => (t.pc, t.cycles)) = some (0x0612, 2) ∧
      got { boot [0x90, 0x10] with flags := fl 0 0 0 0 0 1 } (fun t => (t.pc, t.cycles)) =
        some (0x0602, 2) := by decide

/-- 95_test_vectors.md section 8. -/
theorem test_BCS :
    got (boot [0xB0, 0x10]) (fun t => (t.pc, t.cycles)) = some (0x0602, 2) ∧
      got { boot [0xB0, 0x10] with flags := fl 0 0 0 0 0 1 } (fun t => (t.pc, t.cycles)) =
        some (0x0612, 2) := by decide

/-- 95_test_vectors.md section 8. -/
theorem test_BEQ :
    got (boot [0xF0, 0x10]) (fun t => (t.pc, t.cycles)) = some (0x0602, 2) ∧
      got { boot [0xF0, 0x10] with flags := fl 0 0 0 0 1 0 } (fun t => (t.pc, t.cycles)) =
        some (0x0612, 2) := by decide

/-- 95_test_vectors.md section 8. -/
theorem test_BNE :
    got (boot [0xD0, 0x10]) (fun t => (t.pc, t.cycles)) = some (0x0612, 2) ∧
      got { boot [0xD0, 0x10] with flags := fl 0 0 0 0 1 0 } (fun t => (t.pc, t.cycles)) =
        some (0x0602, 2) := by decide

/-- 95_test_vectors.md section 8. -/
theorem test_BMI :
    got (boot [0x30, 0x10]) (fun t => (t.pc, t.cycles)) = some (0x0602, 2) ∧
      got { boot [0x30, 0x10] with flags := fl 1 0 0 0 0 0 } (fun t => (t.pc, t.cycles)) =
        some (0x0612, 2) := by decide

/-- 95_test_vectors.md section 8. -/
theorem test_BPL :
    got (boot [0x10, 0x10]) (fun t => (t.pc, t.cycles)) = some (0x0612, 2) ∧
      got { boot [0x10, 0x10] with flags := fl 1 0 0 0 0 0 } (fun t => (t.pc, t.cycles)) =
        some (0x0602, 2) := by decide

/-- 95_test_vectors.md section 8. -/
theorem test_BVC :
    got (boot [0x50, 0x10]) (fun t => (t.pc, t.cycles)) = some (0x0612, 2) ∧
      got { boot [0x50, 0x10] with flags := fl 0 1 0 0 0 0 } (fun t => (t.pc, t.cycles)) =
        some (0x0602, 2) := by decide

/-- 95_test_vectors.md section 8. -/
theorem test_BVS :
    got (boot [0x70, 0x10]) (fun t => (t.pc, t.cycles)) = some (0x0602, 2) ∧
      got { boot [0x70, 0x10] with flags := fl 0 1 0 0 0 0 } (fun t => (t.pc, t.cycles)) =
        some (0x0612, 2) := by decide

/-- 95_test_vectors.md section 8: farthest backward. -/
theorem test_BNE_backward :
    got (boot [0xD0, 0x80]) (fun t => t.pc) =
      some 0x0582 := by decide

/-- 95_test_vectors.md section 9: SP wraps. -/
theorem test_PHA :
    got { boot [0x48] with a := 0x42, sp := 0x00 } (fun t => (memRead t 0x0100, t.sp, t.cycles)) =
      some (0x42, 0xFF, 3) := by decide

/-- 95_test_vectors.md section 9. -/
theorem test_PLA :
    got { boot [0x68] [(0x01FF, 0x80)] with sp := 0xFE } (fun t => (t.a, t.sp, t.flags, t.cycles)) =
      some (0x80, 0xFF, fl 1 0 0 0 0 0, 4) := by decide

/-- 95_test_vectors.md section 9. -/
theorem test_PHP :
    got { boot [0x08] with flags := fl 1 0 0 0 0 1 } (fun t => (memRead t 0x01FF, t.sp, t.flags)) =
      some (0xB1, 0xFE, fl 1 0 0 0 0 1) := by decide

/-- 95_test_vectors.md section 9. -/
theorem test_PLP :
    got { boot [0x28] [(0x01FF, 0xC3)] with sp := 0xFE } (fun t => (t.flags, t.sp)) =
      some (fl 1 1 0 0 1 1, 0xFF) := by decide

/-- 95_test_vectors.md section 9. -/
theorem test_CLC :
    got { boot [0x18] with flags := fl 1 1 1 1 1 1 } (fun t => (t.flags, t.pc, t.cycles)) =
      some (fl 1 1 1 1 1 0, 0x0601, 2) := by decide

/-- 95_test_vectors.md section 9. -/
theorem test_CLD :
    got { boot [0xD8] with flags := fl 1 1 1 1 1 1 } (fun t => (t.flags, t.pc, t.cycles)) =
      some (fl 1 1 0 1 1 1, 0x0601, 2) := by decide

/-- 95_test_vectors.md section 9. -/
theorem test_CLI :
    got { boot [0x58] with flags := fl 1 1 1 1 1 1 } (fun t => (t.flags, t.pc, t.cycles)) =
      some (fl 1 1 1 0 1 1, 0x0601, 2) := by decide

/-- 95_test_vectors.md section 9. -/
theorem test_CLV :
    got { boot [0xB8] with flags := fl 1 1 1 1 1 1 } (fun t => (t.flags, t.pc, t.cycles)) =
      some (fl 1 0 1 1 1 1, 0x0601, 2) := by decide

/-- 95_test_vectors.md section 9. -/
theorem test_SEC :
    got (boot [0x38]) (fun t => (t.flags, t.pc, t.cycles)) =
      some (fl 0 0 0 0 0 1, 0x0601, 2) := by decide

/-- 95_test_vectors.md section 9. -/
theorem test_SED :
    got (boot [0xF8]) (fun t => (t.flags, t.pc, t.cycles)) =
      some (fl 0 0 1 0 0 0, 0x0601, 2) := by decide

/-- 95_test_vectors.md section 9. -/
theorem test_SEI :
    got (boot [0x78]) (fun t => (t.flags, t.pc, t.cycles)) =
      some (fl 0 0 0 1 0 0, 0x0601, 2) := by decide

/-- 95_test_vectors.md section 10. -/
theorem test_JMP :
    got (boot [0x4C, 0x34, 0x12]) (fun t => (t.pc, t.cycles)) =
      some (0x1234, 3) := by decide

/-- 95_test_vectors.md section 3: no page wrap. -/
theorem test_JMP_indirect :
    got (boot [0x6C, 0xFF, 0x02] [(0x02FF, 0x34), (0x0300, 0x06), (0x0200, 0x07)]) (fun t => (t.pc, t.cycles)) =
      some (0x0634, 5) := by decide

/-- Rule R241: it pushes 0x0602, the address of its last byte. -/
theorem test_JSR :
    got (boot [0x20, 0x0A, 0x06]) (fun t => (memRead t 0x01FF, memRead t 0x01FE, t.pc, t.sp, t.cycles)) =
      some (0x06, 0x02, 0x060A, 0xFD, 6) := by decide

/-- 95_test_vectors.md section 10. -/
theorem test_RTS :
    got { boot [0x60] [(0x01FE, 0x07), (0x01FF, 0x06)] with sp := 0xFD } (fun t => (t.pc, t.sp, t.cycles)) =
      some (0x0608, 0xFF, 6) := by decide

/-- 95_test_vectors.md section 10. -/
theorem test_RTI :
    got
        { boot [0x40] [(0x01FD, 0x21), (0x01FE, 0x01), (0x01FF, 0x06)] with sp := 0xFC, flags := fl 0 0 0 1 0 0 }
        (fun t => (t.flags, t.pc, t.sp, t.cycles)) =
      some (fl 0 0 0 0 0 1, 0x0601, 0xFF, 6) := by decide

/-- 95_test_vectors.md section 11. -/
theorem test_BRK :
    got (boot [0x00]) (fun t => (t.pc, t.halted, t.decodeError, t.cycles, t.flags.i, t.sp)) =
      some (0x0601, true, false, 7, false, 0xFF) := by decide

/-- 95_test_vectors.md section 11. -/
theorem test_NOP :
    got { boot [0xEA] with a := 0x01, flags := fl 1 0 0 0 0 0 } (fun t => (t.a, t.pc, t.cycles, t.flags)) =
      some (0x01, 0x0601, 2, fl 1 0 0 0 0 0) := by decide

/-- 95_test_vectors.md section 11. -/
theorem test_INVALID_fatal :
    got (boot [0x02]) (fun t => (t.pc, t.halted, t.decodeError, t.cycles)) =
      some (0x0600, true, true, 0) := by decide

/-- 95_test_vectors.md section 11. -/
theorem test_INVALID_nop :
    got
        { boot [0x02, 0xFF, 0xE8] with cfg := { Config.standard with invalidPolicy := .nop } }
        (fun t => (t.pc, t.halted, t.decodeError, t.cycles)) =
      some (0x0601, false, false, 2) := by decide

/-! ### The environment, memory and the tick -/

/-- 95_test_vectors.md section 12. -/
theorem test_deliverNMI :
    got
        { boot [0xEA] [(0xFFFA, 0x00), (0xFFFB, 0x07)] with
          pc := 0x1234, flags := fl 1 0 0 0 0 1, inputs := [.deliverNMI] }
        (fun t => (memRead t 0x01FF, memRead t 0x01FE, memRead t 0x01FD, t.sp, t.flags, t.pc)) =
      some (0x12, 0x34, 0xA1, 0xFC, fl 1 0 0 1 0 1, 0x0700) := by decide

/-- 95_test_vectors.md section 12. -/
theorem test_deliverIRQ :
    got
        { boot [0xEA] [(0xFFFE, 0x80), (0xFFFF, 0x06)] with
          pc := 0x0650, flags := fl 0 0 0 0 1 0, inputs := [.deliverIRQ] }
        (fun t => (memRead t 0x01FF, memRead t 0x01FE, memRead t 0x01FD, t.sp, t.flags, t.pc)) =
      some (0x06, 0x50, 0x22, 0xFC, fl 0 0 0 1 1 0, 0x0680) := by decide

/-- 95_test_vectors.md section 12: the request is dropped. -/
theorem test_deliverIRQ_dropped :
    got
        { boot [0xEA] with pc := 0x0650, flags := fl 0 0 0 1 0 0, inputs := [.deliverIRQ] }
        (fun t => (memRead t 0x01FF, t.sp, t.flags, t.pc)) =
      some (0x00, 0xFF, fl 0 0 0 1 0 0, 0x0650) := by decide

/-- 95_test_vectors.md section 12: memory unchanged. -/
theorem test_reset :
    got
        { boot [0xEA] [(0x0010, 0x33)] with
          sp := 0x10, flags := fl 1 1 1 1 1 1, halted := true, decodeError := true, inputs := [.reset] }
        (fun t => (t.sp, t.pc, t.flags, t.halted, t.decodeError, memRead t 0x10)) =
      some (0xFF, 0x0000, fl 0 0 0 0 0 0, false, false, 0x33) := by decide

/-- 95_test_vectors.md section 12: FlatMirrored. -/
theorem test_mirror :
    got { boot [0x8D, 0x10, 0x08] with a := 0x7E } (fun t => (memRead t 0x0010, memRead t 0xF810)) =
      some (0x7E, 0x7E) := by decide

/-- 95_test_vectors.md section 12: SegmentedMap, modulo 8. -/
theorem test_ppu_window :
    got
        { boot [0x8D, 0x09, 0x20] with
          a := 0x01, pc := 0x0600, cfg := { Config.standard with layout := .segmentedMap } }
        (fun t => (memRead t 0x2001, memRead t 0x3FF9, memRead t 0x2009, memRead t 0x2000)) =
      some (0x01, 0x01, 0x01, 0x00) := by decide

/-- 95_test_vectors.md section 12: the last address that qualifies. -/
theorem test_dirty :
    got
        { boot [0x8D, 0xFF, 0x05] with cfg := { Config.standard with dirtyRanges := [(0x0200, 0x05FF)] } }
        (fun t => t.dirty) =
      some true := by decide

/-- 95_test_vectors.md section 12: the first address that does not. -/
theorem test_dirty_not :
    got
        { boot [0x8D, 0x00, 0x06] with cfg := { Config.standard with dirtyRanges := [(0x0200, 0x05FF)] } }
        (fun t => t.dirty) =
      some false := by decide

/-- 95_test_vectors.md section 2: a tick that counts down. -/
theorem test_countdown :
    got { boot [0xE8] with cycles := 2 } (fun t => (t.x, t.pc, t.cycles)) =
      some (0x00, 0x0600, 1) := by decide

/-- 95_test_vectors.md section 11: PC wraps. -/
theorem test_fetch_wraps :
    got
        { State.reset with
          pc := 0xFFFF, mem := [(0, 0x44), (0xFFFF, 0xA9)], cfg := { Config.standard with layout := .segmentedMap } }
        (fun t => (t.a, t.pc)) =
      some (0x44, 0x0001) := by decide

/-! ### Witnesses: for each obligation with hypotheses, a state and operands that meet them -/

/-- A configuration with the other choice of each parameter. -/
def otherConfig : Config :=
  { Config.standard with
    layout := .segmentedMap, invalidPolicy := .nop, izySigned := false, txsSetsNZ := false,
    dirtyRanges := [(0x0200, 0x05FF)] }

theorem witness_DecodeEncodeAgree :
    (Instr.lda (.imm 0x00)).WellFormed = true ∧ (Instr.jmp (.ind 0xFFFF)).WellFormed = true ∧
      (Instr.invalid 0xFF).WellFormed = true ∧ (Instr.ror none).WellFormed = true := by decide

theorem witness_EncodeDecodeAgree :
    decode [0xAD, 0xFF, 0xFF, 0x02] = .ok (.lda (.abs 0xFFFF), [0x02]) ∧ decode [0x02] = .ok (.invalid 0x02, []) :=
  ⟨rfl, rfl⟩

theorem witness_DecodeTablesMeetRequirements :
    Tables.standard.opAt 0x00 ≠ none ∧ Tables.standard.opAt 0xFE ≠ none ∧ Tables.standard.opAt 0x02 = none ∧
      (0x02 : Byte) ∈ invalidOpcodes ∧ (0xFF : Byte) ∈ invalidOpcodes := by decide

theorem witness_CostIsTheTableEntry :
    (∃ s t : State, (Instr.lda (.imm 0x05)).op = some .LDA ∧ exec (.lda (.imm 0x05)) s = .next t ∧
      Op.LDA ∉ ([.BCC, .BCS, .BEQ, .BNE, .BMI, .BPL, .BVC, .BVS, .JMP, .JSR, .RTS, .RTI] : List Op)) ∧
      (∃ s : State, s.cfg.wf = true ∧ (fetchInstr s).op ≠ none ∧ (fetchInstr s).operand = some (.abs 0x1234)) ∧
      ∃ s : State, s.cfg.tables = Tables.standard ∧ (fetchInstr s).op ≠ none :=
  ⟨⟨State.reset, _, rfl, rfl, by decide⟩, ⟨boot [0x8D, 0x34, 0x12], by decide, by decide, by decide⟩,
    ⟨State.reset, rfl, by decide⟩⟩

theorem witness_StepRunsDecodedInstruction :
    ∃ s : State, (decodeWith s.cfg.tables [memRead s s.pc, memRead s (s.pc + 1), memRead s (s.pc + 2)] =
        .ok (.brk, [0x00, 0x00])) ∧
      s.cycles ≤ 0 ∧ s.halted = false ∧ s.inputs = [] :=
  ⟨State.reset, rfl, by decide, rfl, rfl⟩

theorem witness_StepRunsDecodedInstruction_tick :
    ∃ s : State, (decodeWith s.cfg.tables [memRead s s.pc, memRead s (s.pc + 1), memRead s (s.pc + 2)] =
        .ok (.brk, [0x00, 0x00])) ∧
      s.cycles ≤ 0 ∧ s.halted = false ∧ s.inputs = [.tick] :=
  ⟨{ State.reset with cycles := -1, inputs := [.tick] }, rfl, by decide, rfl, rfl⟩

theorem witness_TickStateMachine :
    (∃ s : State, 0 < s.cycles) ∧ (∃ s : State, s.cycles ≤ 0 ∧ s.halted = true) ∧
      ∃ s : State, s.cycles ≤ 0 ∧ s.halted = false :=
  ⟨⟨{ State.reset with cycles := 1 }, by decide⟩, ⟨{ State.reset with halted := true }, by decide, rfl⟩,
    ⟨State.reset, by decide, rfl⟩⟩

theorem witness_InstrStepRunsOneInstruction :
    (∃ s : State, s.cycles = 0 ∧ s.halted = false) ∧ ∃ s : State, s.cycles = 7 ∧ s.halted = false :=
  ⟨⟨State.reset, rfl, rfl⟩, ⟨{ State.reset with cycles := 7 }, rfl, rfl⟩⟩

/-- BRK at the reset state: the largest and the smallest k. -/
theorem witness_InstructionTakesCostPlusOneTicks :
    ∃ s t : State, s.Ready ∧ step s = .next t ∧ t.cycles = (7 : Nat) ∧ 7 ≤ 7 ∧ 0 ≤ 7 :=
  ⟨State.reset, (beginInstr State.reset).setHalted true, by decide, rfl, by decide, by decide, by decide⟩

theorem witness_StepKeepsInvariant : ∃ s t : State, s.Inv ∧ step s = .next t ∧ t.halted = true :=
  ⟨State.reset, (beginInstr State.reset).setHalted true, by decide, rfl, rfl⟩

theorem witness_StepKeepsConfiguration :
    ∃ s t : State, step s = .next t ∧ s.inputs = [.deliverNMI, .tick] ∧ s.cfg.layout = .segmentedMap :=
  ⟨{ State.reset with inputs := [.deliverNMI, .tick], cfg := otherConfig }, _, rfl, rfl, rfl⟩

theorem witness_HaltedChangesOnlyAsStated :
    (∃ s t : State, step s = .next t ∧ s.halted = false ∧ t.halted = true ∧ s.Ready ∧ fetchInstr s = .brk) ∧
      (∃ s t : State, step s = .next t ∧ s.Ready ∧ fetchInstr s = .invalid 0x02 ∧ s.cfg.invalidPolicy = .fatal) ∧
      (∃ s t : State, step s = .next t ∧ s.halted = true ∧ s.cycles = 0 ∧ s.inputs = []) ∧
      ∃ s t : State, step s = .next t ∧ s.halted = true ∧ t.halted = false :=
  ⟨⟨State.reset, _, rfl, rfl, rfl, by decide, rfl⟩, ⟨boot [0x02], _, rfl, by decide, by decide, rfl⟩,
    ⟨{ State.reset with halted := true }, _, rfl, rfl, rfl, rfl⟩,
    ⟨{ State.reset with halted := true, inputs := [.clearHalt] }, _, rfl, rfl, rfl⟩⟩

theorem witness_DecodeErrorIsSticky :
    (∃ s t : State, step s = .next t ∧ s.decodeError = false ∧ t.decodeError = true ∧ s.Ready ∧
      fetchInstr s = .invalid 0x02 ∧ s.cfg.invalidPolicy = .fatal) ∧
      ∃ s t : State, step s = .next t ∧ s.decodeError = true ∧ t.decodeError = false :=
  ⟨⟨boot [0x02], _, rfl, by decide, by decide, by decide, by decide, rfl⟩,
    ⟨{ State.reset with decodeError := true, inputs := [.reset] }, _, rfl, rfl, rfl⟩⟩

/-- A store that qualifies, and an address it does not write. -/
theorem witness_DirtyChangesOnlyAsStated :
    ∃ s t : State, exec (.sta (.abs 0x0200)) s = .next t ∧ Memory.wf s.mem ∧ s.dirty = false ∧ t.dirty = true ∧
      ∀ w ∈ writeAddrs (.sta (.abs 0x0200)) s, ¬ SameCell s.cfg.layout 0x0201 w :=
  ⟨{ State.reset with cfg := otherConfig }, memWrite (beginInstr { State.reset with cfg := otherConfig }) 0x0200 0x00,
    rfl, by decide, rfl, rfl, fun w hw => by
      obtain rfl : w = 0x0200 := by simpa only [writeAddrs, resolve, List.mem_singleton] using hw
      show ¬ SameCell .segmentedMap 0x0201 0x0200
      decide⟩

/-- Each kind of transition, the entry with a pushed address that qualifies. -/
theorem witness_DirtyChangesOnlyAsStated_steps :
    (∃ s t : State, step s = .next t ∧ s.inputs = [] ∧ s.dirty = true) ∧
      (∃ s t : State, step s = .next t ∧ s.inputs = [.tick]) ∧
      (∃ s t : State, step s = .next t ∧ s.inputs = [.deliverNMI] ∧
        s.cfg.dirtyRanges = [(stackCell (s.sp - 2), stackCell (s.sp - 2))]) ∧
      (∃ s t : State, step s = .next t ∧ s.inputs = [.deliverIRQ] ∧ s.flags.i = true) ∧
      (∃ s t : State, step s = .next t ∧ s.inputs = [.clearDirty] ∧ s.dirty = true) ∧
      ∃ s t : State, step s = .next t ∧ s.inputs = [.envWrite 0x0200 0xFF] ∧
        Input.envWrite 0x0200 0xFF ∉ [Input.tick, .deliverNMI, .deliverIRQ, .clearDirty, .reset] :=
  ⟨⟨{ State.reset with dirty := true }, _, rfl, rfl, rfl⟩, ⟨{ State.reset with inputs := [.tick] }, _, rfl, rfl⟩,
    ⟨{ State.reset with
        inputs := [.deliverNMI], cfg := { Config.standard with dirtyRanges := [(0x01FD, 0x01FD)] } },
      _, rfl, rfl, by decide⟩,
    ⟨{ State.reset with inputs := [.deliverIRQ], flags := fl 0 0 0 1 0 0 }, _, rfl, rfl, rfl⟩,
    ⟨{ State.reset with dirty := true, inputs := [.clearDirty] }, _, rfl, rfl, rfl⟩,
    ⟨{ State.reset with inputs := [.envWrite 0x0200 0xFF], cfg := otherConfig }, _, rfl, rfl, by decide⟩⟩

/-- Each of the five registers and memory does change. -/
theorem witness_RegisterWriters :
    (∃ s t : State, exec (.lda (.imm 0x05)) s = .next t ∧ t.a ≠ s.a) ∧
      (∃ s t : State, exec .inx s = .next t ∧ t.x ≠ s.x) ∧ (∃ s t : State, exec .iny s = .next t ∧ t.y ≠ s.y) ∧
      (∃ s t : State, exec .pla s = .next t ∧ t.sp ≠ s.sp) ∧
      ∃ s t : State, exec (.inc (.zp 0x10)) s = .next t ∧ memRead t 0x10 ≠ memRead s 0x10 :=
  ⟨⟨State.reset, _, rfl, by decide⟩, ⟨State.reset, _, rfl, by decide⟩, ⟨State.reset, _, rfl, by decide⟩,
    ⟨State.reset, _, rfl, by decide⟩, ⟨State.reset, _, rfl, by decide⟩⟩

/-- Each of the six flags does change. -/
theorem witness_FlagWriters :
    (∃ s t : State, exec (.lda (.imm 0x80)) s = .next t ∧ t.flags.n ≠ s.flags.n) ∧
      (∃ s t : State, exec .clv s = .next t ∧ t.flags.v ≠ s.flags.v) ∧
      (∃ s t : State, exec .sed s = .next t ∧ t.flags.d ≠ s.flags.d) ∧
      (∃ s t : State, exec .sei s = .next t ∧ t.flags.i ≠ s.flags.i) ∧
      (∃ s t : State, exec (.lda (.imm 0x00)) s = .next t ∧ t.flags.z ≠ s.flags.z) ∧
      ∃ s t : State, exec .sec s = .next t ∧ t.flags.c ≠ s.flags.c :=
  ⟨⟨State.reset, _, rfl, by decide⟩, ⟨{ State.reset with flags := fl 0 1 0 0 0 0 }, _, rfl, by decide⟩,
    ⟨State.reset, _, rfl, by decide⟩, ⟨State.reset, _, rfl, by decide⟩, ⟨State.reset, _, rfl, by decide⟩,
    ⟨State.reset, _, rfl, by decide⟩⟩

theorem witness_OnlyPhpReadsDecimal :
    ∃ s t : State, Instr.adc (.imm 0x01) ≠ .php ∧ exec (.adc (.imm 0x01)) s = .next t ∧ s.flags.d = true :=
  ⟨{ State.reset with flags := fl 0 0 1 0 0 0 }, _, by decide, rfl, rfl⟩

theorem witness_ResultsDoNotDependOnCosts : ∃ s t : State, exec (.adc (.imm 0x01)) s = .next t :=
  ⟨State.reset, _, rfl⟩

/-- The shortest and the longest instruction, the second at the last address; and a byte other tables read. -/
theorem witness_LoadedInstructionRuns :
    (∃ s : State, Memory.wf s.mem ∧ s.cfg.tables = Tables.standard ∧ decodeTableWord 8 0xEA = some .nop) ∧
      (∃ s : State, Memory.wf s.mem ∧ s.cfg.tables = Tables.standard ∧ s.pc = 0xFFFF ∧
        decodeTableWord 24 0x0600AD = some (.lda (.abs 0x0600))) ∧
      ∃ s : State, Memory.wf s.mem ∧ decodeTableWordWith s.cfg.tables 8 0x02 = some .inx :=
  ⟨⟨State.reset, by decide, rfl, by decide⟩, ⟨{ State.reset with pc := 0xFFFF }, by decide, rfl, rfl, by decide⟩,
    ⟨{ State.reset with cfg := { Config.standard with tables := otherTables } }, by decide, by decide⟩⟩

theorem witness_DirectModesResolve :
    (fetchInstr (boot [0xA9, 0xFF])).operand = some (.imm 0xFF) ∧
      (fetchInstr (boot [0xA5, 0xFF])).operand = some (.zp 0xFF) ∧
      (fetchInstr (boot [0xD0, 0x80])).operand = some (.rel 0x80) := by decide

/-- The first and the last address of each range. -/
theorem witness_AddressDecodeLayouts :
    decodeAddr .segmentedMap 0x1FFF = ⟨.ram, 0x7FF⟩ ∧ decodeAddr .segmentedMap 0x2000 = ⟨.ppu, 0⟩ ∧
      decodeAddr .segmentedMap 0x3FFF = ⟨.ppu, 7⟩ ∧ decodeAddr .segmentedMap 0x4000 = ⟨.apu, 0⟩ ∧
      decodeAddr .segmentedMap 0x4017 = ⟨.apu, 23⟩ ∧ decodeAddr .segmentedMap 0x4018 = ⟨.test, 0⟩ ∧
      decodeAddr .segmentedMap 0x401F = ⟨.test, 7⟩ ∧ decodeAddr .segmentedMap 0x4020 = ⟨.cart, 0⟩ ∧
      decodeAddr .segmentedMap 0xFFFF = ⟨.cart, 49119⟩ := by decide

/-- In each layout, and on both sides of each border: two addresses that share a byte and two that do not. -/
theorem witness_MirrorsShareOneByte :
    (∃ s : State, Memory.wf s.mem ∧ s.cfg.layout = .flatMirrored ∧ 0x0000 % 2048 = 0xF800 % 2048 ∧
      ¬ 0x07FF % 2048 = 0x0800 % 2048) ∧
      ∃ s : State, Memory.wf s.mem ∧ s.cfg.layout = .segmentedMap ∧
        (0x1FFF < 0x2000 ∧ 0x07FF < 0x2000 ∧ 0x1FFF % 2048 = 0x07FF % 2048) ∧
        (0x2000 < 0x4000 ∧ 0x2000 ≤ 0x3FF8 ∧ 0x3FF8 < 0x4000 ∧ 0x2000 % 8 = 0x3FF8 % 8) ∧
        ¬ (0x3FFF < 0x2000 ∧ 0x3FFF % 2048 = 0x1FFF % 2048) ∧ (0x4000 : Addr) ≠ 0x4800 :=
  ⟨⟨State.reset, by decide, rfl, by decide, by decide⟩,
    ⟨{ State.reset with cfg := otherConfig }, by decide, rfl, by decide, by decide, by decide, by decide⟩⟩

/-- Canonical memories: the empty one and one with a cell; for the word accesses and the stack statements too. -/
theorem witness_WordAccesses : Memory.wf State.reset.mem ∧ Memory.wf (boot [0xFF, 0x00, 0x01]).mem := by decide
theorem witness_StackPrimitives : Memory.wf State.reset.mem ∧ State.reset.sp = 0xFF := by decide
theorem witness_WordPushPullsBack : ∃ s : State, Memory.wf s.mem ∧ s.sp = 0x00 :=
  ⟨{ State.reset with sp := 0x00 }, by decide, rfl⟩

/-- For the stores, the memory shifts, INC and DEC, the pushes and JSR: canonical memory, an address that qualifies and
one that does not. -/
theorem witness_StoringInstructions :
    ∃ s : State, Memory.wf s.mem ∧ dirtyQualifies s.cfg 0x0200 = true ∧ dirtyQualifies s.cfg 0x0600 = false :=
  ⟨{ State.reset with cfg := otherConfig }, by decide, by decide, by decide⟩

theorem witness_TxsSetsTheStackPointer :
    (∃ s : State, s.cfg.txsSetsNZ = true) ∧ ∃ s : State, s.cfg.txsSetsNZ = false :=
  ⟨⟨State.reset, rfl⟩, ⟨{ State.reset with cfg := otherConfig }, rfl⟩⟩

theorem witness_CompareFlagsAreThoseOfSubtract :
    (Instr.cpx (.imm 0xFF), State.reset.x) ∈
      [(Instr.cmp (.imm 0xFF), State.reset.a), (Instr.cpx (.imm 0xFF), State.reset.x),
        (Instr.cpy (.imm 0xFF), State.reset.y)] := by decide

/-- PHA, PHP with `SP` at the wrap, and the pulls in another state, with another byte of memory. -/
theorem witness_StackRoundTrips :
    (∃ s t t' : State, Memory.wf s.mem ∧ t'.sp = t.sp ∧
      memRead t' (stackCell s.sp) = memRead t (stackCell s.sp) ∧ exec .pha s = .next t ∧ t'.mem ≠ t.mem) ∧
      ∃ s t t' : State, Memory.wf s.mem ∧ t'.sp = t.sp ∧ memRead t' (stackCell s.sp) = memRead t (stackCell s.sp) ∧
        exec .php s = .next t ∧ t'.flags = fl 1 1 1 1 1 1 :=
  ⟨⟨State.reset, push8 (beginInstr State.reset) 0x00, envWrite (push8 (beginInstr State.reset) 0x00) 0x20 0x01,
      by decide, rfl, by decide, rfl, by decide⟩,
    ⟨{ State.reset with sp := 0x00 }, push8 (beginInstr { State.reset with sp := 0x00 }) 0x30,
      (push8 (beginInstr { State.reset with sp := 0x00 }) 0x30).setFlags (fl 1 1 1 1 1 1),
      by decide, rfl, rfl, rfl, rfl⟩⟩

theorem witness_FlagOperations :
    Instr.clv ∈ [Instr.clc, .sec, .cld, .sed, .cli, .sei, .clv] ∧ ∃ s t : State, exec .clv s = .next t :=
  ⟨by decide, State.reset, _, rfl⟩

/-- A JSR and a subroutine that stored a byte; and a fetched JSR. -/
theorem witness_ReturnPullsAddressPlusOne :
    (∃ s t t' : State, Memory.wf s.mem ∧ exec (.jsr (.abs 0x0300)) s = .next t ∧ t'.sp = t.sp ∧
      (∀ k ∈ ([0, 1] : List Byte), memRead t' (stackCell (s.sp - k)) = memRead t (stackCell (s.sp - k))) ∧
      t'.mem ≠ t.mem) ∧
      ∃ s : State, s.cfg.wf = true ∧ (fetchInstr s).operand = some (.abs 0x0300) := by
  refine ⟨⟨State.reset, (push16 (beginInstr State.reset) 0x0000).setPc 0x0300,
    envWrite ((push16 (beginInstr State.reset) 0x0000).setPc 0x1234) 0x20 0x01, by decide, rfl, rfl, by decide,
    by decide⟩, boot [0x20, 0x00, 0x03], by decide, by decide⟩

theorem witness_BranchesOnOneFlag : ∃ s : State, s.cfg.wf = true ∧ (fetchInstr s).operand = some (.rel 0x80) :=
  ⟨boot [0xD0, 0x80], by decide, by decide⟩

theorem witness_BreakHaltsAndNopAdvances :
    ∃ s : State, s.cfg.wf = true ∧ fetchInstr s = .brk ∧ s.cfg.tables.modeAt (memRead s s.pc) = .imp :=
  ⟨State.reset, by decide, by decide, by decide⟩

theorem witness_TablesSelectTheInstruction :
    otherTables.opAt 0x03 = none ∧ otherTables.entryOk 0x02 = true ∧ otherTables.opAt 0x02 = some .INX ∧
      otherTables.modeAt 0x02 = modeOf (some (.abs 0xFFFF)) ∧ otherTables.entryOk 0xEA = true ∧
      otherTables.opAt 0xEA = some .NOP ∧ otherTables.modeAt 0xEA = modeOf none := by decide

theorem witness_InvalidOpcodePolicies :
    (0x02 : Byte) ∈ invalidOpcodes ∧ (∃ s : State, s.cfg.invalidPolicy = .fatal) ∧
      ∃ s : State, s.cfg.invalidPolicy = .nop :=
  ⟨by decide, ⟨State.reset, rfl⟩, ⟨{ State.reset with cfg := otherConfig }, rfl⟩⟩

theorem witness_InterruptDelivery :
    (∃ s : State, s.inputs = [.deliverNMI] ∧ Memory.wf s.mem) ∧
      (∃ s : State, s.inputs = [.deliverIRQ] ∧ s.flags.i = false) ∧
      ∃ s : State, s.inputs = [.deliverIRQ] ∧ s.flags.i = true :=
  ⟨⟨{ State.reset with inputs := [.deliverNMI] }, rfl, by decide⟩,
    ⟨{ State.reset with inputs := [.deliverIRQ] }, rfl, rfl⟩,
    ⟨{ State.reset with inputs := [.deliverIRQ], flags := fl 0 0 0 1 0 0 }, rfl, rfl⟩⟩

theorem witness_InterruptOrder :
    (∃ s : State, s.inputs = [.deliverNMI, .deliverIRQ]) ∧
      ∃ s : State, s.inputs = [.deliverIRQ, .deliverNMI] ∧ s.flags.i = false :=
  ⟨⟨{ State.reset with inputs := [.deliverNMI, .deliverIRQ] }, rfl⟩,
    ⟨{ State.reset with inputs := [.deliverIRQ, .deliverNMI] }, rfl, rfl⟩⟩

/-- A handler that stored a byte and wrote A. -/
theorem witness_InterruptReturnUndoesEntry :
    ∃ s t' : State, Memory.wf s.mem ∧ t'.sp = (interruptEntry s 0xFFFA).sp ∧
      (∀ k ∈ ([0, 1, 2] : List Byte),
        memRead t' (stackCell (s.sp - k)) = memRead (interruptEntry s 0xFFFA) (stackCell (s.sp - k))) ∧
      t'.a ≠ s.a ∧ t'.mem ≠ (interruptEntry s 0xFFFA).mem :=
  ⟨State.reset, { envWrite (interruptEntry State.reset 0xFFFA) 0x20 0x01 with a := 0x01 },
    by decide, rfl, by decide, by decide, by decide⟩

theorem witness_ResetValues : ∃ s : State, s.inputs = [.reset] ∧ s.halted = true :=
  ⟨{ State.reset with inputs := [.reset], halted := true }, rfl, rfl⟩

/-- Each transition as the next one; the boot contract with an image that wraps past 0xFFFF. -/
theorem witness_EnvironmentTransitions :
    (∀ input : Input, ∃ s : State, s.inputs = [input] ∧ Memory.wf s.mem) ∧
      ∃ s : State, s.inputs = [.reset, .load 0xFFFF [0xEA, 0x00], .setPC 0xFFFF, .setSP 0xFF] :=
  ⟨fun input => ⟨{ State.reset with inputs := [input] }, rfl, by show Memory.wf []; decide⟩,
    ⟨{ State.reset with inputs := [.reset, .load 0xFFFF [0xEA, 0x00], .setPC 0xFFFF, .setSP 0xFF] }, rfl⟩⟩

end Sys2Proof.Tests
end

/-! PROOFS. Family 10_state.md: what sets and clears `halted` (rule R35). -/

namespace Sys2Proof.Machine

/-- The instructions that halt the core: BRK, and an `INVALID` byte under the fatal policy (rules R250, R260). -/
def HaltsCore (i : Instr) (cfg : Config) : Prop := i = .brk ∨ ∃ b, i = .invalid b ∧ cfg.invalidPolicy = .fatal

/-- A branch changes `PC` alone. -/
@[simp] theorem branchIf_halted (s : State) (taken : Bool) (ea : Addr) : (branchIf s taken ea).halted = s.halted := by
  cases taken <;> rfl

/-- A shift writes its target and the flags. -/
@[simp] theorem writeShift_halted (ea : Option Addr) (s : State) (r : Byte) (carry : Bool) :
    (writeShift ea s r carry).halted = s.halted := by
  cases ea <;> rfl

/-- An instruction that ends halted began so, or is one that halts. -/
theorem exec_halted_iff (i : Instr) (s t : State) (h : exec i s = .next t) :
    t.halted = true ↔ s.halted = true ∨ HaltsCore i s.cfg := by
  cases i
  case invalid op =>
    simp only [exec, execInvalid] at h
    split at h <;> (injection h with h; subst h; simp [HaltsCore, *])
  case txs =>
    simp only [exec, execTxs] at h
    injection h with h
    subst h
    split <;> simp [HaltsCore]
  all_goals (injection h with h; subst h)
  case brk => simp [HaltsCore]
  all_goals
    simp [HaltsCore, writeA, writeX, writeY, writeSum, writeByteNZ, returnFromInterrupt_eq]

/-- A tick that changes `halted` sets it, and the instruction at `PC` is one that halts. -/
theorem tick_halted_cases (s t : State) (h : tick s = .next t) :
    t.halted = s.halted ∨ (t.halted = true ∧ HaltsCore (fetchInstr s) s.cfg) := by
  rcases tick_cases s t h with ⟨-, rfl⟩ | ⟨-, -, rfl⟩ | ⟨-, hrun, hexec⟩
  · exact .inl rfl
  · exact .inl rfl
  · by_cases ht : t.halted = true
    · have := (exec_halted_iff _ s t hexec).mp ht
      exact .inr ⟨ht, this.resolve_left (by simp [hrun])⟩
    · exact .inl (by simp [hrun, ht])

/-- `ClearHalt` and `Reset` clear `halted`, a tick may set it, and every other transition leaves it alone. -/
theorem perform_halted_cases (input : Input) (s t : State) (h : perform input s = .next t) :
    (t.halted = false ∧ (input = .clearHalt ∨ input = .reset)) ∨ t.halted = s.halted ∨
      (t.halted = true ∧ HaltsCore (fetchInstr s) s.cfg) := by
  cases input
  case tick => exact .inr (tick_halted_cases s t h)
  all_goals (injection h with h; subst h)
  case clearHalt => exact .inl ⟨rfl, .inl rfl⟩
  case reset => exact .inl ⟨rfl, .inr rfl⟩
  case deliverNMI => exact .inr (.inl (interruptEntry_halted s _))
  case deliverIRQ =>
    unfold deliverIRQ
    split
    · exact .inr (.inl rfl)
    · exact .inr (.inl (interruptEntry_halted s _))
  case load base bytes =>
    rw [envLoad_fields]
    exact .inr (.inl rfl)
  all_goals exact .inr (.inl rfl)

/-- Everything a step can do to `halted`. -/
theorem step_halted_cases (s t : State) (h : step s = .next t) :
    (t.halted = false ∧ ∃ l, s.inputs = .clearHalt :: l ∨ s.inputs = .reset :: l) ∨ t.halted = s.halted ∨
      (t.halted = true ∧ HaltsCore (fetchInstr s) s.cfg) := by
  cases hin : s.inputs with
  | nil => exact .inr (tick_halted_cases s t (step_of_no_inputs s hin ▸ h))
  | cons input rest =>
    rw [step_of_inputs s input rest hin] at h
    rcases perform_halted_cases input _ t h with ⟨ht, hinput⟩ | hsame | hset
    · exact .inl ⟨ht, rest, by simpa using hinput⟩
    · exact .inr (.inl hsame)
    · exact .inr (.inr hset)

/-- Settles O14: the setters and the clearers are the cases of `step_halted_cases`; a ready state runs the instruction
at `PC`, and a halted one with nothing to count down idles. -/
theorem haltedChangesOnlyAsStated : Obligations.HaltedChangesOnlyAsStated := by
  intro s t h
  refine ⟨fun hs ht => ?_, fun hready hhalts => ?_, fun hs hcycles hin => ?_, fun hs ht => ?_⟩
  · rcases step_halted_cases s t h with ⟨hclear, -⟩ | hsame | ⟨-, hhalts⟩
    · simp [ht] at hclear
    · simp [hs, ht] at hsame
    · exact hhalts
  · exact (exec_halted_iff _ s t (step_of_ready s hready ▸ h)).mpr (.inr hhalts)
  · rw [step_of_no_inputs s hin] at h
    rcases tick_cases s t h with ⟨hcount, -⟩ | ⟨-, -, rfl⟩ | ⟨-, hrun, -⟩
    · omega
    · rfl
    · simp [hs] at hrun
  · rcases step_halted_cases s t h with ⟨-, hclear⟩ | hsame | ⟨hset, -⟩
    · exact hclear
    · simp [hs, ht] at hsame
    · simp [ht] at hset

end Sys2Proof.Machine

/-! PROOFS. Family 20_memory.md: the cell of every address in the two layouts (rules R56 to R58). -/

namespace Sys2Proof.Machine

/-- Rule R56: one mirrored RAM. -/
theorem decodeAddr_flat (a : Addr) : decodeAddr .flatMirrored a = ⟨.ram, a.toNat % 2048⟩ := rfl

/-- Rule R57: the RAM region. -/
theorem decodeAddr_segmented_ram (a : Addr) (hhi : a.toNat ≤ 0x1FFF) :
    decodeAddr .segmentedMap a = ⟨.ram, a.toNat % 2048⟩ :=
  if_pos hhi

/-- Rule R58: the PPU window. -/
theorem decodeAddr_segmented_ppu (a : Addr) (hlo : 0x2000 ≤ a.toNat) (hhi : a.toNat ≤ 0x3FFF) :
    decodeAddr .segmentedMap a = ⟨.ppu, (a.toNat - 0x2000) % 8⟩ := by
  have not_ram : ¬ a.toNat ≤ 0x1FFF := by omega
  simp only [decodeAddr, if_neg not_ram, if_pos hhi]

/-- Rule R58: the APU window. -/
theorem decodeAddr_segmented_apu (a : Addr) (hlo : 0x4000 ≤ a.toNat) (hhi : a.toNat ≤ 0x4017) :
    decodeAddr .segmentedMap a = ⟨.apu, a.toNat - 0x4000⟩ := by
  have not_ram : ¬ a.toNat ≤ 0x1FFF := by omega
  have not_ppu : ¬ a.toNat ≤ 0x3FFF := by omega
  simp only [decodeAddr, if_neg not_ram, if_neg not_ppu, if_pos hhi]

/-- Rule R58: the test window. -/
theorem decodeAddr_segmented_test (a : Addr) (hlo : 0x4018 ≤ a.toNat) (hhi : a.toNat ≤ 0x401F) :
    decodeAddr .segmentedMap a = ⟨.test, a.toNat - 0x4018⟩ := by
  have not_ram : ¬ a.toNat ≤ 0x1FFF := by omega
  have not_ppu : ¬ a.toNat ≤ 0x3FFF := by omega
  have not_apu : ¬ a.toNat ≤ 0x4017 := by omega
  simp only [decodeAddr, if_neg not_ram, if_neg not_ppu, if_neg not_apu, if_pos hhi]

/-- Rule R58: the cartridge window, up to the last address. -/
theorem decodeAddr_segmented_cart (a : Addr) (hlo : 0x4020 ≤ a.toNat) :
    decodeAddr .segmentedMap a = ⟨.cart, a.toNat - 0x4020⟩ := by
  have not_ram : ¬ a.toNat ≤ 0x1FFF := by omega
  have not_ppu : ¬ a.toNat ≤ 0x3FFF := by omega
  have not_apu : ¬ a.toNat ≤ 0x4017 := by omega
  have not_test : ¬ a.toNat ≤ 0x401F := by omega
  simp only [decodeAddr, if_neg not_ram, if_neg not_ppu, if_neg not_apu, if_neg not_test]

/-- Settles O25: the layouts' equations, one per region, the bound `decodeAddr_index_lt`, and the sizes. -/
theorem addressDecodeLayouts : Obligations.AddressDecodeLayouts :=
  ⟨decodeAddr_flat, decodeAddr_segmented_ram, decodeAddr_segmented_ppu, decodeAddr_segmented_apu,
    decodeAddr_segmented_test, decodeAddr_segmented_cart, decodeAddr_index_lt, rfl, rfl, rfl, rfl, rfl⟩

end Sys2Proof.Machine

/-! PROOFS. Family 30_encoding.md: what rule R82 requires of the default decode tables, and the `INVALID` bytes of rule
R89. -/

namespace Sys2Proof

/-! ### Sound tables -/

/-- Tables whose entries pass `entriesOk` have as many entries each. -/
theorem lengths_eq_of_entriesOk (ops : List (Option Op)) (modes : List Mode) (widths costs : List Nat)
    (h : entriesOk ops modes widths costs = true) :
    modes.length = ops.length ∧ widths.length = ops.length ∧ costs.length = ops.length := by
  fun_induction entriesOk ops modes widths costs with
  | case1 op ops m modes width widths cost costs ih =>
    rw [Bool.and_eq_true] at h
    simpa only [List.length_cons, Nat.add_right_cancel_iff] using ih h.2
  | case2 => exact ⟨rfl, rfl, rfl⟩
  | case3 => cases h

/-- Rule R82: sound tables have 256 entries each. -/
theorem Tables.lengths_of_wf (t : Tables) (h : t.wf = true) :
    t.ops.length = 256 ∧ t.modes.length = 256 ∧ t.widths.length = 256 ∧ t.costs.length = 256 := by
  simp only [Tables.wf, Bool.and_eq_true, beq_iff_eq] at h
  obtain ⟨ops_length, entries⟩ := h
  exact ⟨ops_length, ops_length ▸ lengths_eq_of_entriesOk _ _ _ _ entries⟩

/-- Rule R80: a format has one to three bytes. -/
theorem Mode.width_bounds (m : Mode) : 1 ≤ m.width ∧ m.width ≤ 3 := by
  cases m <;> decide

/-- Rule R82: `WIDTH` is 0 exactly where `OP` is `INVALID`. -/
theorem Tables.widthAt_eq_zero_iff (t : Tables) (b : Byte) (h : t.entryOk b = true) :
    t.widthAt b = 0 ↔ t.opAt b = none := by
  cases hop : t.opAt b with
  | none => simpa [Tables.entryOk, Sys2Proof.entryOk, hop] using h
  | some op =>
    have width_eq := (t.entryOk_valid b op hop h).1
    have width_pos := (t.modeAt b).width_bounds.1
    simp only [reduceCtorEq, iff_false]
    omega

/-- Rule R82: the width and the cost of a valid byte. -/
theorem Tables.width_and_cost_of_valid (t : Tables) (b : Byte) (h : t.entryOk b = true) (hvalid : t.opAt b ≠ none) :
    t.widthAt b = (t.modeAt b).width ∧ 1 ≤ t.widthAt b ∧ t.widthAt b ≤ 3 ∧ 1 ≤ t.costAt b := by
  obtain ⟨op, hop⟩ := Option.ne_none_iff_exists'.mp hvalid
  obtain ⟨width_eq, cost_pos, -⟩ := t.entryOk_valid b op hop h
  obtain ⟨width_pos, width_le⟩ := (t.modeAt b).width_bounds
  exact ⟨width_eq, width_eq ▸ width_pos, width_eq ▸ width_le, cost_pos⟩

/-- Rule R89: an `INVALID` byte decodes to itself, whatever follows it. -/
theorem decodeBytes_of_opAt_none (t : Tables) (b b1 b2 : Byte) (h : t.opAt b = none) :
    decodeBytes t b b1 b2 = .invalid b := by
  simp only [decodeBytes, h]

/-! ### The `INVALID` bytes of the default tables -/

/-- Rule R81: the map of rule R86 has a cell for each byte. -/
theorem opcodeTable_length : opcodeTable.length = 256 := by
  simpa only [Tables.standard, List.length_map] using (Tables.standard.lengths_of_wf standard_wf).1

/-- The list of rule R89 is, in ascending order, the places of rule R86's map that hold no operation. -/
theorem invalidOpcodes_map_toNat : invalidOpcodes.map BitVec.toNat = opcodeTable.findIdxs Option.isNone := by
  decide

/-- The map of rule R86 and the list of rule R89 agree on which bytes are `INVALID`. -/
theorem opcodeCell_eq_none_iff (b : Byte) : opcodeCell b = none ↔ b ∈ invalidOpcodes := by
  have in_table : b.toNat < opcodeTable.length := opcodeTable_length ▸ b.isLt
  rw [← List.mem_map_of_injective BitVec.toNat_injective, invalidOpcodes_map_toNat,
    List.mem_findIdxs_iff_pos_getElem in_table, Option.isNone_iff_eq_none, opcodeCell,
    List.getD_eq_getElem _ _ in_table]

theorem standard_opAt_eq_none_iff (b : Byte) : Tables.standard.opAt b = none ↔ b ∈ invalidOpcodes := by
  rw [standard_opAt, Option.map_eq_none_iff, opcodeCell_eq_none_iff]

/-- Rule R89's list has no repeats, as its bytes ascend. -/
theorem invalidOpcodes_nodup : invalidOpcodes.Nodup := by
  refine List.Nodup.of_map BitVec.toNat ?_
  rw [invalidOpcodes_map_toNat]
  exact List.nodup_findIdxs

/-- Settles O4: the default tables are sound (`standard_wf`), which gives the lengths, the widths and the costs; which
bytes are `INVALID` is `standard_opAt_eq_none_iff`. -/
theorem decodeTablesMeetRequirements : Obligations.DecodeTablesMeetRequirements := by
  have sound : ∀ b, Tables.standard.entryOk b = true := Tables.standard.entryOk_of_wf standard_wf
  exact ⟨Tables.standard.lengths_of_wf standard_wf,
    fun b => Tables.standard.widthAt_eq_zero_iff b (sound b),
    fun b => Tables.standard.width_and_cost_of_valid b (sound b),
    standard_opAt_eq_none_iff,
    fun b b1 b2 hb => decodeBytes_of_opAt_none _ b b1 b2 ((standard_opAt_eq_none_iff b).mpr hb),
    rfl, invalidOpcodes_nodup⟩

end Sys2Proof

/-! PROOFS. Family 40_step_and_addressing.md, section 1: the tick, and the ticks an instruction takes (rules R100 to
R105). -/

namespace Sys2Proof.Machine

/-! ### The branches of a tick (rule R100) -/

/-- A tick while `cycles > 0` counts down. -/
theorem tick_of_cycles_pos (s : State) (h : 0 < s.cycles) : tick s = .next (s.setCycles (s.cycles - 1)) :=
  if_pos h

/-- A tick with nothing to count down idles when halted. -/
theorem tick_of_halted (s : State) (hcycles : s.cycles ≤ 0) (hhalted : s.halted = true) : tick s = .next s := by
  rw [tick, if_neg (Int.not_lt.mpr hcycles), if_pos hhalted]

/-- A tick with nothing to count down runs the instruction at `PC` when not halted. -/
theorem tick_of_running (s : State) (hcycles : s.cycles ≤ 0) (hrun : s.halted = false) :
    tick s = exec (fetchInstr s) s := by
  rw [tick, if_neg (Int.not_lt.mpr hcycles), if_neg (by simp [hrun]), instructionStep]

/-! ### What every instruction answers and what none changes -/

/-- Every instruction answers a next state; only the policy for an `INVALID` byte selects which one (rule R252). -/
theorem exec_completes (i : Instr) (s : State) : ∃ t, exec i s = .next t := by
  cases i
  case invalid op =>
    simp only [exec, execInvalid]
    split <;> exact ⟨_, rfl⟩
  all_goals exact ⟨_, rfl⟩

/-- A branch changes `PC` alone. -/
@[simp] theorem branchIf_inputs (s : State) (taken : Bool) (ea : Addr) : (branchIf s taken ea).inputs = s.inputs := by
  cases taken <;> rfl

/-- A shift writes its target and the flags. -/
@[simp] theorem writeShift_inputs (ea : Option Addr) (s : State) (r : Byte) (carry : Bool) :
    (writeShift ea s r carry).inputs = s.inputs := by
  cases ea <;> rfl

/-- No instruction touches the transitions still to come. -/
theorem exec_inputs (i : Instr) (s t : State) (h : exec i s = .next t) : t.inputs = s.inputs := by
  cases i
  case invalid op =>
    simp only [exec, execInvalid] at h
    split at h <;> (injection h with h; subst h; rfl)
  case txs =>
    simp only [exec, execTxs] at h
    injection h with h
    subst h
    split <;> rfl
  all_goals
    injection h with h
    subst h
    simp [writeA, writeX, writeY, writeSum, writeByteNZ, returnFromInterrupt_eq]

/-- A tick always has an outcome (rule R100). -/
theorem tick_completes (s : State) : ∃ t, tick s = .next t := by
  by_cases hcount : 0 < s.cycles
  · exact ⟨_, tick_of_cycles_pos s hcount⟩
  · have hcycles : s.cycles ≤ 0 := Int.not_lt.mp hcount
    cases hhalted : s.halted with
    | true => exact ⟨s, tick_of_halted s hcycles hhalted⟩
    | false => exact tick_of_running s hcycles hhalted ▸ exec_completes _ s

/-- Settles O7: one equation per branch of the tick, and `tick_completes`. -/
theorem tickStateMachine : Obligations.TickStateMachine :=
  fun s => ⟨tick_of_cycles_pos s, tick_of_halted s, tick_of_running s, tick_completes s⟩

/-! ### Counting down (rule R105) -/

/-- With no transition of the environment to come, `k` steps within the count change `cycles` alone, by `-k`. -/
theorem run_countdown (s : State) (k : Nat) (hin : s.inputs = []) (hk : (k : Int) ≤ s.cycles) :
    Host.Core.run Sys2Proof.core k s = .next (s.setCycles (s.cycles - k)) := by
  induction k generalizing s with
  | zero => simp [Host.Core.run, State.setCycles]
  | succ k ih =>
    have hstep : step s = .next (s.setCycles (s.cycles - 1)) := by
      rw [step_of_no_inputs s hin, tick_of_cycles_pos s (by omega)]
    rw [run_succ s _ k hstep, ih (s.setCycles (s.cycles - 1)) hin (by simp only [setCycles_cycles]; omega)]
    have hcount : s.cycles - 1 - (k : Int) = s.cycles - ((k + 1 : Nat) : Int) := by omega
    simp only [State.setCycles, hcount]

/-- Settles O10: the first step runs the instruction, which leaves `inputs` empty (`exec_inputs`), and the `k` steps
after it count down (`run_countdown`). -/
theorem instructionTakesCostPlusOneTicks : Obligations.InstructionTakesCostPlusOneTicks := by
  intro s t n k hready hstep hcycles hk
  have hin : t.inputs = [] := (exec_inputs _ s t (step_of_ready s hready ▸ hstep)).trans hready.1
  rw [run_succ s t k hstep, run_countdown t k hin (by omega), hcycles, ← Int.ofNat_sub hk]
  rfl

end Sys2Proof.Machine

/-! PROOFS. Family 40_step_and_addressing.md, section 2: the effective addresses (rules R106 to R113). -/

namespace Sys2Proof.Machine

/-! ### Sums of an address and a byte -/

/-- A byte zero-extended to a word keeps its value. -/
theorem zext16_toNat (b : Byte) : (zext16 b).toNat = b.toNat :=
  BitVec.toNat_setWidth_of_le (by decide)

/-- Adding a sign-extended byte to an address adds its signed value modulo 65536. -/
theorem add_sext16_toNat (w : Addr) (b : Byte) :
    ((w + sext16 b).toNat : Int) = ((w.toNat : Int) + b.toInt) % 65536 := by
  rw [sext16, BitVec.signExtend, BitVec.toNat_add, BitVec.toNat_ofInt]
  omega

/-- The sum of two bytes, zero-extended to an address, wraps modulo 256 (rule R112). -/
theorem zext16_add_toNat (b c : Byte) : (zext16 (b + c)).toNat = (b.toNat + c.toNat) % 256 := by
  rw [zext16_toNat, BitVec.toNat_add]

/-- Settles O23: the signed sum of the absolute modes, and the wrapping sum of the zero-page modes. -/
theorem indexedModesResolve : Obligations.IndexedModesResolve :=
  fun s w b1 => ⟨add_sext16_toNat w s.x, add_sext16_toNat w s.y, zext16_add_toNat b1 s.x, zext16_add_toNat b1 s.y⟩

/-! ### Operands of fetched instructions -/

/-- The operand of a decoded instruction is the one its opcode's mode assembles from the bytes after it. -/
theorem operandOf_of_decodeBytes_operand (t : Tables) (b0 b1 b2 : Byte) (o : Operand)
    (h : (decodeBytes t b0 b1 b2).operand = some o) : operandOf (t.modeAt b0) b1 b2 = some o := by
  unfold decodeBytes at h
  split at h
  next op _ =>
    cases hinstr : instrOf op (operandOf (t.modeAt b0) b1 b2) with
    | none => simp [hinstr, Instr.operand] at h
    | some i =>
      rw [hinstr, Option.getD_some] at h
      rcases (instrOf_eq_some op _ i hinstr).2 with hoperand | ⟨hnone, -⟩
      · exact hoperand ▸ h
      · simp [hnone] at h
  next => cases h

/-- An assembled immediate is the first byte after the opcode. -/
theorem operandOf_eq_some_imm (m : Mode) (b1 b2 b : Byte) (h : operandOf m b1 b2 = some (.imm b)) : b1 = b := by
  cases m <;> simp only [operandOf, reduceCtorEq, Option.some.injEq, Operand.imm.injEq] at h
  exact h

/-- The operand of a fetched instruction is the byte at its effective address: for an immediate, the byte after the
opcode. -/
theorem operandByte_of_fetched (s : State) (o : Operand) (h : (fetchInstr s).operand = some o) :
    operandByte o s = memRead s (resolve o s) := by
  cases o
  case imm b1 => exact (operandOf_eq_some_imm _ _ _ _ (operandOf_of_decodeBytes_operand _ _ _ _ _ h)).symm
  all_goals exact operandByte_of_mode_ne _ s nofun

/-- Settles O22: each address is a sum of `PC`, the operand and a constant, and `operandByte_of_fetched`. -/
theorem directModesResolve : Obligations.DirectModesResolve := by
  refine ⟨fun s w => rfl, fun s b1 => zext16_toNat b1, fun s b1 => BitVec.toNat_add s.pc 1, fun s b1 => ?_,
    operandByte_of_fetched⟩
  have hnext : (s.pc + 2).toNat = (s.pc.toNat + 2) % 65536 := BitVec.toNat_add s.pc 2
  rw [resolve, add_sext16_toNat, hnext]
  omega

end Sys2Proof.Machine

/-! PROOFS. Family 40_step_and_addressing.md, section 3: the stack (rules R117 to R120). -/

namespace Sys2Proof.Machine

/-! ### Stores as writes -/

/-- A state that differs from `s` by the stores `ws`, their dirty rule and the fields of `t` ends storing `ws`. -/
theorem endsStoring_of_storeAll (s t u : State) (ws : List (Addr × Byte)) (hcfg : u.cfg = s.cfg)
    (hdirty : u.dirty = (s.dirty || ws.any (fun w => dirtyQualifies s.cfg w.1)))
    (hmem : u.mem = storeAll s.cfg.layout s.mem ws) (hrest : u = { t with mem := u.mem, dirty := u.dirty }) :
    EndsStoring (.next u) s t ws :=
  ⟨u, rfl, ⟨hdirty, fun hwf => memRead_of_storeAll s u ws hwf hmem hcfg⟩, hrest⟩

/-- `Push8` stores at the stack cell of the old `SP` and lowers `SP` by 1 (rule R117). -/
theorem push8_endsStoring (s : State) (v : Byte) :
    EndsStoring (.next (push8 s v)) s { s with sp := s.sp - 1 } [(stackAddr s.sp, v)] :=
  endsStoring_of_storeAll s _ _ _ rfl (by simp) rfl rfl

/-- `Push16` stores the high byte and then the low byte, and lowers `SP` by 2 (rule R118). -/
theorem push16_endsStoring (s : State) (w : Addr) :
    EndsStoring (.next (push16 s w)) s { s with sp := s.sp - 2 }
      [(stackAddr s.sp, highByte w), (stackAddr (s.sp - 1), lowByte w)] := by
  have hsp : s.sp - 2 = s.sp - 1 - 1 := by bv_omega
  exact hsp ▸ endsStoring_of_storeAll s _ _ _ rfl (by simp [Bool.or_assoc]) rfl rfl

/-! ### The stack pointer as a number -/

/-- A stack cell's address, from the stack pointer's value. -/
theorem ofNat_stackAddr (sp : Byte) : BitVec.ofNat 16 (0x0100 + sp.toNat) = stackAddr sp := by
  rw [← stackAddr_toNat, BitVec.ofNat_toNat, BitVec.setWidth_eq]

/-- The stack pointer below, from its value. -/
theorem ofNat_sp_pred (sp : Byte) : BitVec.ofNat 8 ((sp.toNat + 255) % 256) = sp - 1 := by
  bv_omega

/-- The stack pointer above, from its value. -/
theorem ofNat_sp_succ (sp : Byte) : BitVec.ofNat 8 ((sp.toNat + 1) % 256) = sp + 1 := by
  bv_omega

/-- Settles O28: `push8_endsStoring` and `pull8_eq`, with the stack pointer and its cell as numbers. -/
theorem stackPrimitives : Obligations.StackPrimitives := by
  intro s v
  simp only [ofNat_stackAddr, ofNat_sp_pred, ofNat_sp_succ]
  exact ⟨push8_endsStoring s v, pull8_eq s⟩

/-! ### A word pushed and pulled -/

/-- In canonical memory, pulling a pushed word answers the word and restores the state's `SP` (rule R120). -/
theorem pull16_push16 (s : State) (w : Addr) (hwf : Memory.wf s.mem) :
    pull16 (push16 s w) = (w, (push16 s w).setSp s.sp) := by
  have hlow : s.sp - 1 - 1 + 1 = s.sp - 1 := by bv_omega
  have hhigh : s.sp - 1 + 1 = s.sp := by bv_omega
  have hne : s.sp ≠ s.sp - 1 := by bv_omega
  rw [pull16_eq, push16_sp, hlow, hhigh, memRead_push16 s hwf, memRead_push16 s hwf]
  simp only [sameCell_stackAddr, if_true, if_neg hne, word_bytes]

/-- Settles O29: `push16_endsStoring` and `pull16_push16`. -/
theorem wordPushPullsBack : Obligations.WordPushPullsBack := by
  refine fun s w => ⟨push16_endsStoring s w, fun hwf => ?_⟩
  rw [pull16_push16 s w hwf]
  exact ⟨rfl, rfl⟩

end Sys2Proof.Machine

/-! PROOFS. Family 41_arithmetic.md: the opcode bytes of an operation with operands, and ADC (rule R130). -/

namespace Sys2Proof

/-! ### The opcode bytes of an operation (rules R86, R87) -/

/-- Rule R87 lists a mode of an operation once, so the listed byte is the operation's opcode in that mode. -/
theorem opcodeOf_of_mem_encodings (op : Op) : ∀ e ∈ op.encodings, opcodeOf op e.2 = some e.1 := by
  cases op <;> decide

/-- The opcode of an instruction that has an operation is the operation's in the instruction's mode. -/
theorem opcode_of_op (i : Instr) (op : Op) (h : i.op = some op) : i.opcode = opcodeOf op i.mode := by
  unfold Instr.opcode
  split
  · cases h
  · rw [h, Option.bind_some]

/-- A byte whose cell holds an operation and the mode of `o`, followed by the bytes of `o`, decodes to the operation's
instruction with operand `o`, whatever follows. -/
theorem decode_of_opcodeCell (b : Byte) (op : Op) (o : Operand) (i : Instr) (rest : List Byte)
    (hcell : opcodeCell b = some (op, o.mode)) (hinstr : instrOf op (some o) = some i) :
    decode (b :: o.bytes ++ rest) = .ok (i, rest) := by
  have hop : Tables.standard.opAt b = some op := by rw [standard_opAt, hcell]; rfl
  have hmode : Tables.standard.modeAt b = o.mode := by rw [standard_modeAt, hcell]; rfl
  have hlength : lengthOf Tables.standard b = o.mode.width := by simp only [lengthOf, hop, hmode]
  have hbytes : ∀ b1 b2, operandOf o.mode b1 b2 = some o → decodeBytes Tables.standard b b1 b2 = i := by
    intro b1 b2 hoperand
    simp only [decodeBytes, hop, hmode, hoperand, hinstr, Option.getD_some]
  cases o
  case abs w | abx w | aby w | ind w =>
    have hword := hbytes (lowByte w) (highByte w) (by simp [operandOf, Operand.mode])
    simpa [decode, decodeWith, Operand.bytes, hlength, Operand.mode, Mode.width] using hword
  case imm b1 | zp b1 | zpx b1 | zpy b1 | rel b1 | izx b1 | izy b1 =>
    have hbyte := hbytes b1 0 rfl
    simpa [decode, decodeWith, Operand.bytes, hlength, Operand.mode, Mode.width] using hbyte

namespace Machine

/-- The instructions `mk o` of an operation `op` have exactly the opcode bytes of `l`, where `l` is the part of the
operation's encodings with the modes in which `mk o` is well-formed. -/
theorem hasOpcodes_of_encodings (mk : Operand → Instr) (op : Op) (l : List (Byte × Mode))
    (hinstr : ∀ o, instrOf op (some o) = some (mk o)) (hoperand : ∀ o, (mk o).operand = some o)
    (hrow : ∀ o, Laws.OpcodeRow.Statement (mk o)) (hmodes : ∀ o, (mk o).WellFormed = true ↔ o.mode ∈ l.map Prod.snd)
    (hsub : l ⊆ op.encodings) :
    HasOpcodes mk l := by
  refine fun o => ⟨hmodes o, fun b hb => ?_⟩
  have hop : (mk o).op = some op := (instrOf_eq_some op _ _ (hinstr o)).1
  have hmode : (mk o).mode = o.mode := by rw [Instr.mode, hoperand, modeOf]
  obtain ⟨b', hopcode, hcell⟩ := hrow o ((hmodes o).mpr (List.mem_map_of_mem hb))
  rw [hop, hmode, Option.map_some] at hcell
  have hcode : (mk o).opcode = some b := by
    rw [opcode_of_op (mk o) op hop, hmode, opcodeOf_of_mem_encodings op _ (hsub hb)]
  obtain rfl : b' = b := Option.some.inj (hopcode.symm.trans hcode)
  refine ⟨?_, fun rest => decode_of_opcodeCell b' op o (mk o) rest hcell (hinstr o)⟩
  rw [encode, hopcode, hoperand, operandBytes]

/-! ### Sums with carry -/

/-- Bit 7 of a byte is its sign. -/
theorem bitOf_seven_eq_decide (v : Byte) : bitOf v 7 = decide (128 ≤ v.toNat) := by
  simpa [bitOf, BitVec.msb_eq_getLsbD_last] using BitVec.msb_eq_decide v

theorem sumByte_toNat (sum : Nat) : (sumByte sum).toNat = sum % 256 := BitVec.toNat_ofNat sum 8

/-- A sum's byte depends on the sum modulo 256 alone. -/
theorem ofNat_mod_eq_sumByte (sum : Nat) : BitVec.ofNat 8 (sum % 256) = sumByte sum := by
  apply BitVec.eq_of_toNat_eq
  rw [sumByte_toNat, BitVec.toNat_ofNat, Nat.mod_mod]

/-- `V` of ADC by value: the operands have one sign and the result the other. -/
theorem overflowAdd_eq_true_iff (a m r : Byte) :
    overflowAdd a m r = true ↔ (128 ≤ a.toNat ↔ 128 ≤ m.toNat) ∧ ¬ (128 ≤ r.toNat ↔ 128 ≤ a.toNat) := by
  simp [overflowAdd, bitOf_seven_eq_decide]

/-- Rule R130: `V` of ADC is 1 exactly when the signed sum is out of range. -/
theorem overflowAdd_sumByte_iff (a m : Byte) (c : Bool) :
    overflowAdd a m (sumByte (carrySum a m c)) = true ↔
      a.toInt + m.toInt + c.toNat < -128 ∨ 127 < a.toInt + m.toInt + c.toNat := by
  have hc : c.toNat ≤ 1 := Bool.toNat_le c
  rw [overflowAdd_eq_true_iff, sumByte_toNat, carrySum, BitVec.toInt_eq_toNat_cond, BitVec.toInt_eq_toNat_cond]
  split <;> split <;> omega

/-- The writes ADC and SBC share, as one record. -/
theorem writeSum_eq (s : State) (r : Byte) (carry overflow : Bool) :
    writeSum s r carry overflow = { s with a := r, flags := { withNZ s.flags r with v := overflow, c := carry } } := rfl

/-- Settles O30: the opcodes are the encodings of rule R87, the next state is `writeSum_eq` of the sum, and
`overflowAdd_sumByte_iff`. -/
theorem adcAddsWithCarry : Obligations.AdcAddsWithCarry := by
  refine ⟨hasOpcodes_of_encodings .adc .ADC _ (fun _ => rfl) (fun _ => rfl) Laws.OpcodeRow.adc
    (fun _ => List.contains_iff_mem) (List.Subset.refl _), fun o s => ?_⟩
  simp only [ofNat_mod_eq_sumByte]
  exact ⟨⟨congrArg Host.Outcome.next (writeSum_eq (beginInstr s) _ _ _), fun addr => rfl⟩,
    overflowAdd_sumByte_iff s.a (operandByte o s) s.flags.c⟩

end Machine

end Sys2Proof

/-! PROOFS. Family 42_logic_load_store_transfer.md: the opcode byte of an operation without operand, the writes of one
register with N and Z, and the logical operations, loads and transfers (rules R140 to R142, R144 to R146, R150 to
R154). -/

namespace Sys2Proof

/-! ### The opcode byte of an instruction without operand (rules R86, R87) -/

/-- A byte whose cell holds an operation in the mode `imp` decodes, alone, to the operation's instruction without
operand, whatever follows. -/
theorem decode_of_opcodeCell_imp (b : Byte) (op : Op) (i : Instr) (rest : List Byte)
    (hcell : opcodeCell b = some (op, .imp)) (hinstr : instrOf op none = some i) :
    decode (b :: rest) = .ok (i, rest) := by
  have hop : Tables.standard.opAt b = some op := by rw [standard_opAt, hcell]; rfl
  have hmode : Tables.standard.modeAt b = .imp := by rw [standard_modeAt, hcell]; rfl
  have hlength : lengthOf Tables.standard b = 1 := by simp only [lengthOf, hop, hmode, Mode.width]
  have hbyte : decodeBytes Tables.standard b 0 0 = i := by
    simp only [decodeBytes, hop, hmode, operandOf, hinstr, Option.getD_some]
  simp only [decode, decodeWith, hlength, hbyte]

namespace Machine

/-- A well-formed instruction without operand has the one opcode byte that its operation has in the mode `imp`. -/
theorem hasOpcode_of_opcode (i : Instr) (op : Op) (b : Byte) (hinstr : instrOf op none = some i)
    (hoperand : i.operand = none) (hwf : i.WellFormed = true) (hrow : Laws.OpcodeRow.Statement i)
    (hopcode : i.opcode = some b) :
    HasOpcode i b := by
  have hop : i.op = some op := (instrOf_eq_some op _ _ hinstr).1
  have hmode : i.mode = .imp := by rw [Instr.mode, hoperand, modeOf]
  obtain ⟨b', hopcode', hcell⟩ := hrow hwf
  obtain rfl : b' = b := Option.some.inj (hopcode'.symm.trans hopcode)
  rw [hop, hmode, Option.map_some] at hcell
  refine ⟨hwf, ?_, fun rest => decode_of_opcodeCell_imp b' op i rest hcell hinstr⟩
  rw [encode, hopcode, hoperand, operandBytes]

/-! ### Instructions that write one register, with N and Z of it -/

theorem writeA_eq (s : State) (r : Byte) : writeA s r = { s with a := r, flags := withNZ s.flags r } := rfl

theorem writeX_eq (s : State) (r : Byte) : writeX s r = { s with x := r, flags := withNZ s.flags r } := rfl

theorem writeY_eq (s : State) (r : Byte) : writeY s r = { s with y := r, flags := withNZ s.flags r } := rfl

/-- An instruction that ends with `A <- r; SetNZ(A)` changes `A`, N and Z, `PC` and `cycles`, and no memory. -/
theorem completes_of_writeA (i : Instr) (s : State) (r : Byte) (h : exec i s = .next (writeA (beginInstr s) r)) :
    Completes i s { advanced s with a := r, flags := withNZ s.flags r } := by
  rw [writeA_eq, beginInstr_eq_advanced] at h
  exact ⟨h, fun _ => rfl⟩

/-- An instruction that ends with `X <- r; SetNZ(X)` changes `X`, N and Z, `PC` and `cycles`, and no memory. -/
theorem completes_of_writeX (i : Instr) (s : State) (r : Byte) (h : exec i s = .next (writeX (beginInstr s) r)) :
    Completes i s { advanced s with x := r, flags := withNZ s.flags r } := by
  rw [writeX_eq, beginInstr_eq_advanced] at h
  exact ⟨h, fun _ => rfl⟩

/-- An instruction that ends with `Y <- r; SetNZ(Y)` changes `Y`, N and Z, `PC` and `cycles`, and no memory. -/
theorem completes_of_writeY (i : Instr) (s : State) (r : Byte) (h : exec i s = .next (writeY (beginInstr s) r)) :
    Completes i s { advanced s with y := r, flags := withNZ s.flags r } := by
  rw [writeY_eq, beginInstr_eq_advanced] at h
  exact ⟨h, fun _ => rfl⟩

/-- Settles O32: the opcodes are the encodings of rule R87, and each operation writes its result to `A`. -/
theorem logicalOperations : Obligations.LogicalOperations := by
  refine ⟨?andOpcodes, ?oraOpcodes, ?eorOpcodes, fun o s => ⟨?and, ?ora, ?eor⟩⟩
  case andOpcodes =>
    exact hasOpcodes_of_encodings .and .AND _ (fun _ => rfl) (fun _ => rfl) Laws.OpcodeRow.and
      (fun _ => List.contains_iff_mem) (List.Subset.refl _)
  case oraOpcodes =>
    exact hasOpcodes_of_encodings .ora .ORA _ (fun _ => rfl) (fun _ => rfl) Laws.OpcodeRow.ora
      (fun _ => List.contains_iff_mem) (List.Subset.refl _)
  case eorOpcodes =>
    exact hasOpcodes_of_encodings .eor .EOR _ (fun _ => rfl) (fun _ => rfl) Laws.OpcodeRow.eor
      (fun _ => List.contains_iff_mem) (List.Subset.refl _)
  case and => exact completes_of_writeA _ s (s.a &&& operandByte o s) rfl
  case ora => exact completes_of_writeA _ s (s.a ||| operandByte o s) rfl
  case eor => exact completes_of_writeA _ s (s.a ^^^ operandByte o s) rfl

/-- Settles O34: the opcodes are the encodings of rule R87, and each load writes the operand, read in the state before
the instruction, to its register. -/
theorem loadsSetTheRegister : Obligations.LoadsSetTheRegister := by
  refine ⟨?ldaOpcodes, ?ldxOpcodes, ?ldyOpcodes, fun o s => ⟨?lda, ?ldx, ?ldy⟩⟩
  case ldaOpcodes =>
    exact hasOpcodes_of_encodings .lda .LDA _ (fun _ => rfl) (fun _ => rfl) Laws.OpcodeRow.lda
      (fun _ => List.contains_iff_mem) (List.Subset.refl _)
  case ldxOpcodes =>
    exact hasOpcodes_of_encodings .ldx .LDX _ (fun _ => rfl) (fun _ => rfl) Laws.OpcodeRow.ldx
      (fun _ => List.contains_iff_mem) (List.Subset.refl _)
  case ldyOpcodes =>
    exact hasOpcodes_of_encodings .ldy .LDY _ (fun _ => rfl) (fun _ => rfl) Laws.OpcodeRow.ldy
      (fun _ => List.contains_iff_mem) (List.Subset.refl _)
  case lda => exact completes_of_writeA _ s (operandByte o s) rfl
  case ldx => exact completes_of_writeX _ s (operandByte o s) rfl
  case ldy => exact completes_of_writeY _ s (operandByte o s) rfl

/-- Settles O36: the opcodes are the encodings of rule R87, and each transfer writes the source to its register. -/
theorem transfersCopyTheRegister : Obligations.TransfersCopyTheRegister :=
  ⟨hasOpcode_of_opcode .tax .TAX 0xAA rfl rfl rfl Laws.OpcodeRow.tax rfl,
    hasOpcode_of_opcode .tay .TAY 0xA8 rfl rfl rfl Laws.OpcodeRow.tay rfl,
    hasOpcode_of_opcode .txa .TXA 0x8A rfl rfl rfl Laws.OpcodeRow.txa rfl,
    hasOpcode_of_opcode .tya .TYA 0x98 rfl rfl rfl Laws.OpcodeRow.tya rfl,
    hasOpcode_of_opcode .tsx .TSX 0xBA rfl rfl rfl Laws.OpcodeRow.tsx rfl,
    fun s => ⟨completes_of_writeX .tax s s.a rfl, completes_of_writeY .tay s s.a rfl,
      completes_of_writeA .txa s s.x rfl, completes_of_writeA .tya s s.y rfl, completes_of_writeX .tsx s s.sp rfl⟩⟩

end Machine

end Sys2Proof

/-! PROOFS. Family 43_shift_rotate.md: the opcode bytes of an operation with both forms, the results and writes of a
shift, and the shifts and rotates (rules R170 to R173). -/

namespace Sys2Proof.Machine

/-! ### The opcode bytes of an operation with an accumulator form (rules R86, R87) -/

theorem operand_mode_ne_imp (o : Operand) : o.mode ≠ .imp := by
  cases o <;> exact Mode.noConfusion

/-- The instructions `mk` of an operation `op` whose encodings are `b` in the mode `imp` and then those of `l`: the
accumulator form has the byte `b`, the memory form exactly the bytes of `l`. -/
theorem hasOpcodes_of_both_forms (mk : Option Operand → Instr) (op : Op) (b : Byte) (l : List (Byte × Mode))
    (hencodings : op.encodings = (b, .imp) :: l) (hinstr : ∀ o, instrOf op o = some (mk o))
    (hoperand : ∀ o, (mk o).operand = o) (hrow : ∀ o, Laws.OpcodeRow.Statement (mk o))
    (hwf : ∀ o, (mk o).WellFormed = (op.encodings.map Prod.snd).contains (modeOf o)) :
    HasOpcode (mk none) b ∧ HasOpcodes (fun o => mk (some o)) l := by
  rw [hencodings] at hwf
  constructor
  · have hopcode : (mk none).opcode = some b := by
      rw [opcode_of_op (mk none) op (instrOf_eq_some op _ _ (hinstr none)).1, Instr.mode, hoperand]
      exact opcodeOf_of_mem_encodings op (b, .imp) (hencodings ▸ List.mem_cons_self)
    have himp : (mk none).WellFormed = true := by
      rw [hwf, List.contains_iff_mem]
      exact List.mem_cons_self
    exact hasOpcode_of_opcode (mk none) op b (hinstr none) (hoperand none) himp (hrow none) hopcode
  · refine hasOpcodes_of_encodings _ op l (fun o => hinstr (some o)) (fun o => hoperand (some o))
      (fun o => hrow (some o)) (fun o => ?_) (hencodings ▸ List.subset_cons_self _ _)
    rw [hwf, List.contains_iff_mem, List.map_cons, List.mem_cons]
    exact or_iff_right (operand_mode_ne_imp o)

/-! ### Instructions that end with the writes of a shift -/

/-- The accumulator form of a shift changes `A`, N, Z and C, `PC` and `cycles`, and no memory. -/
theorem completes_of_writeShift (i : Instr) (s : State) (r : Byte) (carry : Bool) (f : Flags)
    (h : exec i s = .next (writeShift none (beginInstr s) r carry)) (hf : f = { withNZ s.flags r with c := carry }) :
    Completes i s { advanced s with a := r, flags := f } := by
  subst hf
  exact ⟨h, fun _ => rfl⟩

/-- The memory form of a shift stores its result, changes N, Z and C, `PC` and `cycles`, and leaves `A` alone. -/
theorem completesStoring_of_writeShift (i : Instr) (s : State) (addr : Addr) (r : Byte) (carry : Bool) (f : Flags)
    (h : exec i s = .next (writeShift (some addr) (beginInstr s) r carry))
    (hf : f = { withNZ s.flags r with c := carry }) :
    CompletesStoring i s { advanced s with flags := f } [(addr, r)] := by
  subst hf
  obtain ⟨hcfg, hdirty, hmem⟩ := writeShift_stores (some addr) s (beginInstr s) r carry rfl rfl rfl
  rw [CompletesStoring, h]
  exact endsStoring_of_storeAll s _ _ _ hcfg hdirty hmem rfl

/-! ### The results of the shifts, bit by bit -/

theorem ofNat_double_mod_eq_aslByte (v : Byte) : BitVec.ofNat 8 (v.toNat * 2 % 256) = aslByte v :=
  ofNat_mod_eq_sumByte (v.toNat * 2)

/-- The value of a byte and a bit below it. -/
theorem toNat_append_ofBool (v : Byte) (c : Bool) : (v ++ BitVec.ofBool c).toNat = v.toNat * 2 + c.toNat := by
  rw [BitVec.toNat_append, BitVec.toNat_ofBool, ← Nat.shiftLeft_add_eq_or_of_lt c.toNat_lt, Nat.shiftLeft_eq, pow_one]

/-- The value of a byte and a bit above it. -/
theorem toNat_ofBool_append (v : Byte) (c : Bool) : (BitVec.ofBool c ++ v).toNat = c.toNat * 256 + v.toNat := by
  rw [BitVec.toNat_append, BitVec.toNat_ofBool, ← Nat.shiftLeft_add_eq_or_of_lt v.isLt, Nat.shiftLeft_eq]

/-- ROL leaves the low eight of the nine bits `v, c0`. -/
theorem rolByte_eq_extract (v : Byte) (c0 : Bool) : rolByte v c0 = (v ++ BitVec.ofBool c0).extractLsb' 0 8 := by
  apply BitVec.eq_of_toNat_eq
  have hc0 : c0.toNat ≤ 1 := Bool.toNat_le c0
  rw [BitVec.extractLsb'_toNat, toNat_append_ofBool, rolByte, BitVec.toNat_ofNat, Nat.shiftRight_zero]
  omega

/-- ROR leaves the high eight of the nine bits `c0, v`. -/
theorem rorByte_eq_extract (v : Byte) (c0 : Bool) : rorByte v c0 = (BitVec.ofBool c0 ++ v).extractLsb' 1 8 := by
  apply BitVec.eq_of_toNat_eq
  rw [BitVec.extractLsb'_toNat, toNat_ofBool_append, rorByte, BitVec.toNat_ofNat, Nat.shiftRight_one]
  omega

/-- Bit 7 of ROR's result is the bit shifted in. -/
theorem rorByte_getLsbD_seven (v : Byte) (c0 : Bool) : (rorByte v c0).getLsbD 7 = c0 := by
  rw [rorByte_eq_extract, BitVec.getLsbD_extractLsb', BitVec.getLsbD_append]
  simp

/-- Rule R173: N of ROR is the bit shifted in. -/
theorem withNZ_rorByte (f : Flags) (v : Byte) (c0 carry : Bool) :
    { withNZ f (rorByte v c0) with n := c0, c := carry } = { withNZ f (rorByte v c0) with c := carry } := by
  simp only [withNZ, rorByte_getLsbD_seven]

/-- Rule R172: ROL rotates the nine bits `C, v` left by one. -/
theorem append_rolByte_eq_rotateLeft (v : Byte) (c0 : Bool) :
    BitVec.ofBool (v.getLsbD 7) ++ rolByte v c0 = (BitVec.ofBool c0 ++ v).rotateLeft 1 := by
  rw [rolByte_eq_extract]
  ext i hi
  rw [BitVec.getElem_append, BitVec.getElem_rotateLeft]
  split
  case isTrue hresult =>
    -- a bit of the result: bit 0 is the old carry, any other the operand's bit below
    grind
  case isFalse hcarry =>
    obtain rfl : i = 8 := by omega
    grind

/-- Rule R173: ROR rotates the nine bits `v, C` right by one. -/
theorem rorByte_append_eq_rotateRight (v : Byte) (c0 : Bool) :
    rorByte v c0 ++ BitVec.ofBool (v.getLsbD 0) = (v ++ BitVec.ofBool c0).rotateRight 1 := by
  rw [rorByte_eq_extract]
  ext i hi
  rw [BitVec.getElem_append, BitVec.getElem_rotateRight]
  split
  case isTrue hcarry =>
    obtain rfl : i = 0 := by omega
    grind
  case isFalse hresult =>
    -- a bit of the result: bit 7 is the old carry, any other the operand's bit above
    grind

/-- Settles O38: the opcodes are the encodings of rule R87, the next states are the writes of a shift, and
`append_rolByte_eq_rotateLeft`. -/
theorem leftShiftsAndRotates : Obligations.LeftShiftsAndRotates := by
  obtain ⟨haslA, haslM⟩ := hasOpcodes_of_both_forms .asl .ASL _ _ rfl (fun _ => rfl) (fun _ => rfl) Laws.OpcodeRow.asl
    (fun _ => rfl)
  obtain ⟨hrolA, hrolM⟩ := hasOpcodes_of_both_forms .rol .ROL _ _ rfl (fun _ => rfl) (fun _ => rfl) Laws.OpcodeRow.rol
    (fun _ => rfl)
  refine ⟨haslA, haslM, hrolA, hrolM, fun o s => ?_⟩
  simp only [ofNat_double_mod_eq_aslByte]
  exact ⟨completes_of_writeShift _ s _ _ _ rfl rfl, completesStoring_of_writeShift _ s _ _ _ _ rfl rfl,
    completes_of_writeShift _ s _ _ _ rfl rfl, completesStoring_of_writeShift _ s _ _ _ _ rfl rfl,
    fun v => append_rolByte_eq_rotateLeft v s.flags.c⟩

/-- Settles O39: the opcodes are the encodings of rule R87, the next states are the writes of a shift, with N the bit
shifted in (for LSR, which is ROR of a clear carry, a 0), and `rorByte_append_eq_rotateRight`. -/
theorem rightShiftsAndRotates : Obligations.RightShiftsAndRotates := by
  obtain ⟨hlsrA, hlsrM⟩ := hasOpcodes_of_both_forms .lsr .LSR _ _ rfl (fun _ => rfl) (fun _ => rfl) Laws.OpcodeRow.lsr
    (fun _ => rfl)
  obtain ⟨hrorA, hrorM⟩ := hasOpcodes_of_both_forms .ror .ROR _ _ rfl (fun _ => rfl) (fun _ => rfl) Laws.OpcodeRow.ror
    (fun _ => rfl)
  exact ⟨hlsrA, hlsrM, hrorA, hrorM, fun o s =>
    ⟨completes_of_writeShift _ s _ _ _ rfl (withNZ_rorByte s.flags s.a false _),
      completesStoring_of_writeShift _ s _ _ _ _ rfl (withNZ_rorByte s.flags (memRead s (resolve o s)) false _),
      completes_of_writeShift _ s _ _ _ rfl (withNZ_rorByte s.flags s.a s.flags.c _),
      completesStoring_of_writeShift _ s _ _ _ _ rfl (withNZ_rorByte s.flags (memRead s (resolve o s)) s.flags.c _),
      fun v => rorByte_append_eq_rotateRight v s.flags.c⟩⟩

end Sys2Proof.Machine

/-! PROOFS. Family 44_compare.md: the writes of a compare, and its flags as those of a subtraction without borrow (rules
R180 to R183). -/

namespace Sys2Proof.Machine

/-- An instruction that ends with the flags of a compare changes C, Z and N, `PC` and `cycles`, and no memory. -/
theorem completes_of_compare (i : Instr) (s : State) (r m : Byte)
    (h : exec i s = .next ((beginInstr s).setFlags (s.flags.compare r m))) :
    Completes i s { advanced s with
      flags := { s.flags with c := decide (r.toNat ≥ m.toNat), z := decide (r = m), n := (r - m).getLsbD 7 } } :=
  ⟨h, fun _ => rfl⟩

/-- Settles O40: the opcodes are the encodings of rule R87, and each instruction writes the flags of its register's
compare. -/
theorem comparesSetFlags : Obligations.ComparesSetFlags := by
  refine ⟨?cmpOpcodes, ?cpxOpcodes, ?cpyOpcodes, fun o s => ⟨?cmp, ?cpx, ?cpy⟩⟩
  case cmpOpcodes =>
    exact hasOpcodes_of_encodings .cmp .CMP _ (fun _ => rfl) (fun _ => rfl) Laws.OpcodeRow.cmp
      (fun _ => List.contains_iff_mem) (List.Subset.refl _)
  case cpxOpcodes =>
    exact hasOpcodes_of_encodings .cpx .CPX _ (fun _ => rfl) (fun _ => rfl) Laws.OpcodeRow.cpx
      (fun _ => List.contains_iff_mem) (List.Subset.refl _)
  case cpyOpcodes =>
    exact hasOpcodes_of_encodings .cpy .CPY _ (fun _ => rfl) (fun _ => rfl) Laws.OpcodeRow.cpy
      (fun _ => List.contains_iff_mem) (List.Subset.refl _)
  case cmp => exact completes_of_compare _ s s.a (operandByte o s) rfl
  case cpx => exact completes_of_compare _ s s.x (operandByte o s) rfl
  case cpy => exact completes_of_compare _ s s.y (operandByte o s) rfl

/-! ### A compare as a subtraction -/

/-- A compare's Z is that of the difference: its flags are N and Z of `r - m`, with C the unsigned order. -/
theorem compare_eq_withNZ_sub (f : Flags) (r m : Byte) :
    f.compare r m = { withNZ f (r - m) with c := decide (m.toNat ≤ r.toNat) } := by
  have hzero : (r == m) = decide (r - m = 0) := by rw [beq_eq_decide, decide_eq_decide, sub_eq_zero]
  simp only [Flags.compare, withNZ, bitOf, hzero]

theorem onesComplement_toNat (m : Byte) : (onesComplement m).toNat = 255 - m.toNat := by
  have hnot : onesComplement m = ~~~m := BitVec.xor_allOnes
  rw [hnot, BitVec.toNat_not]

/-- SBC's sum with carry-in 1. -/
theorem carrySum_onesComplement_true (r m : Byte) :
    carrySum r (onesComplement m) true = r.toNat + 256 - m.toNat := by
  rw [carrySum, onesComplement_toNat, Bool.toNat_true]
  omega

/-- The byte of SBC's sum with carry-in 1 is the difference. -/
theorem sumByte_onesComplement_true (r m : Byte) : sumByte (carrySum r (onesComplement m) true) = r - m := by
  apply BitVec.eq_of_toNat_eq
  rw [sumByte_toNat, carrySum_onesComplement_true, BitVec.toNat_sub]
  omega

/-- SBC with carry-in 1 carries out exactly when it needs no borrow. -/
theorem sumCarry_onesComplement_true (r m : Byte) :
    sumCarry (carrySum r (onesComplement m) true) = decide (m.toNat ≤ r.toNat) := by
  rw [sumCarry, carrySum_onesComplement_true, decide_eq_decide]
  omega

/-- No addressing mode reads `A` or a flag. -/
theorem operandByte_of_a_flags (o : Operand) (s : State) (a : Byte) (f : Flags) :
    operandByte o { s with a := a, flags := f } = operandByte o s := by
  cases o <;> rfl

/-- Rule R183: SBC with carry-in 1 leaves the flags of the compare of `A`, but for `V`, and the difference in `A`. -/
theorem exec_sbc_of_carry (o : Operand) (s : State) (hcarry : s.flags.c = true) :
    exec (.sbc o) s = .next { advanced s with
      a := s.a - operandByte o s
      flags := { s.flags.compare s.a (operandByte o s) with
        v := overflowSub s.a (operandByte o s) (s.a - operandByte o s) } } := by
  simp only [exec, execSbc, hcarry, sumByte_onesComplement_true, sumCarry_onesComplement_true, writeSum_eq,
    compare_eq_withNZ_sub]
  rfl

/-- Settles O41: each compare ends with the flags of its register's compare, which `exec_sbc_of_carry` gives for SBC. -/
theorem compareFlagsAreThoseOfSubtract : Obligations.CompareFlagsAreThoseOfSubtract := by
  intro o s p hp
  have hcompare : exec p.1 s = .next ((beginInstr s).setFlags (s.flags.compare p.2 (operandByte o s))) := by
    simp only [List.mem_cons, List.not_mem_nil, or_false] at hp
    rcases hp with rfl | rfl | rfl <;> rfl
  have hsbc := exec_sbc_of_carry o { s with a := p.2, flags := { s.flags with c := true } } rfl
  rw [operandByte_of_a_flags] at hsbc
  exact ⟨_, _, hcompare, hsbc, rfl, rfl, rfl⟩

end Sys2Proof.Machine

/-! PROOFS. Family 45_incdec.md: increment and decrement, of memory and of the index registers (rules R190 to R195). The
results modulo 256 are `ofNat_sp_succ` and `ofNat_sp_pred`, which hold of any byte. -/

namespace Sys2Proof.Machine

/-- An instruction that ends with `MemWrite(ea, 1, r); SetNZ(r)` stores `r` at `ea`, changes N and Z, `PC` and `cycles`,
and no register. -/
theorem completesStoring_of_writeByteNZ (i : Instr) (s : State) (ea : Addr) (r : Byte)
    (h : exec i s = .next (writeByteNZ (beginInstr s) ea r)) :
    CompletesStoring i s { advanced s with flags := withNZ s.flags r } [(ea, r)] := by
  have hdirty : (writeByteNZ (beginInstr s) ea r).dirty =
      (s.dirty || [(ea, r)].any (fun w => dirtyQualifies s.cfg w.1)) := by
    simp [writeByteNZ]
  rw [CompletesStoring, h]
  exact endsStoring_of_storeAll s _ _ _ rfl hdirty rfl rfl

/-- Settles O42: the opcodes are the encodings of rule R87, and each instruction ends by storing its result at the
resolved address and setting N and Z of it. -/
theorem memoryIncrementDecrement : Obligations.MemoryIncrementDecrement := by
  refine ⟨?incOpcodes, ?decOpcodes, fun o s => ?results⟩
  case incOpcodes =>
    exact hasOpcodes_of_encodings .inc .INC _ (fun _ => rfl) (fun _ => rfl) Laws.OpcodeRow.inc
      (fun _ => List.contains_iff_mem) (List.Subset.refl _)
  case decOpcodes =>
    exact hasOpcodes_of_encodings .dec .DEC _ (fun _ => rfl) (fun _ => rfl) Laws.OpcodeRow.dec
      (fun _ => List.contains_iff_mem) (List.Subset.refl _)
  case results =>
    simp only [ofNat_sp_succ, ofNat_sp_pred]
    exact ⟨completesStoring_of_writeByteNZ (.inc o) s _ _ rfl, completesStoring_of_writeByteNZ (.dec o) s _ _ rfl⟩

/-- Settles O43: the opcodes are those of rule R87, and each instruction ends by writing its register and setting N and
Z of it. -/
theorem registerIncrementDecrement : Obligations.RegisterIncrementDecrement := by
  refine ⟨hasOpcode_of_opcode .inx .INX 0xE8 rfl rfl rfl Laws.OpcodeRow.inx rfl,
    hasOpcode_of_opcode .iny .INY 0xC8 rfl rfl rfl Laws.OpcodeRow.iny rfl,
    hasOpcode_of_opcode .dex .DEX 0xCA rfl rfl rfl Laws.OpcodeRow.dex rfl,
    hasOpcode_of_opcode .dey .DEY 0x88 rfl rfl rfl Laws.OpcodeRow.dey rfl, fun s => ?_⟩
  simp only [ofNat_sp_succ, ofNat_sp_pred]
  exact ⟨completes_of_writeX .inx s (s.x + 1) rfl, completes_of_writeY .iny s (s.y + 1) rfl,
    completes_of_writeX .dex s (s.x - 1) rfl, completes_of_writeY .dey s (s.y - 1) rfl⟩

end Sys2Proof.Machine

/-! PROOFS. Family 46_branch.md: the opcode bytes of an operation that always has an operand, the width of a fetched
instruction with one, the writes of a branch, and the eight branches (rules R200 to R208). -/

namespace Sys2Proof.Machine

/-! ### The opcode bytes of an operation that always has an operand (rules R86, R87) -/

/-- The instructions `mk o` of an operation that always has an operand have its encodings as their opcode bytes. -/
theorem hasOpcodes_encodings (mk : Operand → Instr) (op : Op) (hinstr : ∀ o, instrOf op (some o) = some (mk o))
    (hoperand : ∀ o, (mk o).operand = some o) (hrow : ∀ o, Laws.OpcodeRow.Statement (mk o))
    (hwf : ∀ o, (mk o).WellFormed = (op.encodings.map Prod.snd).contains o.mode) :
    HasOpcodes mk op.encodings :=
  hasOpcodes_of_encodings mk op _ hinstr hoperand hrow (fun o => by rw [hwf, List.contains_iff_mem])
    (List.Subset.refl _)

/-! ### The width of a fetched instruction (rules R82, R84) -/

/-- A mode assembles operands of that mode alone. -/
theorem mode_eq_of_operandOf_eq_some (m : Mode) (b1 b2 : Byte) (o : Operand) (h : operandOf m b1 b2 = some o) :
    m = o.mode := by
  cases m <;> cases h <;> rfl

/-- A byte that decodes to an instruction with an operand is no `INVALID` byte. -/
theorem opAt_ne_none_of_decodeBytes_operand (t : Tables) (b0 b1 b2 : Byte) (o : Operand)
    (h : (decodeBytes t b0 b1 b2).operand = some o) : t.opAt b0 ≠ none := by
  intro hinvalid
  rw [decodeBytes_of_opAt_none t b0 b1 b2 hinvalid] at h
  cases h

/-- Under sound tables, the `WIDTH` entry of a fetched instruction is the width of its operand's mode. -/
theorem fetchWidth_of_fetched (s : State) (o : Operand) (hwf : s.cfg.wf = true)
    (h : (fetchInstr s).operand = some o) : fetchWidth s = o.mode.width := by
  simp only [Config.wf, Bool.and_eq_true] at hwf
  have hentry := s.cfg.tables.entryOk_of_wf hwf.1 (memRead s s.pc)
  have hvalid := opAt_ne_none_of_decodeBytes_operand _ _ _ _ o h
  have hmode := mode_eq_of_operandOf_eq_some _ _ _ o (operandOf_of_decodeBytes_operand _ _ _ _ o h)
  rw [fetchWidth, (Tables.width_and_cost_of_valid _ _ hentry hvalid).1, hmode]

/-- Under sound tables, `PC` moves past a fetched instruction by the width of its operand's mode. -/
theorem advanced_pc_of_fetched (s : State) (o : Operand) (hwf : s.cfg.wf = true)
    (h : (fetchInstr s).operand = some o) : (advanced s).pc = s.pc + BitVec.ofNat 16 o.mode.width := by
  rw [← beginInstr_eq_advanced, beginInstr_pc, fetchWidth_of_fetched s o hwf h]

/-! ### Instructions that end with a branch -/

/-- Rule R208: a branch of the mode `rel` goes to `pc0 + 2 + sext_16(b1)`, or on to the next instruction. -/
theorem branchIf_rel_eq_branched (s : State) (taken : Bool) (b1 : Byte) :
    branchIf (beginInstr s) taken (resolve (.rel b1) s) = branched s taken b1 := by
  cases taken <;> rfl

/-- An instruction that ends with `if taken then pc <- ea` changes `PC` and `cycles`, and no memory. -/
theorem completes_of_branchIf (i : Instr) (s : State) (taken : Bool) (b1 : Byte)
    (h : exec i s = .next (branchIf (beginInstr s) taken (resolve (.rel b1) s))) :
    Completes i s (branched s taken b1) := by
  rw [branchIf_rel_eq_branched] at h
  exact ⟨h, fun _ => rfl⟩

/-- Settles O44: the opcodes are the encodings of rule R87, a fetched branch has the width 2 (`advanced_pc_of_fetched`),
and each branch ends with `branchIf` of its flag. -/
theorem branchesOnOneFlag : Obligations.BranchesOnOneFlag :=
  ⟨hasOpcodes_encodings .bcc .BCC (fun _ => rfl) (fun _ => rfl) Laws.OpcodeRow.bcc (fun _ => rfl),
    hasOpcodes_encodings .bcs .BCS (fun _ => rfl) (fun _ => rfl) Laws.OpcodeRow.bcs (fun _ => rfl),
    hasOpcodes_encodings .beq .BEQ (fun _ => rfl) (fun _ => rfl) Laws.OpcodeRow.beq (fun _ => rfl),
    hasOpcodes_encodings .bne .BNE (fun _ => rfl) (fun _ => rfl) Laws.OpcodeRow.bne (fun _ => rfl),
    hasOpcodes_encodings .bmi .BMI (fun _ => rfl) (fun _ => rfl) Laws.OpcodeRow.bmi (fun _ => rfl),
    hasOpcodes_encodings .bpl .BPL (fun _ => rfl) (fun _ => rfl) Laws.OpcodeRow.bpl (fun _ => rfl),
    hasOpcodes_encodings .bvc .BVC (fun _ => rfl) (fun _ => rfl) Laws.OpcodeRow.bvc (fun _ => rfl),
    hasOpcodes_encodings .bvs .BVS (fun _ => rfl) (fun _ => rfl) Laws.OpcodeRow.bvs (fun _ => rfl),
    fun b1 s => ⟨advanced_pc_of_fetched s (.rel b1),
      completes_of_branchIf _ s (!s.flags.c) b1 rfl, completes_of_branchIf _ s s.flags.c b1 rfl,
      completes_of_branchIf _ s s.flags.z b1 rfl, completes_of_branchIf _ s (!s.flags.z) b1 rfl,
      completes_of_branchIf _ s s.flags.n b1 rfl, completes_of_branchIf _ s (!s.flags.n) b1 rfl,
      completes_of_branchIf _ s (!s.flags.v) b1 rfl, completes_of_branchIf _ s s.flags.v b1 rfl⟩⟩

end Sys2Proof.Machine

/-! PROOFS. Family 47_stack_status_flags.md: the pushes and pulls of A and of the status byte, their round trips, and the
flag operations (rules R220 to R232). -/

namespace Sys2Proof.Machine

/-! ### Pushes and pulls -/

/-- An instruction that ends with `Push8(v)` stores `v` in the stack cell of the old `SP`, and changes `SP`, `PC` and
`cycles` besides. -/
theorem completesStoring_of_push8 (i : Instr) (s : State) (v : Byte)
    (h : exec i s = .next (push8 (beginInstr s) v)) :
    CompletesStoring i s { advanced s with sp := s.sp - 1 } [(stackCell s.sp, v)] := by
  rw [CompletesStoring, h]
  exact push8_endsStoring (beginInstr s) v

/-- Rule R221: PLA pulls the byte above `SP` into `A`, with N and Z of it. -/
theorem pla_completes (s : State) :
    Completes .pla s { advanced s with
      sp := s.sp + 1
      a := memRead s (stackCell (s.sp + 1))
      flags := withNZ s.flags (memRead s (stackCell (s.sp + 1))) } :=
  ⟨rfl, fun _ => rfl⟩

/-- Rule R223: PLP pulls the six flags from the byte above `SP`. -/
theorem plp_completes (s : State) :
    Completes .plp s { advanced s with
      sp := s.sp + 1
      flags := flagsOfByte (memRead s (stackCell (s.sp + 1))) } :=
  ⟨rfl, fun _ => rfl⟩

/-- Settles O45: PHA ends with a push of `A`, and PHP with a push of the status byte (`pack_eq_statusByte`). -/
theorem pushesWriteTheStack : Obligations.PushesWriteTheStack := by
  refine ⟨hasOpcode_of_opcode .pha .PHA 0x48 rfl rfl rfl Laws.OpcodeRow.pha rfl,
    hasOpcode_of_opcode .php .PHP 0x08 rfl rfl rfl Laws.OpcodeRow.php rfl, fun s => ?_⟩
  rw [← pack_eq_statusByte]
  exact ⟨completesStoring_of_push8 .pha s s.a rfl, completesStoring_of_push8 .php s (s.flags.pack true true) rfl⟩

/-- Settles O46: the opcodes are those of rule R87, and the next states are `pla_completes` and `plp_completes`. -/
theorem pullsReadTheStack : Obligations.PullsReadTheStack :=
  ⟨hasOpcode_of_opcode .pla .PLA 0x68 rfl rfl rfl Laws.OpcodeRow.pla rfl,
    hasOpcode_of_opcode .plp .PLP 0x28 rfl rfl rfl Laws.OpcodeRow.plp rfl,
    fun s => ⟨pla_completes s, plp_completes s⟩⟩

/-! ### A byte pushed and pulled -/

/-- After an instruction that pushed `v`, in every later state with the same `SP` and the same byte in the stack cell,
the next pull restores `SP` and reads `v`. -/
theorem pull_of_pushed (i : Instr) (s t t' : State) (v : Byte) (hwf : Memory.wf s.mem)
    (hpush : exec i s = .next (push8 (beginInstr s) v)) (h : exec i s = .next t) (hsp : t'.sp = t.sp)
    (hcell : memRead t' (stackCell s.sp) = memRead t (stackCell s.sp)) :
    t'.sp + 1 = s.sp ∧ memRead t' (stackCell (t'.sp + 1)) = v := by
  obtain rfl : push8 (beginInstr s) v = t := Host.Outcome.next.inj (hpush.symm.trans h)
  have hback : t'.sp + 1 = s.sp := by
    rw [hsp, push8_sp, beginInstr_sp, sub_add_cancel]
  have hread : memRead (push8 (beginInstr s) v) (stackCell s.sp) = v := by
    rw [memRead_push8 (beginInstr s) hwf, beginInstr_sp, stackAddr_eq_stackCell, if_pos rfl]
  exact ⟨hback, by rw [hback, hcell, hread]⟩

/-- Settles O47: the pulls read the pushed byte (`pull_of_pushed`), and unpacking the pushed status byte gives the flags
back (`unpack_pack`). -/
theorem stackRoundTrips : Obligations.StackRoundTrips := by
  refine fun s t t' hwf hsp hcell => ⟨fun hpha => ?pha, fun hphp => ?php⟩
  case pha =>
    obtain ⟨hback, hread⟩ := pull_of_pushed .pha s t t' s.a hwf rfl hpha hsp hcell
    exact ⟨_, (pla_completes t').1, hread, hback, congrArg (withNZ t'.flags) hread⟩
  case php =>
    obtain ⟨hback, hread⟩ := pull_of_pushed .php s t t' (s.flags.pack true true) hwf rfl hphp hsp hcell
    refine ⟨_, (plp_completes t').1, ?_, hback⟩
    calc flagsOfByte (memRead t' (stackCell (t'.sp + 1)))
      _ = Flags.unpack (s.flags.pack true true) := by rw [hread, unpack_eq_flagsOfByte]
      _ = s.flags := unpack_pack s.flags true true

/-! ### The flag operations -/

/-- The flags after a flag operation, from the flags before it: one constant written to one flag. -/
def flagWrite (i : Instr) (f : Flags) : Flags :=
  match i with
  | .clc => { f with c := false }
  | .sec => { f with c := true }
  | .cld => { f with d := false }
  | .sed => { f with d := true }
  | .cli => { f with i := false }
  | .sei => { f with i := true }
  | .clv => { f with v := false }
  | _ => f

/-- Writing a constant twice gives the flags of once. -/
theorem flagWrite_flagWrite (i : Instr) (f : Flags) : flagWrite i (flagWrite i f) = flagWrite i f := by
  cases i <;> rfl

/-- Rules R224 to R230: a flag operation changes its flag, `PC` and `cycles`, and no memory. -/
theorem flagOperation_completes (i : Instr) (s : State)
    (hi : i ∈ [Instr.clc, .sec, .cld, .sed, .cli, .sei, .clv]) :
    Completes i s { advanced s with flags := flagWrite i s.flags } := by
  refine ⟨?_, fun _ => rfl⟩
  simp only [List.mem_cons, List.not_mem_nil, or_false] at hi
  rcases hi with rfl | rfl | rfl | rfl | rfl | rfl | rfl <;> rfl

/-- Settles O48: the opcodes are those of rule R87, each next state is `flagOperation_completes`, and run twice the flags
are those of once (`flagWrite_flagWrite`). -/
theorem flagOperations : Obligations.FlagOperations := by
  refine ⟨hasOpcode_of_opcode .clc .CLC 0x18 rfl rfl rfl Laws.OpcodeRow.clc rfl,
    hasOpcode_of_opcode .sec .SEC 0x38 rfl rfl rfl Laws.OpcodeRow.sec rfl,
    hasOpcode_of_opcode .cld .CLD 0xD8 rfl rfl rfl Laws.OpcodeRow.cld rfl,
    hasOpcode_of_opcode .sed .SED 0xF8 rfl rfl rfl Laws.OpcodeRow.sed rfl,
    hasOpcode_of_opcode .cli .CLI 0x58 rfl rfl rfl Laws.OpcodeRow.cli rfl,
    hasOpcode_of_opcode .sei .SEI 0x78 rfl rfl rfl Laws.OpcodeRow.sei rfl,
    hasOpcode_of_opcode .clv .CLV 0xB8 rfl rfl rfl Laws.OpcodeRow.clv rfl, fun s => ?nextStates, ?twice⟩
  case nextStates =>
    exact ⟨flagOperation_completes .clc s (by decide), flagOperation_completes .sec s (by decide),
      flagOperation_completes .cld s (by decide), flagOperation_completes .sed s (by decide),
      flagOperation_completes .cli s (by decide), flagOperation_completes .sei s (by decide),
      flagOperation_completes .clv s (by decide)⟩
  case twice =>
    intro i s t hi h
    obtain rfl := Host.Outcome.next.inj ((flagOperation_completes i s hi).1.symm.trans h)
    exact ⟨_, (flagOperation_completes i _ hi).1, flagWrite_flagWrite i s.flags⟩

end Sys2Proof.Machine

/-! PROOFS. Family 30_encoding.md: what a list of bytes decodes to, whatever the tables, and the round trips of the
standard matrix (rules R80 to R90). -/

namespace Sys2Proof

/-! ### Decoding a list of bytes (rules R81, R83, R84) -/

/-- The bytes after the opcode byte that belong to the instruction, of the two that were read: none for an `INVALID`
byte, else those of its mode's operand. -/
def tailBytes (t : Tables) (b0 b1 b2 : Byte) : List Byte :=
  match t.opAt b0 with
  | none => []
  | some _ => operandBytes (operandOf (t.modeAt b0) b1 b2)

theorem tailBytes_of_opAt (t : Tables) (b0 b1 b2 : Byte) (op : Op) (h : t.opAt b0 = some op) :
    tailBytes t b0 b1 b2 = operandBytes (operandOf (t.modeAt b0) b1 b2) := by
  simp only [tailBytes, h]

theorem tailBytes_of_opAt_none (t : Tables) (b0 b1 b2 : Byte) (h : t.opAt b0 = none) : tailBytes t b0 b1 b2 = [] := by
  simp only [tailBytes, h]

/-- The bytes that belong to an instruction are as many as its length says, in the order they were read. -/
theorem tailBytes_eq_take (t : Tables) (b0 b1 b2 : Byte) :
    tailBytes t b0 b1 b2 = [b1, b2].take (lengthOf t b0 - 1) := by
  cases hop : t.opAt b0 with
  | none => simp only [tailBytes, lengthOf, hop]; rfl
  | some op =>
    simp only [tailBytes, lengthOf, hop]
    cases t.modeAt b0 <;> simp [operandOf, operandBytes, Operand.bytes, Mode.width]

/-- An instruction has one to three bytes. -/
theorem lengthOf_bounds (t : Tables) (b : Byte) : 1 ≤ lengthOf t b ∧ lengthOf t b ≤ 3 := by
  unfold lengthOf
  split
  · exact (t.modeAt b).width_bounds
  · decide

/-- An opcode byte and the bytes that belong to it decode to its instruction, whatever follows. -/
theorem decodeWith_tailBytes (t : Tables) (b0 b1 b2 : Byte) (rest : List Byte) :
    decodeWith t (b0 :: tailBytes t b0 b1 b2 ++ rest) = .ok (decodeBytes t b0 b1 b2, rest) := by
  cases hop : t.opAt b0 with
  | none => simp [tailBytes, decodeWith, decodeBytes, lengthOf, hop]
  | some op =>
    cases hmode : t.modeAt b0 <;>
      simp [tailBytes, decodeWith, decodeBytes, lengthOf, hop, hmode, Mode.width, operandOf, operandBytes,
        Operand.bytes]

/-- An `INVALID` byte decodes alone to its own instruction, whatever follows (rules R83, R89). -/
theorem decodeWith_of_opAt_none (t : Tables) (b : Byte) (rest : List Byte) (h : t.opAt b = none) :
    decodeWith t (b :: rest) = .ok (.invalid b, rest) := by
  have hdecode := decodeWith_tailBytes t b 0 0 rest
  rwa [tailBytes_of_opAt_none t b 0 0 h, decodeBytes_of_opAt_none t b 0 0 h] at hdecode

/-- Three bytes decode to the instruction of the first, with the two after it. -/
theorem decodeWith_three_bytes (t : Tables) (b0 b1 b2 : Byte) (rest : List Byte) :
    ∃ tail, decodeWith t (b0 :: b1 :: b2 :: rest) = .ok (decodeBytes t b0 b1 b2, tail) := by
  have hsplit : b0 :: b1 :: b2 :: rest =
      b0 :: tailBytes t b0 b1 b2 ++ ([b1, b2].drop (lengthOf t b0 - 1) ++ rest) := by
    rw [tailBytes_eq_take, List.cons_append, ← List.append_assoc, List.take_append_drop]
    rfl
  exact ⟨_, hsplit ▸ decodeWith_tailBytes t b0 b1 b2 _⟩

/-- What is decoded from three bytes is the instruction of the first, with the two after it. -/
theorem eq_decodeBytes_of_decodeWith (t : Tables) (b0 b1 b2 : Byte) (i : Instr) (rest : List Byte)
    (h : decodeWith t [b0, b1, b2] = .ok (i, rest)) : i = decodeBytes t b0 b1 b2 := by
  obtain ⟨tail, htail⟩ := decodeWith_three_bytes t b0 b1 b2 []
  exact congrArg Prod.fst (Except.ok.inj (h.symm.trans htail))

/-- A list of bytes that decodes is an opcode byte, the bytes that belong to it, and the rest. -/
theorem bytes_of_decodeWith (t : Tables) (bytes : List Byte) (i : Instr) (rest : List Byte)
    (h : decodeWith t bytes = .ok (i, rest)) :
    ∃ b0 b1 b2, i = decodeBytes t b0 b1 b2 ∧ bytes = b0 :: tailBytes t b0 b1 b2 ++ rest := by
  unfold decodeWith at h
  split at h
  · cases h
  next b0 after =>
    split at h
    next after hone =>
      cases h
      exact ⟨b0, 0, 0, rfl, by simp [tailBytes_eq_take, hone]⟩
    next b1 after htwo =>
      cases h
      exact ⟨b0, b1, 0, rfl, by simp [tailBytes_eq_take, htwo]⟩
    next b1 b2 after hone htwo =>
      have hthree : lengthOf t b0 = 3 := by
        obtain ⟨hpos, hle⟩ := lengthOf_bounds t b0
        have not_one : lengthOf t b0 ≠ 1 := hone
        have not_two : lengthOf t b0 ≠ 2 := htwo
        omega
      cases h
      exact ⟨b0, b1, b2, rfl, by simp [tailBytes_eq_take, hthree]⟩
    next => cases h

/-! ### The instruction of an operation and an operand -/

/-- Every operand, and its absence, is what its mode assembles from some two bytes. -/
theorem exists_operandOf_modeOf (o : Option Operand) : ∃ b1 b2, operandOf (modeOf o) b1 b2 = o := by
  rcases o with _ | o
  · exact ⟨0, 0, rfl⟩
  · cases o
    case abs w | abx w | aby w | ind w => exact ⟨lowByte w, highByte w, by simp [modeOf, Operand.mode, operandOf]⟩
    case imm b1 | zp b1 | zpx b1 | zpy b1 | rel b1 | izx b1 | izy b1 => exact ⟨b1, 0, rfl⟩

theorem modeOf_operandOf (m : Mode) (b1 b2 : Byte) : modeOf (operandOf m b1 b2) = m := by
  cases m <;> rfl

theorem instrOf_op_operand (i : Instr) (op : Op) (h : i.op = some op) : instrOf op i.operand = some i := by
  cases i <;> cases h <;> rfl

/-- An instruction without an operation is an `INVALID` byte. -/
theorem eq_invalid_of_op_eq_none (i : Instr) (h : i.op = none) : ∃ b, i = .invalid b := by
  cases i
  case invalid b => exact ⟨b, rfl⟩
  all_goals cases h

/-- Rule R82: a byte whose entries are as required, and give an operation, decodes with any two bytes after it to an
instruction of that operation, with the operand of its mode; an operation of the mode `imp` alone has none. -/
theorem decodeBytes_of_entryOk (t : Tables) (b0 b1 b2 : Byte) (op : Op) (hentry : t.entryOk b0 = true)
    (hop : t.opAt b0 = some op) :
    (decodeBytes t b0 b1 b2).op = some op ∧
      ((decodeBytes t b0 b1 b2).operand = operandOf (t.modeAt b0) b1 b2 ∨
        ((decodeBytes t b0 b1 b2).operand = none ∧ op.modes = [.imp])) := by
  have hsome : (instrOf op (operandOf (t.modeAt b0) b1 b2)).isSome = true :=
    instrOf_isSome op _ b1 b2 0 0 ▸ (t.entryOk_valid b0 op hop hentry).2.2
  obtain ⟨i, hi⟩ := Option.isSome_iff_exists.mp hsome
  have hdecode : decodeBytes t b0 b1 b2 = i := by simp only [decodeBytes, hop, hi, Option.getD_some]
  exact hdecode ▸ instrOf_eq_some op _ i hi

/-! ### The standard matrix (rules R86, R87) -/

/-- The cells of the map of rule R86, by row and column, are encodings of rule R87. -/
theorem mem_encodings_of_nibbles : ∀ row column : BitVec 4, ∀ e ∈ opcodeCell (row ++ column),
    (row ++ column, e.2) ∈ e.1.encodings := by
  decide

/-- The cell of a byte in the map of rule R86 is an encoding of rule R87. -/
theorem mem_encodings_of_opcodeCell (b : Byte) (op : Op) (m : Mode) (h : opcodeCell b = some (op, m)) :
    (b, m) ∈ op.encodings := by
  have hb : b.extractLsb' 4 4 ++ b.extractLsb' 0 4 = b := BitVec.extractLsb'_append_extractLsb'
  have hmem := mem_encodings_of_nibbles (b.extractLsb' 4 4) (b.extractLsb' 0 4)
  rw [hb] at hmem
  exact hmem (op, m) h

/-- The encodings of rule R87 are cells of the map of rule R86. -/
theorem opcodeCell_of_mem_encodings (op : Op) : ∀ e ∈ op.encodings, opcodeCell e.1 = some (op, e.2) := by
  cases op <;> decide

/-- The two transcriptions of the opcode map agree. -/
theorem opcodeCell_eq_some_iff (b : Byte) (op : Op) (m : Mode) :
    opcodeCell b = some (op, m) ↔ (b, m) ∈ op.encodings :=
  ⟨mem_encodings_of_opcodeCell b op m, opcodeCell_of_mem_encodings op (b, m)⟩

/-- The default tables' entries of a byte are its cell. -/
theorem standard_entries_iff (b : Byte) (op : Op) (m : Mode) :
    (Tables.standard.opAt b = some op ∧ Tables.standard.modeAt b = m) ↔ (b, m) ∈ op.encodings := by
  rw [← opcodeCell_eq_some_iff, standard_opAt, standard_modeAt]
  cases opcodeCell b <;> simp [Prod.ext_iff]

/-- The modes of rule R87's list are those of the operation's rule. -/
theorem encodings_modes (op : Op) : op.encodings.map Prod.snd = op.modes := by
  cases op <;> rfl

/-- An instruction of an operation is well-formed when the map gives the operation a byte in its mode. -/
theorem wellFormed_iff_encodings (i : Instr) (op : Op) (h : i.op = some op) :
    i.WellFormed = true ↔ ∃ b, (b, i.mode) ∈ op.encodings := by
  have hmodes : i.WellFormed = op.modes.contains i.mode := by cases i <;> cases h <;> rfl
  rw [hmodes, List.contains_iff_mem, ← encodings_modes]
  simp

/-- A valid byte decodes, by the standard matrix, to an instruction of its cell's operation and operand: an operation of
the mode `imp` alone has cells of that mode only. -/
theorem standard_decodeBytes_valid (b0 b1 b2 : Byte) (op : Op) (hop : Tables.standard.opAt b0 = some op) :
    (decodeBytes Tables.standard b0 b1 b2).op = some op ∧
      (decodeBytes Tables.standard b0 b1 b2).operand = operandOf (Tables.standard.modeAt b0) b1 b2 := by
  obtain ⟨hi, hsame | ⟨hnone, himp⟩⟩ := decodeBytes_of_entryOk _ b0 b1 b2 op (Tables.entryOk_of_wf _ standard_wf b0) hop
  · exact ⟨hi, hsame⟩
  · have hmode : Tables.standard.modeAt b0 ∈ op.modes :=
      encodings_modes op ▸ List.mem_map_of_mem (f := Prod.snd) ((standard_entries_iff b0 op _).mp ⟨hop, rfl⟩)
    rw [himp, List.mem_singleton] at hmode
    exact ⟨hi, by rw [hnone, hmode, operandOf]⟩

/-- What the standard matrix decodes from any three bytes is well-formed, and its bytes are those that belong to it. -/
theorem wellFormed_and_encode_decodeBytes (b0 b1 b2 : Byte) :
    (decodeBytes Tables.standard b0 b1 b2).WellFormed = true ∧
      encode (decodeBytes Tables.standard b0 b1 b2) = b0 :: tailBytes Tables.standard b0 b1 b2 := by
  cases hop : Tables.standard.opAt b0 with
  | none =>
    rw [decodeBytes_of_opAt_none _ b0 b1 b2 hop, tailBytes_of_opAt_none _ b0 b1 b2 hop]
    exact ⟨List.contains_iff_mem.mpr ((standard_opAt_eq_none_iff b0).mp hop), rfl⟩
  | some op =>
    obtain ⟨hi, hoperand⟩ := standard_decodeBytes_valid b0 b1 b2 op hop
    rw [tailBytes_of_opAt _ b0 b1 b2 op hop]
    generalize decodeBytes Tables.standard b0 b1 b2 = i at hi hoperand ⊢
    have hmem : (b0, i.mode) ∈ op.encodings :=
      (standard_entries_iff b0 op _).mp ⟨hop, by rw [Instr.mode, hoperand, modeOf_operandOf]⟩
    have hopcode : i.opcode = some b0 := (opcode_of_op i op hi).trans (opcodeOf_of_mem_encodings op _ hmem)
    refine ⟨(wellFormed_iff_encodings i op hi).mpr ⟨b0, hmem⟩, ?_⟩
    rw [encode, hopcode, hoperand]

/-- Every well-formed instruction is decoded from some three bytes. -/
theorem exists_decodeBytes_of_wellFormed (i : Instr) (h : i.WellFormed = true) :
    ∃ b0 b1 b2, decodeBytes Tables.standard b0 b1 b2 = i := by
  cases hop : i.op with
  | none =>
    obtain ⟨b, rfl⟩ := eq_invalid_of_op_eq_none i hop
    exact ⟨b, 0, 0, decodeBytes_of_opAt_none _ b 0 0 ((standard_opAt_eq_none_iff b).mpr (List.contains_iff_mem.mp h))⟩
  | some op =>
    obtain ⟨b0, hmem⟩ := (wellFormed_iff_encodings i op hop).mp h
    obtain ⟨hopAt, hmodeAt⟩ := (standard_entries_iff b0 op i.mode).mpr hmem
    obtain ⟨b1, b2, hoperand⟩ := exists_operandOf_modeOf i.operand
    refine ⟨b0, b1, b2, ?_⟩
    simp only [decodeBytes, hopAt, hmodeAt, Instr.mode, hoperand, instrOf_op_operand i op hop, Option.getD_some]

/-- Settles O1: a well-formed instruction is decoded from some three bytes, its bytes are those of them that belong to
it, and they decode to it. -/
theorem decodeEncodeAgree : Obligations.DecodeEncodeAgree := by
  intro i hi rest
  obtain ⟨b0, b1, b2, rfl⟩ := exists_decodeBytes_of_wellFormed i hi
  rw [(wellFormed_and_encode_decodeBytes b0 b1 b2).2]
  exact ⟨List.cons_ne_nil _ _, decodeWith_tailBytes Tables.standard b0 b1 b2 rest⟩

/-- Settles O2: three bytes decode (`decodeWith_three_bytes`), and what decodes is an opcode byte, the bytes that belong
to it and the rest (`bytes_of_decodeWith`), which is its encoding. -/
theorem encodeDecodeAgree : Obligations.EncodeDecodeAgree := by
  refine ⟨fun b0 b1 b2 rest => ⟨_, decodeWith_three_bytes Tables.standard b0 b1 b2 rest⟩, fun bytes i rest h => ?_⟩
  obtain ⟨b0, b1, b2, rfl, rfl⟩ := bytes_of_decodeWith _ bytes i rest h
  obtain ⟨hwf, hencode⟩ := wellFormed_and_encode_decodeBytes b0 b1 b2
  exact ⟨hwf, congrArg (· ++ rest) hencode⟩

/-- Settles O60: an `INVALID` byte is `decodeWith_of_opAt_none`; a byte with its operand's bytes decodes
(`decodeWith_tailBytes`), and `decodeBytes_of_entryOk` says to which instruction. -/
theorem tablesSelectTheInstruction : Obligations.TablesSelectTheInstruction := by
  refine fun t b rest => ⟨decodeWith_of_opAt_none t b rest, fun op o hentry hop hmode => ?_⟩
  obtain ⟨b1, b2, hoperand⟩ := exists_operandOf_modeOf o
  have hinstr := decodeBytes_of_entryOk t b b1 b2 op hentry hop
  have hdecode := decodeWith_tailBytes t b b1 b2 rest
  rw [hmode, hoperand] at hinstr
  rw [tailBytes_of_opAt t b b1 b2 op hop, hmode, hoperand] at hdecode
  exact ⟨_, hdecode, hinstr⟩

/-- Settles O3: the ten words, decoded by evaluation. -/
theorem sampleWordsDecode : Obligations.SampleWordsDecode := by
  unfold Obligations.SampleWordsDecode
  decide

end Sys2Proof

/-! PROOFS. Families 10_state.md and 70_reset_and_hazards.md: who writes each register and flag, and what no result of
an instruction depends on (rules R21 to R28, R88, R316). -/

namespace Sys2Proof.Machine

/-! ### The next states that a condition selects, each as one chain of writes -/

/-- A branch writes `PC`, with its own value if it is not taken. -/
theorem branchIf_eq_setPc (s : State) (taken : Bool) (ea : Addr) :
    branchIf s taken ea = s.setPc (if taken then ea else s.pc) := by
  cases taken <;> rfl

/-- TXS writes `SP`, N and Z, these with their own value if the parameter says so. -/
theorem exec_txs_eq (s : State) :
    exec .txs s = .next (((beginInstr s).setSp s.x).setFlags { s.flags with
      n := if s.cfg.txsSetsNZ then bitOf s.x 7 else s.flags.n
      z := if s.cfg.txsSetsNZ then s.x == 0 else s.flags.z }) := by
  simp only [exec, execTxs]
  cases s.cfg.txsSetsNZ <;> rfl

/-- An `INVALID` byte writes `PC` and `cycles`, or `halted` and `decode_error`. -/
theorem exec_invalid_eq (op : Byte) (s : State) :
    exec (.invalid op) s = .next ((((s.setPc (if s.cfg.invalidPolicy = .nop then s.pc + 1 else s.pc)).setCycles
      (if s.cfg.invalidPolicy = .nop then (s.cfg.invalidNopCost : Int) else s.cycles)).setHalted
        (s.halted || decide (s.cfg.invalidPolicy = .fatal))).setDecodeError
          (s.decodeError || decide (s.cfg.invalidPolicy = .fatal))) := by
  simp only [exec, execInvalid]
  split
  next hfatal => simp [hfatal]; rfl
  next hnop => simp [hnop]; rfl

@[simp] theorem writeTarget_x (ea : Option Addr) (s : State) (r : Byte) : (writeTarget ea s r).x = s.x := by
  cases ea <;> rfl
@[simp] theorem writeTarget_y (ea : Option Addr) (s : State) (r : Byte) : (writeTarget ea s r).y = s.y := by
  cases ea <;> rfl
@[simp] theorem writeTarget_sp (ea : Option Addr) (s : State) (r : Byte) : (writeTarget ea s r).sp = s.sp := by
  cases ea <;> rfl
@[simp] theorem writeTarget_pc (ea : Option Addr) (s : State) (r : Byte) : (writeTarget ea s r).pc = s.pc := by
  cases ea <;> rfl
@[simp] theorem writeTarget_flags (ea : Option Addr) (s : State) (r : Byte) :
    (writeTarget ea s r).flags = s.flags := by
  cases ea <;> rfl
@[simp] theorem writeTarget_cycles (ea : Option Addr) (s : State) (r : Byte) :
    (writeTarget ea s r).cycles = s.cycles := by
  cases ea <;> rfl
@[simp] theorem writeTarget_decodeError (ea : Option Addr) (s : State) (r : Byte) :
    (writeTarget ea s r).decodeError = s.decodeError := by
  cases ea <;> rfl

/-! ### Who writes the registers and memory (rules R21 to R23) -/

theorem op_of_a_ne (i : Instr) (s t : State) (h : exec i s = .next t) (ha : t.a ≠ s.a) : ∃ op, i.op = some op ∧
    op ∈ ([.ADC, .SBC, .AND, .ORA, .EOR, .LDA, .PLA, .TXA, .TYA, .ASL, .LSR, .ROL, .ROR] : List Op) := by
  cases i
  case adc | sbc | and | ora | eor | lda | pla | txa | tya | asl | lsr | rol | ror => exact ⟨_, rfl, by decide⟩
  case txs | invalid => simp only [exec_txs_eq, exec_invalid_eq] at h; cases h; simp at ha
  all_goals
    cases h
    simp [writeX, writeY, writeByteNZ, branchIf_eq_setPc, returnFromInterrupt_eq] at ha

theorem op_of_x_ne (i : Instr) (s t : State) (h : exec i s = .next t) (hx : t.x ≠ s.x) : ∃ op, i.op = some op ∧
    op ∈ ([.LDX, .TAX, .TSX, .INX, .DEX] : List Op) := by
  cases i
  case ldx | tax | tsx | inx | dex => exact ⟨_, rfl, by decide⟩
  case txs | invalid => simp only [exec_txs_eq, exec_invalid_eq] at h; cases h; simp at hx
  all_goals
    cases h
    simp [writeA, writeY, writeSum, writeByteNZ, writeShift, branchIf_eq_setPc, returnFromInterrupt_eq] at hx

theorem op_of_y_ne (i : Instr) (s t : State) (h : exec i s = .next t) (hy : t.y ≠ s.y) : ∃ op, i.op = some op ∧
    op ∈ ([.LDY, .TAY, .INY, .DEY] : List Op) := by
  cases i
  case ldy | tay | iny | dey => exact ⟨_, rfl, by decide⟩
  case txs | invalid => simp only [exec_txs_eq, exec_invalid_eq] at h; cases h; simp at hy
  all_goals
    cases h
    simp [writeA, writeX, writeSum, writeByteNZ, writeShift, branchIf_eq_setPc, returnFromInterrupt_eq] at hy

theorem op_of_sp_ne (i : Instr) (s t : State) (h : exec i s = .next t) (hsp : t.sp ≠ s.sp) : ∃ op, i.op = some op ∧
    op ∈ ([.TXS, .PHA, .PHP, .PLA, .PLP, .JSR, .RTS, .RTI] : List Op) := by
  cases i
  case txs | pha | php | pla | plp | jsr | rts | rti => exact ⟨_, rfl, by decide⟩
  case invalid => simp only [exec_invalid_eq] at h; cases h; simp at hsp
  all_goals
    cases h
    simp [writeA, writeX, writeY, writeSum, writeByteNZ, writeShift, branchIf_eq_setPc] at hsp

/-- An instruction that changes a byte of memory writes to some address. -/
theorem op_of_writeAddrs_ne_nil (i : Instr) (s : State) (h : writeAddrs i s ≠ []) : ∃ op, i.op = some op ∧
    op ∈ ([.STA, .STX, .STY, .ASL, .LSR, .ROL, .ROR, .INC, .DEC, .PHA, .PHP, .JSR] : List Op) := by
  cases i
  case sta | stx | sty | asl | lsr | rol | ror | inc | dec | pha | php | jsr => exact ⟨_, rfl, by decide⟩
  all_goals exact absurd rfl h

/-- An instruction that writes to no address leaves every byte of memory alone. -/
theorem memRead_of_writeAddrs_nil (i : Instr) (s t : State) (h : exec i s = .next t) (hnil : writeAddrs i s = [])
    (addr : Addr) : memRead t addr = memRead s addr := by
  obtain ⟨hcfg, -, ws, hws, hmem⟩ := exec_stores i s t h
  rw [hnil, List.map_eq_nil_iff] at hws
  subst hws
  exact memRead_congr s t hmem hcfg addr

/-- Settles O17: an instruction of any other operation leaves the register alone, and one that writes to no address
leaves memory alone. -/
theorem registerWriters : Obligations.RegisterWriters := by
  refine fun i s t h => ⟨op_of_a_ne i s t h, op_of_x_ne i s t h, op_of_y_ne i s t h, op_of_sp_ne i s t h, ?_⟩
  rintro ⟨addr, hne⟩
  exact op_of_writeAddrs_ne_nil i s fun hnil => hne (memRead_of_writeAddrs_nil i s t h hnil addr)

/-! ### Who writes the flags (rule R27) -/

/-- The operations that set N and Z from a result or pull them. -/
def nzWriters : List Op :=
  [.ADC, .SBC, .AND, .ORA, .EOR, .LDA, .LDX, .LDY, .TAX, .TAY, .TXA, .TYA, .TSX, .TXS, .ASL, .LSR, .ROL, .ROR, .INC,
    .DEC, .INX, .INY, .DEX, .DEY, .PLA, .CMP, .CPX, .CPY, .BIT, .PLP, .RTI]

/-- An instruction of an operation outside `nzWriters` leaves N and Z alone. -/
theorem op_of_nz_ne (i : Instr) (s t : State) (h : exec i s = .next t)
    (hnz : ¬ (t.flags.n = s.flags.n ∧ t.flags.z = s.flags.z)) : ∃ op, i.op = some op ∧ op ∈ nzWriters := by
  cases i
  case sta | stx | sty | bcc | bcs | beq | bne | bmi | bpl | bvc | bvs | pha | php | clc | sec | cld | sed | cli | sei |
      clv | jmp | jsr | rts | brk | nop =>
    cases h
    simp [branchIf_eq_setPc] at hnz
  case invalid => simp only [exec_invalid_eq] at h; cases h; simp at hnz
  all_goals exact ⟨_, rfl, by decide⟩

theorem op_of_v_ne (i : Instr) (s t : State) (h : exec i s = .next t) (hv : t.flags.v ≠ s.flags.v) :
    ∃ op, i.op = some op ∧ op ∈ ([.ADC, .SBC, .BIT, .CLV, .PLP, .RTI] : List Op) := by
  cases i
  case adc | sbc | bit | clv | plp | rti => exact ⟨_, rfl, by decide⟩
  case txs | invalid => simp only [exec_txs_eq, exec_invalid_eq] at h; cases h; simp at hv
  all_goals
    cases h
    simp [writeA, writeX, writeY, writeByteNZ, writeShift, branchIf_eq_setPc, Flags.setNZ, Flags.compare] at hv

theorem op_of_d_ne (i : Instr) (s t : State) (h : exec i s = .next t) (hd : t.flags.d ≠ s.flags.d) :
    ∃ op, i.op = some op ∧ op ∈ ([.SED, .CLD, .PLP, .RTI] : List Op) := by
  cases i
  case sed | cld | plp | rti => exact ⟨_, rfl, by decide⟩
  case txs | invalid => simp only [exec_txs_eq, exec_invalid_eq] at h; cases h; simp at hd
  all_goals
    cases h
    simp [writeA, writeX, writeY, writeSum, writeByteNZ, writeShift, branchIf_eq_setPc, Flags.setNZ, Flags.compare,
      Flags.bitTest] at hd

theorem op_of_i_ne (i : Instr) (s t : State) (h : exec i s = .next t) (hi : t.flags.i ≠ s.flags.i) :
    ∃ op, i.op = some op ∧ op ∈ ([.SEI, .CLI, .PLP, .RTI] : List Op) := by
  cases i
  case sei | cli | plp | rti => exact ⟨_, rfl, by decide⟩
  case txs | invalid => simp only [exec_txs_eq, exec_invalid_eq] at h; cases h; simp at hi
  all_goals
    cases h
    simp [writeA, writeX, writeY, writeSum, writeByteNZ, writeShift, branchIf_eq_setPc, Flags.setNZ, Flags.compare,
      Flags.bitTest] at hi

theorem op_of_c_ne (i : Instr) (s t : State) (h : exec i s = .next t) (hc : t.flags.c ≠ s.flags.c) :
    ∃ op, i.op = some op ∧
      op ∈ ([.ADC, .SBC, .ASL, .LSR, .ROL, .ROR, .CMP, .CPX, .CPY, .SEC, .CLC, .PLP, .RTI] : List Op) := by
  cases i
  case adc | sbc | asl | lsr | rol | ror | cmp | cpx | cpy | sec | clc | plp | rti => exact ⟨_, rfl, by decide⟩
  case txs | invalid => simp only [exec_txs_eq, exec_invalid_eq] at h; cases h; simp at hc
  all_goals
    cases h
    simp [writeA, writeX, writeY, writeByteNZ, branchIf_eq_setPc, Flags.setNZ, Flags.bitTest] at hc

/-- Settles O18: an instruction of any other operation leaves the flag alone. -/
theorem flagWriters : Obligations.FlagWriters :=
  fun i s t h => ⟨fun hn => op_of_nz_ne i s t h fun hsame => hn hsame.1, op_of_v_ne i s t h, op_of_d_ne i s t h,
    op_of_i_ne i s t h, fun hz => op_of_nz_ne i s t h fun hsame => hz hsame.2, op_of_c_ne i s t h⟩

/-! ### What no result depends on (rules R28, R88, R316) -/

/-- Settles O19: every instruction but PHP copies or overwrites `D`, and no other value is computed from it. -/
theorem onlyPhpReadsDecimal : Obligations.OnlyPhpReadsDecimal := by
  intro i s t b hi h
  cases i
  case php => exact absurd rfl hi
  case txs | invalid =>
    simp only [exec_txs_eq, exec_invalid_eq] at h ⊢
    cases h
    exact ⟨_, rfl, rfl⟩
  case asl o | lsr o | rol o | ror o =>
    cases h
    cases o <;> exact ⟨_, rfl, rfl⟩
  case bcc | bcs | beq | bne | bmi | bpl | bvc | bvs =>
    cases h
    exact ⟨_, rfl, by simp only [branchIf_eq_setPc]; rfl⟩
  all_goals
    cases h
    exact ⟨_, rfl, rfl⟩

/-- Settles O20: every instruction but an `INVALID` byte loads `cycles` from the `CYCLES` table, and no other value is
computed from it. -/
theorem resultsDoNotDependOnCosts : Obligations.ResultsDoNotDependOnCosts := by
  intro i s t l h
  cases i
  case txs | invalid =>
    simp only [exec_txs_eq, exec_invalid_eq] at h ⊢
    cases h
    exact ⟨_, rfl, rfl⟩
  case asl o | lsr o | rol o | ror o =>
    cases h
    cases o <;> exact ⟨_, rfl, rfl⟩
  case bcc | bcs | beq | bne | bmi | bpl | bvc | bvs =>
    cases h
    exact ⟨_, rfl, by simp only [branchIf_eq_setPc]; rfl⟩
  all_goals
    cases h
    exact ⟨_, rfl, rfl⟩

end Sys2Proof.Machine

/-! PROOFS. Families 10_state.md, 30_encoding.md and 40_step_and_addressing.md: what an instruction does to `cycles`,
`PC` and `decode_error`, the entries of a fetched instruction, and the step (rules R33, R36, R82, R100 to R102). -/

namespace Sys2Proof.Machine

/-! ### What an instruction does to `cycles`, `PC` and `decode_error` -/

/-- Rule R102: an instruction of an operation loads `cycles` with the `CYCLES` entry of the byte at `PC`. -/
theorem exec_cycles (i : Instr) (op : Op) (s t : State) (hop : i.op = some op) (h : exec i s = .next t) :
    t.cycles = fetchCost s := by
  cases i
  case invalid => cases hop
  case txs => rw [exec_txs_eq] at h; cases h; rfl
  all_goals
    cases h
    simp [writeA, writeX, writeY, writeSum, writeByteNZ, writeShift, branchIf_eq_setPc, returnFromInterrupt_eq]

/-- Rule R102: an instruction of an operation advances `PC` by the `WIDTH` entry of the byte at `PC`, unless it is one
of those that write `PC` themselves. -/
theorem exec_pc (i : Instr) (op : Op) (s t : State) (hop : i.op = some op) (h : exec i s = .next t)
    (hother : op ∉ ([.BCC, .BCS, .BEQ, .BNE, .BMI, .BPL, .BVC, .BVS, .JMP, .JSR, .RTS, .RTI] : List Op)) :
    t.pc = s.pc + BitVec.ofNat 16 (fetchWidth s) := by
  cases i
  case invalid => cases hop
  case bcc | bcs | beq | bne | bmi | bpl | bvc | bvs | jmp | jsr | rts | rti =>
    cases hop
    exact absurd (by decide) hother
  case txs => rw [exec_txs_eq] at h; cases h; rfl
  all_goals
    cases h
    simp [writeA, writeX, writeY, writeSum, writeByteNZ, writeShift]

/-- An instruction sets `decode_error` if it is an `INVALID` byte under the fatal policy, and else leaves it alone. -/
theorem exec_decodeError (i : Instr) (s t : State) (h : exec i s = .next t) :
    t.decodeError = (s.decodeError || (i.op.isNone && decide (s.cfg.invalidPolicy = .fatal))) := by
  cases i
  case txs | invalid =>
    simp only [exec_txs_eq, exec_invalid_eq] at h
    cases h
    simp [Instr.op]
  all_goals
    cases h
    simp [Instr.op, writeA, writeX, writeY, writeSum, writeByteNZ, writeShift, branchIf_eq_setPc,
      returnFromInterrupt_eq]

/-! ### The entries of a fetched instruction (rules R82, R83) -/

theorem config_tables_wf (cfg : Config) (h : cfg.wf = true) : cfg.tables.wf = true := by
  rw [Config.wf, Bool.and_eq_true] at h
  exact h.1

/-- A fetched instruction that has an operation comes from a byte that `OP` gives one. -/
theorem opAt_ne_none_of_fetched (s : State) (h : (fetchInstr s).op ≠ none) :
    s.cfg.tables.opAt (memRead s s.pc) ≠ none := by
  intro hinvalid
  rw [fetchInstr, decodeBytes_of_opAt_none _ _ _ _ hinvalid] at h
  exact h rfl

/-- Under sound tables the `WIDTH` entry of a fetched instruction is the width of its `MODE` entry's format. -/
theorem fetchWidth_of_valid (s : State) (hwf : s.cfg.wf = true) (h : (fetchInstr s).op ≠ none) :
    fetchWidth s = (s.cfg.tables.modeAt (memRead s s.pc)).width :=
  (Tables.width_and_cost_of_valid _ _ (Tables.entryOk_of_wf _ (config_tables_wf _ hwf) _)
    (opAt_ne_none_of_fetched s h)).1

/-- An operand has as many bytes as its mode's format has after the opcode. -/
theorem operandBytes_length (o : Option Operand) : (operandBytes o).length + 1 = (modeOf o).width := by
  rcases o with _ | o
  · rfl
  · cases o <;> rfl

/-- Under the default tables the `WIDTH` entry of a fetched instruction is the number of its bytes. -/
theorem fetchWidth_of_standard (s : State) (htables : s.cfg.tables = Tables.standard) (h : (fetchInstr s).op ≠ none) :
    fetchWidth s = (encode (fetchInstr s)).length := by
  obtain ⟨op, hop⟩ := Option.ne_none_iff_exists'.mp (opAt_ne_none_of_fetched s h)
  rw [htables] at hop
  have hwidth := (Tables.entryOk_valid _ _ op hop (Tables.entryOk_of_wf _ standard_wf _)).1
  rw [fetchWidth, fetchInstr, htables, (wellFormed_and_encode_decodeBytes _ _ _).2, tailBytes_of_opAt _ _ _ _ op hop,
    List.length_cons, operandBytes_length, modeOf_operandOf, hwidth]

/-- Settles O5: `exec_cycles` and `exec_pc`; the width of a fetched instruction is `fetchWidth_of_valid`, and under the
default tables `fetchWidth_of_standard`. -/
theorem costIsTheTableEntry : Obligations.CostIsTheTableEntry := by
  refine ⟨fun i op s t hop h => ⟨exec_cycles i op s t hop h, exec_pc i op s t hop h⟩,
    fun s hwf h => ⟨fetchWidth_of_valid s hwf h, fun o ho => ?operandMode⟩,
    fun s htables h => ⟨?firstByte, fetchWidth_of_standard s htables h, ?cost⟩⟩
  case operandMode => exact mode_eq_of_operandOf_eq_some _ _ _ o (operandOf_of_decodeBytes_operand _ _ _ _ o ho)
  case firstByte =>
    rw [fetchInstr, htables]
    exact ⟨_, (wellFormed_and_encode_decodeBytes _ _ _).2⟩
  case cost => rw [htables, standard_costAt]

/-! ### The step (rules R100 to R102) -/

/-- Settles O6: a tick with nothing to count down runs the fetched instruction, which is the one the three bytes decode
to. -/
theorem stepRunsDecodedInstruction : Obligations.StepRunsDecodedInstruction := by
  intro s i rest hdecode hcycles hrun
  obtain rfl : i = fetchInstr s := eq_decodeBytes_of_decodeWith _ _ _ _ i rest hdecode
  refine ⟨fun hin => ?_, fun l hin => ?_⟩
  · rw [step_of_no_inputs s hin, tick_of_running s hcycles hrun]
  · rw [step_of_inputs s .tick l hin]
    exact tick_of_running (s.setInputs l) hcycles hrun

/-- Every transition answers a next state. -/
theorem perform_completes (input : Input) (s : State) : ∃ t, perform input s = .next t := by
  cases input
  case tick => exact tick_completes s
  all_goals exact ⟨_, rfl⟩

/-- Settles O8: `exec_completes`, and a step is a tick or a transition of the environment, which complete. -/
theorem everyTransitionCompletes : Obligations.EveryTransitionCompletes := by
  refine ⟨exec_completes, fun s => ?_⟩
  cases hin : s.inputs with
  | nil => exact step_of_no_inputs s hin ▸ tick_completes s
  | cons input rest => exact step_of_inputs s input rest hin ▸ perform_completes input _

/-- Counting down as many times as `cycles` says, `InstrStep` runs the instruction with `cycles` 0. -/
theorem instrStepFuel_of_cycles (n : Nat) (s : State) (hcycles : s.cycles = n) (hrun : s.halted = false) :
    instrStepFuel n s = instructionStep { s with cycles := 0 } := by
  induction n generalizing s with
  | zero =>
    have hzero : s = { s with cycles := 0 } := by
      rw [← Int.ofNat_zero, ← hcycles]
    rw [instrStepFuel, tick_of_running s (by omega) hrun, instructionStep, ← hzero]
  | succ n ih =>
    rw [instrStepFuel, if_pos (by omega)]
    exact ih (s.setCycles (s.cycles - 1)) (by simp only [setCycles_cycles]; omega) hrun

/-- Settles O9: the fuel of `instrStep` is the count. -/
theorem instrStepRunsOneInstruction : Obligations.InstrStepRunsOneInstruction :=
  fun s hcycles hrun => instrStepFuel_of_cycles s.cycles.toNat s (Int.toNat_of_nonneg hcycles).symm hrun

end Sys2Proof.Machine

/-! PROOFS. Families 10_state.md, 20_memory.md and 60_exceptions.md: what a transition can do, said once, and what every
step keeps (rules R7, R33 to R36, R283). -/

namespace Sys2Proof.Machine

/-! ### What a transition can do -/

/-- A step is a tick, of the state with a listed tick used up, or the transition of the environment that `inputs` lists
first. -/
theorem step_cases (s t : State) (h : step s = .next t) :
    ((s.inputs = [] ∨ ∃ l, s.inputs = .tick :: l) ∧ tick (s.setInputs s.inputs.tail) = .next t) ∨
      ∃ input l, s.inputs = input :: l ∧ input ≠ .tick ∧ perform input (s.setInputs l) = .next t := by
  cases hin : s.inputs with
  | nil =>
    have hsame : s.setInputs [] = s := by rw [← hin]; rfl
    exact .inl ⟨.inl rfl, (congrArg tick hsame).trans (step_of_no_inputs s hin ▸ h)⟩
  | cons input l =>
    rw [step_of_inputs s input l hin] at h
    by_cases htick : input = .tick
    · subst htick
      exact .inl ⟨.inr ⟨l, rfl⟩, h⟩
    · exact .inr ⟨input, l, rfl, htick, h⟩

/-- A transition of the environment keeps the parameters and the transitions to come, stores bytes to cells, leaves
`cycles` alone or at 0, and clears `decode_error` only if it is `Reset`. -/
theorem perform_environment (input : Input) (s t : State) (henv : input ≠ .tick) (h : perform input s = .next t) :
    t.cfg = s.cfg ∧ t.inputs = s.inputs ∧ (∃ ws, t.mem = storeAll s.cfg.layout s.mem ws) ∧
      (t.cycles = s.cycles ∨ t.cycles = 0) ∧
      (t.decodeError = s.decodeError ∨ (t.decodeError = false ∧ input = .reset)) := by
  cases input
  case tick => exact absurd rfl henv
  all_goals cases h
  case reset => exact ⟨rfl, rfl, ⟨[], rfl⟩, .inr rfl, .inr ⟨rfl, rfl⟩⟩
  case deliverNMI =>
    exact ⟨interruptEntry_cfg s _, interruptEntry_inputs s _, ⟨_, interruptEntry_stores s _⟩,
      .inl (interruptEntry_cycles s _), .inl (interruptEntry_decodeError s _)⟩
  case deliverIRQ =>
    unfold deliverIRQ
    split
    · exact ⟨rfl, rfl, ⟨[], rfl⟩, .inl rfl, .inl rfl⟩
    · exact ⟨interruptEntry_cfg s _, interruptEntry_inputs s _, ⟨_, interruptEntry_stores s _⟩,
        .inl (interruptEntry_cycles s _), .inl (interruptEntry_decodeError s _)⟩
  case load base bytes =>
    have hmem := envLoad_mem bytes s base
    rw [envLoad_fields]
    exact ⟨rfl, rfl, ⟨_, hmem⟩, .inl rfl, .inl rfl⟩
  case envWrite addr v => exact ⟨rfl, rfl, ⟨[(addr, v)], rfl⟩, .inl rfl, .inl rfl⟩
  all_goals exact ⟨rfl, rfl, ⟨[], rfl⟩, .inl rfl, .inl rfl⟩

/-- A tick keeps the parameters and the transitions to come, and stores bytes to cells. -/
theorem tick_frame (s t : State) (h : tick s = .next t) :
    t.cfg = s.cfg ∧ t.inputs = s.inputs ∧ ∃ ws, t.mem = storeAll s.cfg.layout s.mem ws := by
  rcases tick_cases s t h with ⟨-, rfl⟩ | ⟨-, -, rfl⟩ | ⟨-, -, hexec⟩
  · exact ⟨rfl, rfl, [], rfl⟩
  · exact ⟨rfl, rfl, [], rfl⟩
  · obtain ⟨hcfg, -, ws, -, hmem⟩ := exec_stores _ s t hexec
    exact ⟨hcfg, exec_inputs _ s t hexec, ws, hmem⟩

/-- A step keeps the parameters, uses up the first transition to come, and stores bytes to cells. -/
theorem step_frame (s t : State) (h : step s = .next t) :
    t.cfg = s.cfg ∧ t.inputs = s.inputs.tail ∧ ∃ ws, t.mem = storeAll s.cfg.layout s.mem ws := by
  rcases step_cases s t h with ⟨-, htick⟩ | ⟨input, l, hin, henv, hperform⟩
  · exact tick_frame _ t htick
  · obtain ⟨hcfg, hinputs, hmem, -, -⟩ := perform_environment input _ t henv hperform
    exact ⟨hcfg, by rw [hinputs, hin]; rfl, hmem⟩

/-- Settles O13: the first two parts of `step_frame`. -/
theorem stepKeepsConfiguration : Obligations.StepKeepsConfiguration := by
  intro s t h
  obtain ⟨hcfg, hinputs, -⟩ := step_frame s t h
  exact ⟨hcfg, hinputs⟩

/-! ### `decode_error` (rule R36) -/

/-- An `INVALID` byte under the fatal policy sets `decode_error` and `halted`. -/
theorem exec_invalid_fatal (s t : State) (b : Byte) (h : exec (.invalid b) s = .next t)
    (hfatal : s.cfg.invalidPolicy = .fatal) : t.decodeError = true ∧ t.halted = true := by
  refine ⟨?_, (exec_halted_iff _ s t h).mpr (.inr (.inr ⟨b, rfl, hfatal⟩))⟩
  simp [exec_decodeError _ s t h, Instr.op, hfatal]

/-- A tick that changes `decode_error` sets it, with `halted`, by an `INVALID` byte under the fatal policy. -/
theorem tick_decodeError_cases (s t : State) (h : tick s = .next t) :
    t.decodeError = s.decodeError ∨ (t.decodeError = true ∧ (∃ b, fetchInstr s = .invalid b) ∧
      s.cfg.invalidPolicy = .fatal ∧ t.halted = true) := by
  rcases tick_cases s t h with ⟨-, rfl⟩ | ⟨-, -, rfl⟩ | ⟨-, -, hexec⟩
  · exact .inl rfl
  · exact .inl rfl
  · by_cases hcause : (fetchInstr s).op = none ∧ s.cfg.invalidPolicy = .fatal
    · obtain ⟨hop, hfatal⟩ := hcause
      obtain ⟨b, hinstr⟩ := eq_invalid_of_op_eq_none _ hop
      rw [hinstr] at hexec
      obtain ⟨hlatch, hhalted⟩ := exec_invalid_fatal s t b hexec hfatal
      exact .inr ⟨hlatch, ⟨b, hinstr⟩, hfatal, hhalted⟩
    · have hunset : ((fetchInstr s).op.isNone && decide (s.cfg.invalidPolicy = .fatal)) = false := by
        simpa using hcause
      exact .inl (by rw [exec_decodeError _ s t hexec, hunset, Bool.or_false])

/-- Everything a step can do to `decode_error`: only `Reset` clears it. -/
theorem step_decodeError_cases (s t : State) (h : step s = .next t) :
    (t.decodeError = false ∧ ∃ l, s.inputs = .reset :: l) ∨ t.decodeError = s.decodeError ∨
      (t.decodeError = true ∧ (∃ b, fetchInstr s = .invalid b) ∧ s.cfg.invalidPolicy = .fatal ∧ t.halted = true) := by
  rcases step_cases s t h with ⟨-, htick⟩ | ⟨input, l, hin, henv, hperform⟩
  · exact .inr (tick_decodeError_cases (s.setInputs s.inputs.tail) t htick)
  · obtain ⟨-, -, -, -, hsame | ⟨hclear, rfl⟩⟩ := perform_environment input _ t henv hperform
    · exact .inr (.inl hsame)
    · exact .inl ⟨hclear, l, hin⟩

/-- Settles O15: the setter and the clearer are the cases of `step_decodeError_cases`, and a ready state runs the
instruction at `PC`. -/
theorem decodeErrorIsSticky : Obligations.DecodeErrorIsSticky := by
  refine fun s t h => ⟨fun hs ht => ?set, fun hready b hinstr hfatal => ?fetched, fun hs ht => ?cleared⟩
  case set =>
    rcases step_decodeError_cases s t h with ⟨hclear, -⟩ | hsame | ⟨-, hcause⟩
    · simp [ht] at hclear
    · simp [hs, ht] at hsame
    · exact hcause
  case fetched =>
    rw [step_of_ready s hready, hinstr] at h
    exact exec_invalid_fatal s t b h hfatal
  case cleared =>
    rcases step_decodeError_cases s t h with ⟨-, hreset⟩ | hsame | ⟨hset, -⟩
    · exact hreset
    · simp [hs, ht] at hsame
    · simp [ht] at hset

/-! ### `dirty` (rule R34) -/

/-- The three pushes of an interrupt entry set `dirty` if one of their addresses qualifies. -/
theorem interruptEntry_dirty (s : State) (v : Addr) : (interruptEntry s v).dirty =
    (s.dirty || anyQualifies s [stackCell s.sp, stackCell (s.sp - 1), stackCell (s.sp - 2)]) := by
  have hsp : s.sp - 2 = s.sp - 1 - 1 := by bv_omega
  rw [hsp]
  simp [interruptEntry_eq, entryPushes, anyQualifies, stackAddr_eq_stackCell, Bool.or_assoc]

/-- A tick changes `dirty` only by the instruction it runs. -/
theorem tick_dirty (s t : State) (h : tick s = .next t) : t.dirty = (s.dirty ||
    (decide (s.cycles ≤ 0) && !s.halted && anyQualifies s (writeAddrs (fetchInstr s) s))) := by
  rcases tick_cases s t h with ⟨hcount, rfl⟩ | ⟨-, hhalted, rfl⟩ | ⟨hcycles, hrun, hexec⟩
  · have hcounting : ¬ s.cycles ≤ 0 := by omega
    simp [hcounting]
  · simp [hhalted]
  · obtain ⟨-, hdirty, -⟩ := exec_stores _ s t hexec
    simp [hdirty, hcycles, hrun]

/-- The transitions of the environment that are no delivery, `ClearDirty` or `Reset` leave `dirty` alone. -/
theorem perform_dirty (input : Input) (s t : State) (h : perform input s = .next t)
    (hother : input ∉ [Input.tick, .deliverNMI, .deliverIRQ, .clearDirty, .reset]) : t.dirty = s.dirty := by
  cases input
  case tick | deliverNMI | deliverIRQ | clearDirty | reset => exact absurd (by decide) hother
  case load base bytes =>
    cases h
    rw [envLoad_fields]
    rfl
  all_goals
    cases h
    rfl

/-- Settles O16: the writes of an instruction are `exec_stores`; a step is a tick (`tick_dirty`), a delivery
(`interruptEntry_dirty`), a clearing, or leaves `dirty` alone (`perform_dirty`). -/
theorem dirtyChangesOnlyAsStated : Obligations.DirtyChangesOnlyAsStated := by
  refine ⟨fun i s t h => ?instruction, fun s t l h => ⟨?tick, ?nmi, ?irq, ?clear, ?other⟩⟩
  case instruction =>
    obtain ⟨hcfg, hdirty, ws, hws, hmem⟩ := exec_stores i s t h
    refine ⟨hdirty, fun hwf addr hapart => ?_⟩
    rw [memRead_of_storeAll s t ws hwf hmem hcfg]
    exact readAfter_of_not_sameCell s ws addr (hws ▸ hapart)
  case tick =>
    rintro (hin | hin)
    · exact tick_dirty s t (step_of_no_inputs s hin ▸ h)
    · rw [step_of_inputs s _ l hin] at h
      exact tick_dirty (s.setInputs l) t h
  case nmi =>
    intro hin
    rw [step_of_inputs s _ l hin] at h
    cases h
    exact interruptEntry_dirty _ _
  case irq =>
    intro hin
    rw [step_of_inputs s _ l hin] at h
    cases h
    cases hmask : s.flags.i with
    | true => simp [deliverIRQ, hmask]
    | false =>
      simp only [deliverIRQ, setInputs_flags, hmask]
      exact interruptEntry_dirty (s.setInputs l) s.cfg.irqVector
  case clear =>
    rintro (hin | hin) <;>
    · rw [step_of_inputs s _ l hin] at h
      cases h
      rfl
  case other =>
    intro input hin hother
    rw [step_of_inputs s input l hin] at h
    exact perform_dirty input (s.setInputs l) t h hother

/-! ### The invariant (rules R33, R36) -/

/-- The largest cost is at least `INVALID_NOP_COST` and every `CYCLES` entry. -/
theorem le_maxCost (cfg : Config) : ∀ n ∈ cfg.invalidNopCost :: cfg.tables.costs, n ≤ cfg.maxCost :=
  (List.max?_eq_some_iff.mp (List.max?_cons' (x := cfg.invalidNopCost) (xs := cfg.tables.costs))).2

/-- The largest cost is at least every byte's `CYCLES` entry. -/
theorem costAt_le_maxCost (cfg : Config) (b : Byte) : cfg.tables.costAt b ≤ cfg.maxCost := by
  rw [Tables.costAt, List.getD_eq_getElem?_getD]
  cases hentry : cfg.tables.costs[b.toNat]? with
  | none => exact Nat.zero_le _
  | some cost => exact le_maxCost cfg cost (List.mem_cons_of_mem _ (List.mem_of_getElem? hentry))

/-- An instruction loads `cycles` with a cost of the configuration, or leaves it alone. -/
theorem exec_cycles_cases (i : Instr) (s t : State) (h : exec i s = .next t) :
    t.cycles = s.cycles ∨ ∃ n : Nat, t.cycles = n ∧ n ≤ s.cfg.maxCost := by
  cases hop : i.op with
  | some op => exact .inr ⟨_, exec_cycles i op s t hop h, costAt_le_maxCost s.cfg _⟩
  | none =>
    obtain ⟨b, rfl⟩ := eq_invalid_of_op_eq_none i hop
    rw [exec_invalid_eq] at h
    cases h
    cases s.cfg.invalidPolicy with
    | fatal => exact .inl rfl
    | nop => exact .inr ⟨_, rfl, le_maxCost s.cfg _ List.mem_cons_self⟩

/-- A step keeps `cycles` between 0 and the largest cost. -/
theorem step_cycles_bounds (s t : State) (h : step s = .next t) (hnonneg : 0 ≤ s.cycles)
    (hle : s.cycles ≤ s.cfg.maxCost) : 0 ≤ t.cycles ∧ t.cycles ≤ s.cfg.maxCost := by
  rcases step_cases s t h with ⟨-, htick⟩ | ⟨input, l, -, henv, hperform⟩
  · rcases tick_cases _ t htick with ⟨hcount, rfl⟩ | ⟨-, -, rfl⟩ | ⟨-, -, hexec⟩
    · simp only [setInputs_cycles, setCycles_cycles] at hcount ⊢
      omega
    · exact ⟨hnonneg, hle⟩
    · rcases exec_cycles_cases _ _ t hexec with hsame | ⟨n, hn, hcost⟩
      · rw [hsame]
        exact ⟨hnonneg, hle⟩
      · simp only [setInputs_cfg] at hcost
        omega
  · obtain ⟨-, -, -, hsame | hzero, -⟩ := perform_environment input _ t henv hperform
    · rw [hsame]
      exact ⟨hnonneg, hle⟩
    · omega

/-- Settles O11: the configuration is kept and memory is a list of stores (`step_frame`), which keep the canonical form
and the layout's cells; `cycles` is `step_cycles_bounds`, and `decode_error` `step_decodeError_cases`. -/
theorem stepKeepsInvariant : Obligations.StepKeepsInvariant := by
  rintro s t ⟨hcfg, hwf, hlayout, hnonneg, hle, hfatal⟩ h
  obtain ⟨hsame, -, ws, hmem⟩ := step_frame s t h
  obtain ⟨hnonneg', hle'⟩ := step_cycles_bounds s t h hnonneg hle
  rw [State.Inv, hsame, hmem]
  refine ⟨hcfg, storeAll_wf _ ws _ hwf, storeAll_inLayout _ ws _ hlayout, hnonneg', hle', fun ht => ?_⟩
  rcases step_decodeError_cases s t h with ⟨hclear, -⟩ | hkept | ⟨-, -, hpolicy, -⟩
  · simp [ht] at hclear
  · exact hfatal (hkept ▸ ht)
  · exact hpolicy

/-- Settles O12: the default tables are sound, and no cell is listed. -/
theorem resetMeetsInvariant : Obligations.ResetMeetsInvariant := by
  have hcfg : Config.standard.wf = true := by
    rw [Config.wf, Bool.and_eq_true]
    exact ⟨standard_wf, rfl⟩
  exact ⟨hcfg, ⟨List.Pairwise.nil, nofun⟩, nofun, Int.le_refl 0, Int.natCast_nonneg _, nofun⟩

/-! ### A word placed from outside (log entry 11) -/

/-- In canonical memory a placed word's bytes are read back at `PC` and the two addresses after it, so the next
instruction is the one the run's tables read from the word. -/
theorem fetchInstr_withFetchWord (s : State) (nbits w : Nat) (hwf : Memory.wf s.mem) :
    fetchInstr (s.withFetchWord nbits w) =
      decodeBytes s.cfg.tables (tableByte nbits w 0) (tableByte nbits w 1) (tableByte nbits w 2) := by
  have hread := memRead_of_storeAll s _ _ hwf (withFetchWord_mem s nbits w) (withFetchWord_cfg s nbits w)
  have h01 := not_sameCell_succ s.cfg.layout s.pc
  have h02 := not_sameCell_add_two s.cfg.layout s.pc
  have h12 : ¬ SameCell s.cfg.layout (s.pc + 1) (s.pc + 2) := by
    have h := not_sameCell_succ s.cfg.layout (s.pc + 1)
    rwa [add_assoc] at h
  rw [fetchInstr, withFetchWord_cfg, withFetchWord_pc, hread, hread, hread]
  simp only [BitVec.ofNat_eq_ofNat] at h01 h02 h12
  simp [readAfter, imageWrites, h01, h02, h12]

/-- Settles O21: the placed state is ready, so its next step runs the instruction fetched there
(`fetchInstr_withFetchWord`), which is the one read from the word. -/
theorem loadedInstructionRuns : Obligations.LoadedInstructionRuns := by
  intro s nbits w i hwf
  have hruns : decodeTableWordWith s.cfg.tables nbits w = some i →
      step (s.withFetchWord nbits w) = exec i (s.withFetchWord nbits w) := by
    intro hword
    rw [step_of_ready _ (withFetchWord_ready s nbits w), fetchInstr_withFetchWord s nbits w hwf]
    congr 1
    unfold decodeTableWordWith at hword
    split at hword
    next j rest hdecode =>
      cases hword
      exact (eq_decodeBytes_of_decodeWith _ _ _ _ i rest hdecode).symm
    next => cases hword
  exact ⟨hruns, fun htables hword => hruns (htables ▸ hword)⟩

end Sys2Proof.Machine

/-! PROOFS. Families 20_memory.md and 40_step_and_addressing.md, section 2: mirrors, words and the pointer modes (rules
R52 to R58, R114 to R116). -/

namespace Sys2Proof.Machine

/-! ### Mirrors -/

/-- Settles O26: a write is read back at the addresses of its cell and at no other (`memRead_memWrite`), and which those
are is `sameCell_flat` and `sameCell_segmented`. -/
theorem mirrorsShareOneByte : Obligations.MirrorsShareOneByte := by
  intro s a b v hwf same
  have hsame : same ↔ SameCell s.cfg.layout b a := by
    cases hlayout : s.cfg.layout with
    | flatMirrored =>
      rw [sameCell_flat]
      simp only [same, hlayout, eq_comm]
    | segmentedMap =>
      rw [sameCell_segmented]
      simp only [same, hlayout, ← BitVec.toNat_inj]
      split_ifs <;> omega
  rw [memRead_memWrite s hwf, hsame]
  exact ⟨fun h => if_pos h, fun h => if_neg h⟩

/-! ### Words -/

/-- A word is read little-endian (rule R53). -/
theorem memRead16_toNat (s : State) (addr : Addr) :
    (memRead16 s addr).toNat = (memRead s addr).toNat + 256 * (memRead s (addr + 1)).toNat := by
  rw [memRead16, word_toNat]
  omega

/-- The address after another, from its value. -/
theorem ofNat_addr_succ (addr : Addr) : BitVec.ofNat 16 ((addr.toNat + 1) % 65536) = addr + 1 := by
  bv_omega

/-- In canonical memory a word written is read back: its two addresses are of different cells. -/
theorem memRead16_memWrite16 (s : State) (addr w : Addr) (hwf : Memory.wf s.mem) :
    memRead16 (memWrite16 s addr w) addr = w := by
  have hread := memRead_memWrite (memWrite s addr (lowByte w)) (memWrite_wf s hwf _ _) (addr + 1) (highByte w)
  have hlow : memRead (memWrite16 s addr w) addr = lowByte w := by
    rw [memWrite16, hread, if_neg (not_sameCell_succ _ addr), memRead_memWrite s hwf, if_pos rfl]
  have hhigh : memRead (memWrite16 s addr w) (addr + 1) = highByte w := by
    rw [memWrite16, hread, if_pos rfl]
  rw [memRead16, hlow, hhigh, word_bytes]

/-- A word write stores the low byte and then the high byte (rule R54). -/
theorem memWrite16_wrote (s : State) (addr w : Addr) :
    Wrote s (memWrite16 s addr w) [(addr, lowByte w), (addr + 1, highByte w)] :=
  ⟨by simp [memWrite16, Bool.or_assoc], fun hwf => memRead_of_storeAll s _ _ hwf rfl rfl⟩

/-- Settles O27: `memRead16_toNat`, `memRead16_memWrite16` and `memWrite16_wrote`. -/
theorem wordAccesses : Obligations.WordAccesses := by
  refine fun s addr w => ⟨?_, memRead16_memWrite16 s addr w, memWrite16_wrote s addr w⟩
  rw [ofNat_addr_succ]
  exact memRead16_toNat s addr

/-! ### The pointer modes -/

/-- A zero-page address, from its value. -/
theorem ofNat_zext16 (b : Byte) : BitVec.ofNat 16 b.toNat = zext16 b := by
  rw [← zext16_toNat, BitVec.ofNat_toNat, BitVec.setWidth_eq]

/-- A wrapped zero-page address, from its value. -/
theorem ofNat_zext16_add (b c : Byte) : BitVec.ofNat 16 ((b.toNat + c.toNat) % 256) = zext16 (b + c) := by
  rw [← ofNat_zext16, BitVec.toNat_add]

/-- Rule R116: Y enters the indirect-indexed sum as a signed byte, or as an unsigned one. -/
theorem add_izyIndex_toNat (s : State) (w : Addr) : ((w + izyIndex s).toNat : Int) =
    ((w.toNat : Int) + (if s.cfg.izySigned then s.y.toInt else (s.y.toNat : Int))) % 65536 := by
  unfold izyIndex
  split
  · exact add_sext16_toNat w s.y
  · rw [BitVec.toNat_add, zext16_toNat]
    omega

/-- Settles O24: each pointer is a word of memory (`memRead16_toNat`), at the operand word or at a zero-page address,
and `add_izyIndex_toNat`. -/
theorem pointerModesResolve : Obligations.PointerModesResolve := by
  intro s w b1 ptr base
  have hptr : ptr = zext16 (b1 + s.x) := ofNat_zext16_add b1 s.x
  have hbase : base = zext16 b1 := ofNat_zext16 b1
  rw [hptr, hbase]
  refine ⟨memRead16_toNat s w, memRead16_toNat s _, ?_⟩
  rw [resolve, add_izyIndex_toNat, memRead16_toNat]
  norm_cast

end Sys2Proof.Machine

/-! PROOFS. Families 41_arithmetic.md, 42_logic_load_store_transfer.md and 49_system.md: SBC, BIT, the stores, TXS, BRK,
NOP and the `INVALID` bytes (rules R131, R143, R147 to R149, R155, R250 to R252). -/

namespace Sys2Proof.Machine

/-! ### SBC (rule R131) -/

/-- SBC's sum, with the operand's complement: the borrow is what the carry leaves out of 1. -/
theorem carrySum_onesComplement (a m : Byte) (c : Bool) :
    carrySum a (onesComplement m) c = a.toNat + 255 - m.toNat + c.toNat := by
  rw [carrySum, onesComplement_toNat]
  omega

/-- `V` of SBC by value: the operands have different signs and the result not the first one's. -/
theorem overflowSub_eq_true_iff (a m r : Byte) :
    overflowSub a m r = true ↔ ¬ (128 ≤ a.toNat ↔ 128 ≤ m.toNat) ∧ ¬ (128 ≤ r.toNat ↔ 128 ≤ a.toNat) := by
  simp [overflowSub, bitOf_seven_eq_decide]

/-- `V` of SBC is 1 exactly when the signed difference is out of range. -/
theorem overflowSub_sumByte_iff (a m : Byte) (c : Bool) :
    overflowSub a m (sumByte (carrySum a (onesComplement m) c)) = true ↔
      a.toInt - m.toInt - (1 - c.toNat) < -128 ∨ 127 < a.toInt - m.toInt - (1 - c.toNat) := by
  have hc : c.toNat ≤ 1 := Bool.toNat_le c
  rw [overflowSub_eq_true_iff, sumByte_toNat, carrySum_onesComplement, BitVec.toInt_eq_toNat_cond,
    BitVec.toInt_eq_toNat_cond]
  split <;> split <;> omega

/-- SBC carries out exactly when it needs no borrow. -/
theorem carrySum_onesComplement_carry_iff (a m : Byte) (c : Bool) :
    carrySum a (onesComplement m) c > 255 ↔ a.toNat ≥ m.toNat + (1 - c.toNat) := by
  have hc : c.toNat ≤ 1 := Bool.toNat_le c
  rw [carrySum_onesComplement]
  omega

/-- SBC's result is the difference modulo 256. -/
theorem sumByte_onesComplement_toNat (a m : Byte) (c : Bool) :
    ((sumByte (carrySum a (onesComplement m) c)).toNat : Int) =
      ((a.toNat : Int) - m.toNat - (1 - c.toNat)) % 256 := by
  rw [sumByte_toNat, carrySum_onesComplement]
  omega

/-- Settles O31: the opcodes are the encodings of rule R87, the next state is `writeSum_eq` of the sum, and the sum's
carry, byte and overflow are those of the difference. -/
theorem sbcSubtractsWithBorrow : Obligations.SbcSubtractsWithBorrow := by
  refine ⟨hasOpcodes_encodings .sbc .SBC (fun _ => rfl) (fun _ => rfl) Laws.OpcodeRow.sbc (fun _ => rfl),
    fun o s => ?_⟩
  simp only [ofNat_mod_eq_sumByte]
  exact ⟨⟨congrArg Host.Outcome.next (writeSum_eq (beginInstr s) _ _ _), fun _ => rfl⟩,
    carrySum_onesComplement_carry_iff s.a (operandByte o s) s.flags.c,
    sumByte_onesComplement_toNat s.a (operandByte o s) s.flags.c,
    overflowSub_sumByte_iff s.a (operandByte o s) s.flags.c⟩

/-! ### BIT, the stores and TXS (rules R143, R147 to R149, R155) -/

/-- Settles O33: the opcodes are the encodings of rule R87, and BIT ends by writing its three flags. -/
theorem bitTestsMemory : Obligations.BitTestsMemory :=
  ⟨hasOpcodes_encodings .bit .BIT (fun _ => rfl) (fun _ => rfl) Laws.OpcodeRow.bit (fun _ => rfl),
    fun _ _ => ⟨rfl, fun _ => rfl⟩⟩

/-- An instruction that ends with `MemWrite(ea, 1, v)` stores `v` at `ea`, and changes `PC` and `cycles` besides. -/
theorem completesStoring_of_memWrite (i : Instr) (s : State) (ea : Addr) (v : Byte)
    (h : exec i s = .next (memWrite (beginInstr s) ea v)) : CompletesStoring i s (advanced s) [(ea, v)] := by
  rw [CompletesStoring, h]
  exact endsStoring_of_storeAll s _ _ _ rfl (by simp) rfl rfl

/-- Settles O35: the opcodes are the encodings of rule R87, and each store ends by writing its register. -/
theorem storesWriteTheRegister : Obligations.StoresWriteTheRegister :=
  ⟨hasOpcodes_encodings .sta .STA (fun _ => rfl) (fun _ => rfl) Laws.OpcodeRow.sta (fun _ => rfl),
    hasOpcodes_encodings .stx .STX (fun _ => rfl) (fun _ => rfl) Laws.OpcodeRow.stx (fun _ => rfl),
    hasOpcodes_encodings .sty .STY (fun _ => rfl) (fun _ => rfl) Laws.OpcodeRow.sty (fun _ => rfl),
    fun o s => ⟨completesStoring_of_memWrite (.sta o) s (resolve o s) s.a rfl,
      completesStoring_of_memWrite (.stx o) s (resolve o s) s.x rfl,
      completesStoring_of_memWrite (.sty o) s (resolve o s) s.y rfl⟩⟩

/-- Settles O37: the opcode is that of rule R87, and the next state is `exec_txs_eq` for either value of the
parameter. -/
theorem txsSetsTheStackPointer : Obligations.TxsSetsTheStackPointer := by
  refine ⟨hasOpcode_of_opcode .txs .TXS 0x9A rfl rfl rfl Laws.OpcodeRow.txs rfl,
    fun s => ⟨fun hnz => ?_, fun hnz => ?_⟩⟩ <;>
  · rw [Completes, exec_txs_eq, hnz]
    exact ⟨rfl, fun _ => rfl⟩

/-! ### BRK, NOP and the `INVALID` bytes (rules R250 to R252) -/

/-- Settles O53: the opcodes are those of rule R87, the next states are the record `advanced`, and under sound tables
the width is the mode's (`fetchWidth_of_valid`). -/
theorem breakHaltsAndNopAdvances : Obligations.BreakHaltsAndNopAdvances := by
  refine ⟨hasOpcode_of_opcode .brk .BRK 0x00 rfl rfl rfl Laws.OpcodeRow.brk rfl,
    hasOpcode_of_opcode .nop .NOP 0xEA rfl rfl rfl Laws.OpcodeRow.nop rfl,
    fun s => ⟨⟨rfl, fun _ => rfl⟩, ⟨rfl, fun _ => rfl⟩, fun hwf hinstr himp => ?_⟩⟩
  have hop : (fetchInstr s).op ≠ none := by rcases hinstr with h | h <;> rw [h] <;> exact Option.some_ne_none _
  rw [← beginInstr_eq_advanced, beginInstr_pc, fetchWidth_of_valid s hwf hop, himp]
  rfl

/-- An `INVALID` byte of the standard matrix is its own instruction, one byte long. -/
theorem hasOpcode_invalid (op : Byte) (h : op ∈ invalidOpcodes) : HasOpcode (.invalid op) op := by
  have hop := (standard_opAt_eq_none_iff op).mpr h
  exact ⟨List.contains_iff_mem.mpr h, rfl, fun rest => decodeWith_of_opAt_none Tables.standard op rest hop⟩

/-- Settles O54: `hasOpcode_invalid`, and the next state is the one the policy selects. -/
theorem invalidOpcodePolicies : Obligations.InvalidOpcodePolicies := by
  refine ⟨hasOpcode_invalid, fun op s => ⟨fun hpolicy => ?_, fun hpolicy => ?_⟩⟩ <;>
  · simp only [Completes, exec, execInvalid, hpolicy]
    exact ⟨rfl, fun _ => rfl⟩

end Sys2Proof.Machine

/-! PROOFS. Family 48_control_transfer.md: JMP, JSR, RTS and RTI (rules R240 to R243). -/

namespace Sys2Proof.Machine

/-! ### JMP -/

/-- A word, from its value. -/
theorem ofNat_word (hi lo : Byte) : BitVec.ofNat 16 (lo.toNat + 256 * hi.toNat) = word hi lo := by
  apply BitVec.eq_of_toNat_eq
  have hword := (word hi lo).isLt
  rw [word_toNat] at hword ⊢
  rw [BitVec.toNat_ofNat]
  omega

/-- The word after another, from its bytes. -/
theorem ofNat_word_succ (hi lo : Byte) :
    BitVec.ofNat 16 ((lo.toNat + 256 * hi.toNat + 1) % 65536) = word hi lo + 1 := by
  rw [← ofNat_addr_succ, word_toNat]
  congr 2
  omega

/-- Settles O49: the opcodes are the encodings of rule R87, and JMP ends by writing the resolved address to `PC`. -/
theorem jumpSetsPC : Obligations.JumpSetsPC := by
  refine ⟨hasOpcodes_encodings .jmp .JMP (fun _ => rfl) (fun _ => rfl) Laws.OpcodeRow.jmp (fun _ => rfl),
    fun w s => ⟨⟨rfl, fun _ => rfl⟩, ?_⟩⟩
  rw [ofNat_word]
  exact ⟨rfl, fun _ => rfl⟩

/-! ### JSR -/

/-- JSR pushes the address of its last byte and jumps. -/
theorem exec_jsr_eq (o : Operand) (s : State) :
    exec (.jsr o) s = .next ((push16 (beginInstr s) ((advanced s).pc - 1)).setPc (resolve o s)) := rfl

/-- A fetched JSR of the mode `abs` is three bytes long. -/
theorem advanced_pc_of_fetched_abs (s : State) (o : Operand) (hwf : s.cfg.wf = true)
    (h : (fetchInstr s).operand = some o) (habs : o.mode = .abs) : (advanced s).pc = s.pc + 3 := by
  rw [advanced_pc_of_fetched s o hwf h, habs]
  rfl

/-- Settles O50: the opcode is that of rule R87, a fetched JSR has three bytes, and the next state is that of the push
(`push16_endsStoring`) with `PC` at the operand word. -/
theorem callPushesReturnAddress : Obligations.CallPushesReturnAddress := by
  refine ⟨hasOpcodes_encodings .jsr .JSR (fun _ => rfl) (fun _ => rfl) Laws.OpcodeRow.jsr (fun _ => rfl),
    fun w s => ⟨fun hwf h => ?last, ?pushed⟩⟩
  case last =>
    rw [advanced_pc_of_fetched_abs s _ hwf h rfl]
    bv_omega
  case pushed =>
    obtain ⟨u, hu, hwrote, hrest⟩ := push16_endsStoring (beginInstr s) ((advanced s).pc - 1)
    cases hu
    exact ⟨_, exec_jsr_eq (.abs w) s, hwrote, congrArg (State.setPc · w) hrest⟩

/-! ### RTS and RTI -/

/-- RTS pulls a word and sets `PC` to the next address. -/
theorem exec_rts_eq (s : State) :
    exec .rts s = .next { advanced s with
      sp := s.sp + 2
      pc := word (memRead s (stackCell (s.sp + 2))) (memRead s (stackCell (s.sp + 1))) + 1 } := by
  have hsp : s.sp + 2 = s.sp + 1 + 1 := by bv_omega
  rw [hsp]
  rfl

/-- RTI pulls the status byte and then `PC`. -/
theorem exec_rti_eq (s : State) :
    exec .rti s = .next { advanced s with
      sp := s.sp + 3
      flags := flagsOfByte (memRead s (stackCell (s.sp + 1)))
      pc := word (memRead s (stackCell (s.sp + 3))) (memRead s (stackCell (s.sp + 2))) } := by
  have hsp2 : s.sp + 2 = s.sp + 1 + 1 := by bv_omega
  have hsp3 : s.sp + 3 = s.sp + 1 + 1 + 1 := by bv_omega
  rw [hsp2, hsp3]
  rfl

/-- Settles O52: the opcode is that of rule R87, and the next state is `exec_rti_eq`. -/
theorem interruptReturnPullsStatusAndPC : Obligations.InterruptReturnPullsStatusAndPC := by
  refine ⟨hasOpcode_of_opcode .rti .RTI 0x40 rfl rfl rfl Laws.OpcodeRow.rti rfl, fun s => ?_⟩
  simp only [ofNat_word]
  exact ⟨exec_rti_eq s, fun _ => rfl⟩

/-- In canonical memory the two stack cells a pushed word was written to hold its bytes. -/
theorem memRead_push16_cells (s : State) (w : Addr) (hwf : Memory.wf s.mem) :
    memRead (push16 s w) (stackCell s.sp) = highByte w ∧
      memRead (push16 s w) (stackCell (s.sp - 1)) = lowByte w := by
  have hne : s.sp ≠ s.sp - 1 := by bv_omega
  simp only [← stackAddr_eq_stackCell, memRead_push16 s hwf, sameCell_stackAddr, if_neg hne, if_true, and_self]

/-- Settles O51: the opcode is that of rule R87 and the next state `exec_rts_eq`; after a JSR the two cells still hold
the pushed word (`memRead_push16_cells`), so RTS goes to the address after it. -/
theorem returnPullsAddressPlusOne : Obligations.ReturnPullsAddressPlusOne := by
  refine ⟨hasOpcode_of_opcode .rts .RTS 0x60 rfl rfl rfl Laws.OpcodeRow.rts rfl, fun s => ?nextState,
    fun o s t t' hwf hjsr hsp hcells => ?afterCall⟩
  case nextState =>
    simp only [ofNat_word_succ]
    exact ⟨exec_rts_eq s, fun _ => rfl⟩
  case afterCall =>
    cases hjsr
    obtain ⟨hhigh, hlow⟩ := memRead_push16_cells (beginInstr s) ((advanced s).pc - 1) hwf
    have hpushed : t'.sp = s.sp - 1 - 1 := hsp
    have hup1 : t'.sp + 1 = s.sp - 1 := by rw [hpushed]; bv_omega
    have hup2 : t'.sp + 2 = s.sp := by rw [hpushed]; bv_omega
    have hhigh' : memRead t' (stackCell s.sp) = highByte ((advanced s).pc - 1) := by
      have h := hcells 0 (by decide)
      rw [sub_zero] at h
      exact h.trans hhigh
    have hlow' : memRead t' (stackCell (s.sp - 1)) = lowByte ((advanced s).pc - 1) :=
      (hcells 1 (by decide)).trans hlow
    have hpc : word (memRead t' (stackCell (t'.sp + 2))) (memRead t' (stackCell (t'.sp + 1))) + 1 =
        (advanced s).pc := by
      rw [hup1, hup2, hhigh', hlow', word_bytes, sub_add_cancel]
    exact ⟨_, exec_rts_eq t', hpc, hup2, fun hcfg hfetched habs =>
      hpc.trans (advanced_pc_of_fetched_abs s o hcfg hfetched habs)⟩

end Sys2Proof.Machine

/-! PROOFS. Families 60_exceptions.md and 70_reset_and_hazards.md: interrupts, reset and the transitions of the
environment (rules R262 to R265, R270, R280 to R283, R300, R305). -/

namespace Sys2Proof.Machine

/-! ### Interrupt entry and return -/

/-- In canonical memory the three stack cells an entry wrote hold `PC` and the status byte. -/
theorem memRead_interruptEntry_cells (s : State) (vector : Addr) (hwf : Memory.wf s.mem) :
    memRead (interruptEntry s vector) (stackCell s.sp) = highByte s.pc ∧
      memRead (interruptEntry s vector) (stackCell (s.sp - 1)) = lowByte s.pc ∧
      memRead (interruptEntry s vector) (stackCell (s.sp - 2)) = s.flags.pack true false := by
  have hsp : s.sp - 1 - 1 = s.sp - 2 := by bv_omega
  have h0 : s.sp ≠ s.sp - 2 := by bv_omega
  have h1 : s.sp - 1 ≠ s.sp - 2 := by bv_omega
  have hread : ∀ p, memRead (interruptEntry s vector) (stackCell p) =
      if p = s.sp - 2 then s.flags.pack true false else memRead (push16 s s.pc) (stackCell p) := by
    intro p
    rw [interruptEntry_eq, memRead_setPc, memRead_setFlags, entryPushes, memRead_push8 _ (push16_wf s hwf _)]
    simp only [← stackAddr_eq_stackCell, sameCell_stackAddr, push16_sp, hsp]
  obtain ⟨hhigh, hlow⟩ := memRead_push16_cells s s.pc hwf
  exact ⟨by rw [hread, if_neg h0, hhigh], by rw [hread, if_neg h1, hlow], by rw [hread, if_pos rfl]⟩

/-- Settles O57: RTI reads the three cells (`exec_rti_eq`), which still hold what the entry pushed
(`memRead_interruptEntry_cells`). -/
theorem interruptReturnUndoesEntry : Obligations.InterruptReturnUndoesEntry := by
  intro s t' vector hwf hsp hcells
  obtain ⟨hhigh, hlow, hstatus⟩ := memRead_interruptEntry_cells s vector hwf
  have hup1 : t'.sp + 1 = s.sp - 2 := by rw [hsp, interruptEntry_sp]; bv_omega
  have hup2 : t'.sp + 2 = s.sp - 1 := by rw [hsp, interruptEntry_sp]; bv_omega
  have hup3 : t'.sp + 3 = s.sp := by rw [hsp, interruptEntry_sp]; bv_omega
  have hcell0 := hcells 0 (by decide)
  rw [sub_zero, hhigh] at hcell0
  have hcell1 := (hcells 1 (by decide)).trans hlow
  have hcell2 := (hcells 2 (by decide)).trans hstatus
  refine ⟨_, exec_rti_eq t', ?flags, ?pc, hup3⟩
  case flags =>
    calc flagsOfByte (memRead t' (stackCell (t'.sp + 1)))
      _ = Flags.unpack (s.flags.pack true false) := by rw [hup1, hcell2, unpack_eq_flagsOfByte]
      _ = s.flags := unpack_pack s.flags true false
  case pc =>
    calc word (memRead t' (stackCell (t'.sp + 3))) (memRead t' (stackCell (t'.sp + 2)))
      _ = word (highByte s.pc) (lowByte s.pc) := by rw [hup2, hup3, hcell0, hcell1]
      _ = s.pc := word_bytes s.pc

/-- A state that has every field of `t` but memory and `dirty` is `t` with these two its own. -/
theorem eq_with_mem_dirty (u t : State) (ha : u.a = t.a) (hx : u.x = t.x) (hy : u.y = t.y) (hsp : u.sp = t.sp)
    (hpc : u.pc = t.pc) (hflags : u.flags = t.flags) (hcycles : u.cycles = t.cycles) (hhalted : u.halted = t.halted)
    (hlatch : u.decodeError = t.decodeError) (hcfg : u.cfg = t.cfg) (hinputs : u.inputs = t.inputs) :
    u = { t with mem := u.mem, dirty := u.dirty } := by
  rw [← ha, ← hx, ← hy, ← hsp, ← hpc, ← hflags, ← hcycles, ← hhalted, ← hlatch, ← hcfg, ← hinputs]

/-- Rules R264, R265: all an interrupt entry changes, once its transition is used up. -/
theorem interruptEntry_endsStoring (s : State) (l : List Input) (vector : Addr) :
    EndsStoring (.next (interruptEntry (s.setInputs l) vector)) s { s with
        inputs := l, sp := s.sp - 3, flags := { s.flags with i := true },
        pc := word (memRead (interruptEntry (s.setInputs l) vector) (vector + 1))
          (memRead (interruptEntry (s.setInputs l) vector) vector) }
      [(stackCell s.sp, highByte s.pc), (stackCell (s.sp - 1), lowByte s.pc),
        (stackCell (s.sp - 2), statusByte s.flags true false)] := by
  have hsp2 : s.sp - 2 = s.sp - 1 - 1 := by bv_omega
  have hsp3 : s.sp - 3 = s.sp - 1 - 1 - 1 := by bv_omega
  refine endsStoring_of_storeAll s _ _ _ (interruptEntry_cfg _ _) ?dirty ?mem ?rest
  case dirty => simp [interruptEntry_dirty, anyQualifies]
  case mem =>
    rw [hsp2, ← pack_eq_statusByte]
    exact interruptEntry_stores (s.setInputs l) vector
  case rest =>
    rw [hsp3]
    refine eq_with_mem_dirty _ _ ?_ ?_ ?_ ?_ rfl ?_ ?_ ?_ ?_ ?_ ?_ <;> simp

/-- Rule R262: an NMI is always taken. -/
theorem step_of_nmi (s : State) (l : List Input) (hin : s.inputs = .deliverNMI :: l) :
    step s = .next (interruptEntry (s.setInputs l) s.cfg.nmiVector) :=
  step_of_inputs s _ l hin

/-- Rule R263: an IRQ is taken when `I = 0`. -/
theorem step_of_irq_clear (s : State) (l : List Input) (hin : s.inputs = .deliverIRQ :: l)
    (hclear : s.flags.i = false) : step s = .next (interruptEntry (s.setInputs l) s.cfg.irqVector) := by
  rw [step_of_inputs s _ l hin, perform, deliverIRQ, setInputs_flags, hclear]
  rfl

/-- Rule R263: an IRQ is dropped when `I = 1`. -/
theorem step_of_irq_set (s : State) (l : List Input) (hin : s.inputs = .deliverIRQ :: l)
    (hset : s.flags.i = true) : step s = .next (s.setInputs l) := by
  rw [step_of_inputs s _ l hin, perform, deliverIRQ, setInputs_flags, hset]
  rfl

/-- Settles O55: an NMI, and an IRQ with `I = 0`, is an entry (`interruptEntry_endsStoring`); an IRQ with `I = 1` is
dropped. -/
theorem interruptDelivery : Obligations.InterruptDelivery := by
  intro s l entered
  have hentered : ∀ vector, entered vector (.next (interruptEntry (s.setInputs l) vector)) := by
    intro vector
    refine ⟨_, rfl, ?_⟩
    rw [ofNat_word]
    exact interruptEntry_endsStoring s l vector
  refine ⟨fun hin => ?nmi, fun hin hclear => ?irq, fun hin hset => step_of_irq_set s l hin hset⟩
  case nmi =>
    rw [step_of_nmi s l hin]
    exact hentered s.cfg.nmiVector
  case irq =>
    rw [step_of_irq_clear s l hin hclear]
    exact hentered s.cfg.irqVector

/-- Settles O56: an entry sets `I` and leaves the next delivery to come, which is dropped if it is an IRQ and taken if
it is an NMI. -/
theorem interruptOrder : Obligations.InterruptOrder := by
  refine fun s l => ⟨fun hin => ?nmiFirst, fun hin hclear => ?irqFirst⟩
  case nmiFirst =>
    have hsecond := step_of_irq_set (interruptEntry (s.setInputs (.deliverIRQ :: l)) s.cfg.nmiVector) l
      (interruptEntry_inputs _ _) (by rw [interruptEntry_flags])
    rw [run_succ s _ 1 (step_of_nmi s _ hin), run_succ _ _ 0 hsecond]
    rfl
  case irqFirst =>
    have hsecond := step_of_nmi (interruptEntry (s.setInputs (.deliverNMI :: l)) s.cfg.irqVector) l
      (interruptEntry_inputs _ _)
    rw [run_succ s _ 1 (step_of_irq_clear s _ hin hclear), run_succ _ _ 0 hsecond, interruptEntry_cfg]
    rfl

/-! ### Reset and the environment -/

/-- Settles O58: the values are those of the two definitions, and `doReset` leaves memory alone. -/
theorem resetValues : Obligations.ResetValues := by
  refine ⟨fun s hs => ?values, fun s l hin => ⟨_, step_of_inputs s _ l hin, rfl, fun _ => rfl⟩⟩
  case values =>
    rcases hs with rfl | ⟨s0, rfl⟩ <;> exact ⟨rfl, rfl, rfl, rfl, rfl, rfl, rfl, rfl, rfl, rfl⟩

/-- Rule R305: loading an image, once its transition is used up, changes memory alone, to the image's bytes in order. -/
theorem envLoad_setInputs (s : State) (l : List Input) (base : Addr) (bytes : List Byte) :
    envLoad (s.setInputs l) base bytes =
      (s.setInputs l).setMem (storeAll s.cfg.layout s.mem (imageWrites base bytes)) := by
  rw [envLoad_fields, envLoad_mem]
  rfl

/-- Rule R305: the boot contract's four steps leave the reset state with the image in memory and `PC` at its base. -/
theorem run_boot (s : State) (base : Addr) (bytes : List Byte)
    (hin : s.inputs = [.reset, .load base bytes, .setPC base, .setSP 0xFF]) :
    Host.Core.run Sys2Proof.core 4 s = .next { doReset s with
      pc := base, inputs := [], mem := storeAll s.cfg.layout s.mem (imageWrites base bytes) } := by
  have hload := step_of_inputs (doReset (s.setInputs [.load base bytes, .setPC base, .setSP 0xFF])) _ _ rfl
  rw [perform, envLoad_setInputs] at hload
  rw [run_succ s _ 3 (step_of_inputs s _ _ hin), run_succ _ _ 2 hload,
    run_succ _ _ 1 (step_of_inputs _ (.setPC base) [.setSP 0xFF] rfl),
    run_succ _ _ 0 (step_of_inputs _ (.setSP 0xFF) [] rfl)]
  rfl

/-- Settles O59: each transition is one write of the model; `EnvWrite` and `Load` store their bytes, and the boot
contract is `run_boot`. -/
theorem environmentTransitions : Obligations.EnvironmentTransitions := by
  intro s l
  refine ⟨step_of_inputs s _ l, step_of_inputs s _ l, fun _ => step_of_inputs s _ l, fun _ => step_of_inputs s _ l,
    fun _ => step_of_inputs s _ l, fun addr v hin => ?envWrite, fun base bytes hin => ?load,
    fun base bytes hin => ?boot⟩
  case envWrite =>
    exact ⟨_, step_of_inputs s _ l hin, rfl, fun hwf => memRead_of_storeAll s _ [(addr, v)] hwf rfl rfl⟩
  case load =>
    have hstep := step_of_inputs s _ l hin
    rw [perform, envLoad_setInputs] at hstep
    exact ⟨_, hstep, rfl, fun hwf => memRead_of_storeAll s _ _ hwf rfl rfl⟩
  case boot =>
    exact ⟨_, run_boot s base bytes hin, rfl, fun hwf => memRead_of_storeAll s _ _ hwf rfl rfl⟩

end Sys2Proof.Machine
